-- ==== Sys2Proof/Word.lean ====
section
/-! DEFINITION. The machine's word types (10_state.md, 20_memory.md R60, 30_encoding.md R90) and the two small
enumerations every layer uses: the sequencer's decode mode and its phase (10_state.md R22). -/

namespace Sys2Proof

/-- One byte of the input buffer (R60). -/
abbrev Byte := BitVec 8

/-- A 32-bit word: a raw packet, a host register, a calibration entry (R90). -/
abbrev Word := BitVec 32

/-- A 64-bit output entry (R95). -/
abbrev Entry := BitVec 64

/-- A 41-bit host bus transaction (R104). -/
abbrev Transaction := BitVec 41

/-- MODE of R22: SCALED for command UNPACK, CAL for command UNPACK_CAL (R127). -/
inductive Mode where
  | scaled
  | cal
deriving DecidableEq, Repr

/-- PHASE of R22: IDLE, or BUSY while an UNPACK or UNPACK_CAL is processed. -/
inductive Phase where
  | idle
  | busy
deriving DecidableEq, Repr

end Sys2Proof
end

