-- ==== Sys2Proof/Config.lean ====
section
/-! DEFINITION. What is fixed for the block (00_scope.md R7) and the FREE VALUES: constants without a body that
stand for what the spec leaves unspecified (93_implementation_defined.md U2 to U9). No proof can see a value of them. -/

namespace Sys2Proof.Config

/-- P of R7: the pixel count, the number of rows of the output matrix. -/
abbrev numPixels : Nat := 256

/-- NBINS of R7: the taps of one clock period. -/
abbrev numBins : Nat := 140

/-- BIN_FS of R7: the bin width in femtoseconds. -/
abbrev binFs : Nat := 17857

/-- SENTINEL_PS of R7 in femtoseconds: the VALUE of an invalid entry (R96). -/
abbrev sentinelFs : Int := -1000

/-- The number of calibration-table entries, 256 × 140 (R43). -/
abbrev calEntries : Nat := 35840

/-- U5, R43: what entry `x` of the calibration RAM holds after the `k`-th power-on, until it is written.
It is fixed until written, so it is no function of the time of the read (assumption 5, DEDUCED). -/
opaque calPowerOn : (k x : Nat) → Word

/-- What byte `a` of the host's input buffer holds before the host stores one there (assumption 6, DESIGN CHOICE). -/
opaque inBufInitial : (a : Nat) → Byte

/-- What entry `x` of the host's output memory holds before anything is written there (assumption 7, DESIGN CHOICE). -/
opaque outMemInitial : (x : Nat) → Entry

/-- U3: the word with index `n` that an input read returns after the host changed the buffer during a command,
at draw `d` (assumption 8, DEDUCED). -/
opaque freeWord : (d n : Nat) → Word

/-- U2 and U4: whether entry `x` is taken with its old contents (true) or with the entry the command computes
(false), at draw `d` (assumptions 9 and 10). -/
opaque freeOld : (d x : Nat) → Bool

/-- U8: the progress count that a parallel implementation shows at draw `d`; the read reduces it to its bounds
(assumption 11, DEDUCED). -/
opaque freeCount : (d : Nat) → Nat

/-- U9: one less than LANES, the number of words an implementation decodes at once. -/
opaque lanesLessOne : Nat

/-- LANES of R7 and R134: at least one. -/
def lanes : Nat := lanesLessOne + 1

end Sys2Proof.Config
end

