-- ==== Sys2Proof/Syntax.lean ====
section
/-! DEFINITION. The instructions: one constructor per row of spec/opcode_table.json (30_encoding.md R91, R93, R98,
R100, R104). Every bit of an encoding is a field or fixed by the row, so that encoding loses nothing. -/

namespace Sys2Proof

/-- The rows of the opcode table.
* Packets (R91): `r` is bit 30 (described by no rule, ignored, R94), `a` the address field, `count` the raw count.
* Commands, the data of a host write to CMD (R98): `ignored` is CMD[31:4]; `low` the OPC bits the row leaves open.
* Host transactions (R104): `offset` and `data`; the data of a read is 0 (WellFormed.lean). -/
inductive Instr where
  | pktInvalid (r : BitVec 1) (a : BitVec 2) (count : BitVec 28)
  | pktValidScaled (r : BitVec 1) (a : BitVec 2) (count : BitVec 28)
  | pktValidCal (r : BitVec 1) (a : BitVec 2) (count : BitVec 28)
  | nop (ignored : BitVec 28)
  | unpack (ignored : BitVec 28)
  | unpackCal (ignored : BitVec 28)
  | reservedCmd3 (ignored : BitVec 28)
  | reservedCmd47 (low : BitVec 2) (ignored : BitVec 28)
  | reservedCmd8F (low : BitVec 3) (ignored : BitVec 28)
  | hostRd (offset : BitVec 8) (data : BitVec 32)
  | hostWr (offset : BitVec 8) (data : BitVec 32)
deriving DecidableEq, Repr

end Sys2Proof
end

