-- ==== Sys2Proof/WellFormed.lean ====
section
/-! DEFINITION. Which instructions are well formed. The field widths already exclude everything but one case:
R104 gives DATA as "data written; 0 for a read". -/

namespace Sys2Proof

/-- A host read carries DATA = 0 (R104); every value of every other field is legal (R102 for packets, R98 for
commands, R23 and R39 for offsets). -/
def Instr.wellFormed : Instr → Bool
  | .hostRd _ data => data == 0
  | .hostWr _ _ => true
  | .pktInvalid _ _ _ => true
  | .pktValidScaled _ _ _ => true
  | .pktValidCal _ _ _ => true
  | .nop _ => true
  | .unpack _ => true
  | .unpackCal _ => true
  | .reservedCmd3 _ => true
  | .reservedCmd47 _ _ => true
  | .reservedCmd8F _ _ => true

end Sys2Proof
end

