-- ==== Sys2Proof/Decode.lean ====
section
/-! DEFINITION. The decoder and, after it, the encoder (30_encoding.md).

The block has three coding spaces that share bit patterns: the 32-bit packets of the input stream (R91), the 32-bit
data of a write to CMD (R98) and the 41-bit host transactions (R104). What a word is read as depends on where it
stands, and a valid packet also on the sequencer's MODE (R93). -/

namespace Sys2Proof

/-- The three coding spaces of R90. -/
inductive Space where
  | packet
  | command
  | host
deriving DecidableEq, Repr

/-- One encoded instruction: a word in its coding space. -/
inductive CodeWord where
  | packet (w : Word)
  | command (d : Word)
  | host (x : Transaction)
deriving DecidableEq, Repr

/-- Why a list of bytes is no instruction: too few bytes, or a host transaction whose bits above bit 40 are not 0. -/
inductive DecodeError where
  | truncated
  | bitsAboveTransaction
deriving DecidableEq, Repr

/-! ## Fields -/

/-- V of R92: packet bit 31. -/
def packetValid (w : Word) : Bool := w.getLsbD 31

/-- R of R91: packet bit 30. -/
def packetBit30 (w : Word) : BitVec 1 := w.extractLsb' 30 1

/-- A of R92: packet bits 29:28. -/
def packetAddr (w : Word) : BitVec 2 := w.extractLsb' 28 2

/-- COUNT of R92: packet bits 27:0. -/
def packetCount (w : Word) : BitVec 28 := w.extractLsb' 0 28

/-- OPC of R98: bits 3:0 of the data written to CMD. -/
def commandOpc (d : Word) : BitVec 4 := d.extractLsb' 0 4

/-- CMD[31:4], ignored on a write (R98). -/
def commandIgnored (d : Word) : BitVec 28 := d.extractLsb' 4 28

/-- A 32-bit word from four bytes, the first the least significant (R61). -/
def wordOfBytes (b0 b1 b2 b3 : Byte) : Word := b3 ++ b2 ++ b1 ++ b0

/-- `k` bytes of `w`, the least significant first. -/
def bytesOfNat : (k w : Nat) → List Byte
  | 0, _ => []
  | k + 1, w => BitVec.ofNat 8 w :: bytesOfNat k (w / 256)

/-! ## Decoding -/

/-- R93: bit 31 alone selects the class, and MODE the row of a valid packet. -/
def decodePacket (m : Mode) (w : Word) : Instr :=
  if packetValid w then
    match m with
    | .scaled => .pktValidScaled (packetBit30 w) (packetAddr w) (packetCount w)
    | .cal => .pktValidCal (packetBit30 w) (packetAddr w) (packetCount w)
  else .pktInvalid (packetBit30 w) (packetAddr w) (packetCount w)

/-- The choice R100 makes on OPC, row by row of the opcode table (mask and match of each row as there). -/
def commandCases {α : Type} (d : Word) (nop unpack unpackCal reserved3 : BitVec 28 → α)
    (reserved47 : BitVec 2 → BitVec 28 → α) (reserved8F : BitVec 3 → BitVec 28 → α) : α :=
  if d &&& 0x0000000F#32 = 0x00000000#32 then nop (commandIgnored d)
  else if d &&& 0x0000000F#32 = 0x00000001#32 then unpack (commandIgnored d)
  else if d &&& 0x0000000F#32 = 0x00000002#32 then unpackCal (commandIgnored d)
  else if d &&& 0x0000000F#32 = 0x00000003#32 then reserved3 (commandIgnored d)
  else if d &&& 0x0000000C#32 = 0x00000004#32 then reserved47 (d.extractLsb' 0 2) (commandIgnored d)
  else reserved8F (d.extractLsb' 0 3) (commandIgnored d)

/-- R98, R100: the command that a write of `d` to CMD names. -/
def decodeCommand (d : Word) : Instr :=
  commandCases d .nop .unpack .unpackCal .reservedCmd3 .reservedCmd47 .reservedCmd8F

/-- R104: bit 40 is W, bits 39:32 OFFSET, bits 31:0 DATA. A read whose DATA is not 0 is ill formed (WellFormed.lean)
but still a read by the opcode table's mask (assumption 14, DEDUCED). -/
def decodeTransaction (x : Transaction) : Instr :=
  if x.getLsbD 40 then .hostWr (x.extractLsb' 32 8) (x.extractLsb' 0 32)
  else .hostRd (x.extractLsb' 32 8) (x.extractLsb' 0 32)

/-- The decoder on one code word, total: every word of every space is an instruction (R101, R102, R39). -/
def decode (m : Mode) : CodeWord → Instr
  | .packet w => decodePacket m w
  | .command d => decodeCommand d
  | .host x => decodeTransaction x

/-- The decoder on bytes, total, rejecting by name: a packet or command is four bytes little-endian (R61), a
transaction six bytes little-endian with bits 47:41 zero (assumption 21, DESIGN CHOICE). It answers the instruction
and the rest. -/
def decodeBytes (m : Mode) : Space → List Byte → Except DecodeError (Instr × List Byte)
  | .packet, b0 :: b1 :: b2 :: b3 :: rest => .ok (decodePacket m (wordOfBytes b0 b1 b2 b3), rest)
  | .packet, _ => .error .truncated
  | .command, b0 :: b1 :: b2 :: b3 :: rest => .ok (decodeCommand (wordOfBytes b0 b1 b2 b3), rest)
  | .command, _ => .error .truncated
  | .host, b0 :: b1 :: b2 :: b3 :: b4 :: b5 :: rest =>
      if b5.toNat < 2 then
        .ok (decodeTransaction (b5.extractLsb' 0 1 ++ b4 ++ wordOfBytes b0 b1 b2 b3), rest)
      else .error .bitsAboveTransaction
  | .host, _ => .error .truncated

/-! ## Encoding -/

/-- The code word of an instruction (R91, R98, R100, R104). -/
def encode : Instr → CodeWord
  | .pktInvalid r a count => .packet (0#1 ++ r ++ a ++ count)
  | .pktValidScaled r a count => .packet (1#1 ++ r ++ a ++ count)
  | .pktValidCal r a count => .packet (1#1 ++ r ++ a ++ count)
  | .nop ignored => .command (ignored ++ 0x0#4)
  | .unpack ignored => .command (ignored ++ 0x1#4)
  | .unpackCal ignored => .command (ignored ++ 0x2#4)
  | .reservedCmd3 ignored => .command (ignored ++ 0x3#4)
  | .reservedCmd47 low ignored => .command (ignored ++ 1#2 ++ low)
  | .reservedCmd8F low ignored => .command (ignored ++ 1#1 ++ low)
  | .hostRd offset data => .host (0#1 ++ offset ++ data)
  | .hostWr offset data => .host (1#1 ++ offset ++ data)

/-- Which instructions can be read while the sequencer's MODE is `m` (R93): the mode selects between the two rows of
a valid packet and nothing else (R103). -/
def Instr.readIn (m : Mode) : Instr → Bool
  | .pktValidScaled _ _ _ => m == .scaled
  | .pktValidCal _ _ _ => m == .cal
  | .pktInvalid _ _ _ => true
  | .nop _ => true
  | .unpack _ => true
  | .unpackCal _ => true
  | .reservedCmd3 _ => true
  | .reservedCmd47 _ _ => true
  | .reservedCmd8F _ _ => true
  | .hostRd _ _ => true
  | .hostWr _ _ => true

/-- The coding space of a code word. -/
def CodeWord.space : CodeWord → Space
  | .packet _ => .packet
  | .command _ => .command
  | .host _ => .host

/-- The bits of a code word as a number, bit 0 the least significant. -/
def CodeWord.bits : CodeWord → Nat
  | .packet w => w.toNat
  | .command d => d.toNat
  | .host x => x.toNat

/-- A code word as bytes, least significant first: four, or six for a transaction. -/
def CodeWord.bytes : CodeWord → List Byte
  | .packet w => bytesOfNat 4 w.toNat
  | .command d => bytesOfNat 4 d.toNat
  | .host x => bytesOfNat 6 x.toNat

/-! ## The opcode table -/

/-- One row of spec/opcode_table.json. -/
structure Row where
  mnemonic : String
  space : Space
  mask : Nat
  pattern : Nat
deriving DecidableEq, Repr

/-- The eleven rows, with the table's mask and match. -/
def opcodeTable : List Row :=
  [⟨"PKT_INVALID", .packet, 0x80000000, 0x00000000⟩,
   ⟨"PKT_VALID_SCALED", .packet, 0x80000000, 0x80000000⟩,
   ⟨"PKT_VALID_CAL", .packet, 0x80000000, 0x80000000⟩,
   ⟨"NOP", .command, 0x0000000F, 0x00000000⟩,
   ⟨"UNPACK", .command, 0x0000000F, 0x00000001⟩,
   ⟨"UNPACK_CAL", .command, 0x0000000F, 0x00000002⟩,
   ⟨"RESERVED_CMD_3", .command, 0x0000000F, 0x00000003⟩,
   ⟨"RESERVED_CMD_4_7", .command, 0x0000000C, 0x00000004⟩,
   ⟨"RESERVED_CMD_8_F", .command, 0x00000008, 0x00000008⟩,
   ⟨"HOST_RD", .host, 0x10000000000, 0x00000000000⟩,
   ⟨"HOST_WR", .host, 0x10000000000, 0x10000000000⟩]

/-- Whether a row's mask and pattern accept a code word of the row's space. -/
def Row.accepts (row : Row) (u : CodeWord) : Bool :=
  row.space == u.space && u.bits &&& row.mask == row.pattern

/-- The table's mnemonic of an instruction. -/
def Instr.mnemonic : Instr → String
  | .pktInvalid _ _ _ => "PKT_INVALID"
  | .pktValidScaled _ _ _ => "PKT_VALID_SCALED"
  | .pktValidCal _ _ _ => "PKT_VALID_CAL"
  | .nop _ => "NOP"
  | .unpack _ => "UNPACK"
  | .unpackCal _ => "UNPACK_CAL"
  | .reservedCmd3 _ => "RESERVED_CMD_3"
  | .reservedCmd47 _ _ => "RESERVED_CMD_4_7"
  | .reservedCmd8F _ _ => "RESERVED_CMD_8_F"
  | .hostRd _ _ => "HOST_RD"
  | .hostWr _ _ => "HOST_WR"

/-! ## The opcode table's numbering, for the host's question -/

/-- Which space a bare number is read in, given only its size (assumption 3, DESIGN CHOICE): more than 32 bits, a host
transaction; fewer than 32 bits, a command, since a packet has 32; 32 bits, a command if bits 31:4 are zero, its canonical form, and
otherwise a packet of the reset mode SCALED. -/
def tableSpace (nbits w : Nat) : Space :=
  if 32 < nbits then .host
  else if nbits < 32 ∨ w < 16 then .command
  else .packet

/-- The instruction the decoder reads from an instruction whose bits are `w`, its bytes laid out least significant
first. -/
def decodeTableWord (nbits w : Nat) : Option Instr :=
  let space := tableSpace nbits w
  let size := if space = .host then 6 else 4
  if w < 256 ^ size then
    match decodeBytes .scaled space (bytesOfNat size w) with
    | .ok (i, _) => some i
    | .error _ => none
  else none

end Sys2Proof
end

