-- ==== Sys2Proof/Machine/State.lean ====
section
/-! DEFINITION. The machine's state (10_state.md, 20_memory.md R60): the block's sequencer, host registers and
calibration RAM, the two memories behind its ports, the host agent of R16, and the model's own bookkeeping for what
the spec leaves unspecified. Plain data throughout. -/

namespace Sys2Proof.Machine

/-- A memory of `w`-bit cells: the cells that were written, addresses strictly rising (`Memory.wf`). A cell that is not
listed was never written; what it then reads as is a free value of Config (assumptions 5 to 7). -/
abbrev Memory (w : Nat) := List (Nat × BitVec w)

/-- The canonical form: addresses strictly rising. No listed cell can repeat what an unlisted one reads as, since an
unlisted cell holds no value of its own, so equal memories are equal lists. -/
abbrev Memory.wf {w : Nat} (m : Memory w) : Prop := (m.map Prod.fst).Pairwise (· < ·)

/-- Every listed address lies in the address space of `size` cells (R60). -/
abbrev Memory.below {w : Nat} (m : Memory w) (size : Nat) : Prop := ∀ p ∈ m, p.1 < size

/-- The error causes of R250. -/
inductive Error where
  | formatError
  | geometryError
  | calibrationUnavailable
  | illegalCommand
deriving DecidableEq, Repr

/-- The host registers of R23; `reserved` is every aligned offset from 0x3C to 0xFC (R39). -/
inductive Reg where
  | id | cmd | status | irqEn | tReg | byteLen | calCtrl | calIdx | calData
  | wordCnt | validCnt | cycles | rowLen | param0 | param1 | reserved
deriving DecidableEq, Repr

/-- What the world outside the block can do to it, one statement of the host's program each (R16, R105, R225).
* `bus`: one register transaction in the encoding of R104.
* `branchIfClear`: `bit0 r, k, label`, the host's own control flow (R105).
* `storeInput`: the host stores one byte into the input buffer while its program runs (R16, R65).
* `storeOutput`, `loadOutput`: the host writes or reads one entry of the output memory, during a command too (R16, R60).
* `reset`: the host drives the reset input (R225, R290).
* `powerCycle`: power is taken away and comes back, with a reset (R43, R291).
* `portFailure`: the platform fails an access of one of the block's ports (U7). -/
inductive HostStmt where
  | bus (x : Transaction)
  | branchIfClear (bit : BitVec 5) (target : Nat)
  | storeInput (a : BitVec 32) (b : Byte)
  | storeOutput (x : BitVec 30) (e : Entry)
  | loadOutput (x : BitVec 30)
  | reset
  | powerCycle
  | portFailure
deriving DecidableEq, Repr

/-- Which agent of R16 takes the next step. -/
inductive Turn where
  | host
  | block
deriving DecidableEq, Repr

/-- The machine.
* R22: `phase`, `mode`, `n`.
* STATUS of R26: `done`, `err`, `errCode`, `addrNz`, `wwb` (BUSY is `phase`); IRQ_EN.IE of R27: `ie`.
* T_REG, BYTE_LEN, CAL_CTRL.LOADED, CAL_IDX of R31, R32, R28, R29: `tReg`, `byteLen`, `loaded`, `calIdx`.
* WORD_CNT, VALID_CNT, CYCLES, ROW_LEN of R33 to R36: `wordCnt`, `validCnt`, `cycles`, `rowLen`.
* R43: `calTable`. R45: `inBuf`. R44: `outMem`.
* The host of R16 and R105: its program `hostProg`, the statement it is at `hostPc`, its variable `r` as `hostR`, the
  last output entry it read `hostEntry`.
* The model's own: `turns`, the agents of the next steps (assumption 1, DESIGN CHOICE); `outOld`, the output memory
  as the host alone has left it, without the writes of the command in progress (U2, U4); `inputDirty`, whether the
  host changed the input buffer during the command (U3); `contested`, the entries below N that the host stored to
  after the command had written them, without repeats (assumption 12), which no step reads and the invariant does;
  `seenWord` and `seenValid`, the progress counts the host last read during the command (U8); `powerOns`, the number
  of power-ons so far (U5); `draws`, the free values drawn so far (assumption 25, DESIGN CHOICE). -/
structure State where
  phase : Phase
  mode : Mode
  n : BitVec 30
  done : Bool
  err : Bool
  errCode : BitVec 4
  addrNz : Bool
  wwb : Bool
  ie : Bool
  tReg : Word
  byteLen : Word
  loaded : Bool
  calIdx : BitVec 16
  wordCnt : Word
  validCnt : Word
  cycles : Word
  rowLen : Word
  calTable : Memory 32
  inBuf : Memory 8
  outMem : Memory 64
  hostProg : List HostStmt
  hostPc : Nat
  hostR : Word
  hostEntry : Entry
  turns : List Turn
  outOld : Memory 64
  inputDirty : Bool
  contested : List Nat
  seenWord : Word
  seenValid : Word
  powerOns : Nat
  draws : Nat
deriving DecidableEq, Repr

/-- Why the machine stops. No instruction raises it (R251, R252): it comes from a statement of the host. -/
inductive Fault where
  /-- Raised by the statement `portFailure`: a platform bus error, or output memory smaller than the command needs.
  The spec gives it no effect and calls it a fault of the platform (U7, R252). Safe: nothing is proved beyond it. -/
  | platformPort
deriving DecidableEq, Repr

/-- Why an instruction has no meaning. -/
inductive Refusal where
  /-- Raised by an arm of `exec` whose instruction is not modelled yet. No arm raises it: every row has its meaning.
  Safe. -/
  | notModelled (mnemonic : String)
deriving DecidableEq, Repr

/-- The machine right after power-on and reset (R47). The block's part is R47's table; the calibration RAM lists no
entry, so each reads as an arbitrary value (U5). The host's variables, the memories behind the ports and the model's
own fields are no part of the block; their values here are assumptions 6, 7, 18 and 25. -/
def State.reset : State where
  phase := .idle
  mode := .scaled
  n := 0
  done := false
  err := false
  errCode := 0
  addrNz := false
  wwb := false
  ie := false
  tReg := 0
  byteLen := 0
  loaded := false
  calIdx := 0
  wordCnt := 0
  validCnt := 0
  cycles := 0
  rowLen := 0
  calTable := []
  inBuf := []
  outMem := []
  hostProg := []
  hostPc := 0
  hostR := 0
  hostEntry := 0
  turns := []
  outOld := []
  inputDirty := false
  contested := []
  seenWord := 0
  seenValid := 0
  powerOns := 0
  draws := 0

end Sys2Proof.Machine
end

