-- ==== Sys2Proof/Machine/Ops.lean ====
section
/-! DEFINITION. The named operations over memories and registers: the memories themselves, the ports (20_memory.md),
the lock of the registers while a command runs (10_state.md R41), error entry and return (60_exceptions.md). -/

namespace Sys2Proof.Machine

/-! ## Memories -/

/-- The cell at `a`, if it was ever written. -/
def Memory.get {w : Nat} : Memory w → Nat → Option (BitVec w)
  | [], _ => none
  | (b, v) :: m, a => if a = b then some v else Memory.get m a

/-- Writes the cell at `a`, keeping the addresses rising. -/
def Memory.set {w : Nat} : Memory w → Nat → BitVec w → Memory w
  | [], a, v => [(a, v)]
  | (b, u) :: m, a, v =>
      if a < b then (a, v) :: (b, u) :: m
      else if a = b then (a, v) :: m
      else (b, u) :: Memory.set m a v

/-- The memory whose cells below `size` are given by `f` (none: not written) and whose other cells are those of `m`. -/
def Memory.replaceBelow {w : Nat} (m : Memory w) (size : Nat) (f : Nat → Option (BitVec w)) : Memory w :=
  ((List.range size).filterMap fun a => (f a).map fun v => (a, v)) ++ m.filter fun p => size ≤ p.1

/-! ## The ports -/

/-- The byte at offset `a` of the input buffer. -/
def inByte (s : State) (a : Nat) : Byte := (s.inBuf.get a).getD (Config.inBufInitial a)

/-- InRead(a, 4) of R61: the little-endian word at offset `a`. -/
def inRead (s : State) (a : Nat) : Word :=
  wordOfBytes (inByte s a) (inByte s (a + 1)) (inByte s (a + 2)) (inByte s (a + 3))

/-- The calibration entry at linear index `x` (R43); one that was not written since power-on is arbitrary (U5). -/
def calEntry (s : State) (x : Nat) : Word := (s.calTable.get x).getD (Config.calPowerOn s.powerOns x)

/-- CalRead(p, b) of R66, in femtoseconds. -/
def calRead (s : State) (p b : Nat) : Int := (calEntry s (p * Config.numBins + b)).toInt

/-- The entry at index `x` of the output memory. -/
def outEntry (s : State) (x : Nat) : Entry := (s.outMem.get x).getD (Config.outMemInitial x)

/-- The entry at index `x` but for the writes of the command in progress: as the command found it, or as the host has stored
it since (assumption 12, DEDUCED). -/
def oldEntry (s : State) (x : Nat) : Entry := (s.outOld.get x).getD (Config.outMemInitial x)

/-- OutWrite(x, e) of R68. -/
def outWrite (s : State) (x : Nat) (e : Entry) : State := { s with outMem := s.outMem.set x e }

/-- Byte `k` of the output buffer where the platform maps it into a byte-addressed space (R68). -/
def outByte (s : State) (k : Nat) : Byte := (outEntry s (k / 8)).extractLsb' (8 * (k % 8)) 8

/-! ## Register fields -/

/-- STATUS.WWB <- 1 (R26, R41). -/
def setWwb (s : State) : State := { s with wwb := true }

/-- IRQ_EN.IE <- `b` (R27). -/
def setIe (b : Bool) (s : State) : State := { s with ie := b }

/-- T_REG.T <- `d` (R31). -/
def setT (d : Word) (s : State) : State := { s with tReg := d }

/-- BYTE_LEN.L <- `d` (R32). -/
def setByteLen (d : Word) (s : State) : State := { s with byteLen := d }

/-- CAL_CTRL.LOADED <- `b` (R28). -/
def setLoaded (b : Bool) (s : State) : State := { s with loaded := b }

/-- CAL_IDX.IDX <- `x` (R29). -/
def setCalIdx (x : BitVec 16) (s : State) : State := { s with calIdx := x }

/-- CalTable[IDX] <- `d`, IDX <- IDX + 1 (R30). -/
def storeCal (d : Word) (s : State) : State :=
  { s with calTable := s.calTable.set s.calIdx.toNat d, calIdx := s.calIdx + 1 }

/-! ## The register lock -/

/-- R41, R219: what a host write to CMD, T_REG, BYTE_LEN, CAL_CTRL, CAL_IDX or CAL_DATA does: `t` while IDLE, and
while BUSY nothing but setting STATUS.WWB. -/
def whileIdle (s t : State) : State :=
  match s.phase with
  | .idle => t
  | .busy => setWwb s

/-! ## Error entry and return -/

/-- The code of R250. -/
def Error.code : Error → BitVec 4
  | .formatError => 1
  | .geometryError => 2
  | .calibrationUnavailable => 3
  | .illegalCommand => 4

/-- `fail(e)` of R254, the error entry. -/
def fail (e : Error) (s : State) : State :=
  { s with err := true, errCode := e.code, done := true }

/-- R211: what every command but NOP clears first. -/
def clearCompletion (s : State) : State :=
  { s with done := false, err := false, errCode := 0 }

/-- The error return of R257 and the other W1C fields of R26: a write of `d` to STATUS. -/
def acknowledge (d : Word) (s : State) : State :=
  { s with
    done := s.done && !d.getLsbD 1
    err := s.err && !d.getLsbD 2
    errCode := if d.getLsbD 2 then 0 else s.errCode
    addrNz := s.addrNz && !d.getLsbD 8
    wwb := s.wwb && !d.getLsbD 9 }

end Sys2Proof.Machine
end

