-- ==== Sys2Proof/Machine/Operands.lean ====
section
/-! DEFINITION. Operand forms: the geometry and the output address of a word (41_cycle_reshaper.md), the entry made
from a packet (40_packet_decoder.md, 42_calibration.md), and the register an offset names (10_state.md R23). -/

namespace Sys2Proof.Machine

/-! ## Geometry -/

/-- N of R121: the number of whole words in the stream. -/
def wordTotal (s : State) : Nat := s.byteLen.toNat / 4

/-- The check of R120: the length is a whole number of words. -/
def lengthOk (s : State) : Bool := s.byteLen.toNat % 4 == 0

/-- The check of R151: T ≥ 1 and N is a multiple of T · 256. -/
def geometryOk (s : State) : Bool :=
  s.tReg.toNat != 0 && wordTotal s % (s.tReg.toNat * Config.numPixels) == 0

/-- AddrCalc of R153 on numbers: slot, pixel, cycle, column and output index of word `n`. -/
def slotOf (t n : Nat) : Nat := n % t

def pixelOf (t n : Nat) : Nat := n / t % Config.numPixels

def cycleOf (t n : Nat) : Nat := n / t / Config.numPixels

def columnOf (t n : Nat) : Nat := cycleOf t n * t + slotOf t n

def outIndexOf (t rowLen n : Nat) : Nat := pixelOf t n * rowLen + columnOf t n

/-- Flatten of R155: the word that row `i`, column `j` of the matrix comes from. -/
def flatten (t i j : Nat) : Nat := (i + Config.numPixels * (j / t)) * t + j % t

/-- The pixel of word `n` under the command in progress (R161). -/
def wordPixel (s : State) (n : Nat) : Nat := pixelOf s.tReg.toNat n

/-- The output index of word `n` under the command in progress (R153). -/
def wordIndex (s : State) (n : Nat) : Nat := outIndexOf s.tReg.toNat s.rowLen.toNat n

/-! ## Entries -/

/-- The entry {V, A, trunc_61(VALUE)} of R95. -/
def mkEntry (v : Bool) (a : BitVec 2) (value : Int) : Entry := BitVec.ofBool v ++ a ++ BitVec.ofInt 61 value

/-- V of an entry (R95). -/
def entryValid (e : Entry) : Bool := e.getLsbD 63

/-- A of an entry (R95). -/
def entryAddr (e : Entry) : BitVec 2 := e.extractLsb' 61 2

/-- VALUE of an entry in femtoseconds (R95). -/
def entryValue (e : Entry) : Int := (e.extractLsb' 0 61).toInt

/-- The sentinel entry of R126 and R184. -/
def sentinelEntry (a : BitVec 2) : Entry := mkEntry false a Config.sentinelFs

/-- The scaler of R128: COUNT · 17857 fs. -/
def scaledEntry (a : BitVec 2) (count : BitVec 28) : Entry := mkEntry true a (count.toNat * Config.binFs : Nat)

/-- The tap `b` of R185. -/
def tapOf (count : BitVec 28) : Nat := count.toNat % Config.numBins

/-- `coarse` of R185. -/
def coarseOf (count : BitVec 28) : Nat := count.toNat - tapOf count

/-- The lookup-and-accumulate unit of R186 for a valid word of pixel `i`. -/
def correctedEntry (s : State) (i : Nat) (a : BitVec 2) (count : BitVec 28) : Entry :=
  mkEntry true a ((coarseOf count * Config.binFs : Nat) + calRead s i (tapOf count))

/-- DecodeScaled of R135. -/
def decodeScaled (w : Word) : Entry :=
  if packetValid w then scaledEntry (packetAddr w) (packetCount w) else sentinelEntry (packetAddr w)

/-- Correct of R186 on the fields of `w` at pixel `i`. -/
def correct (s : State) (i : Nat) (w : Word) : Entry :=
  if packetValid w then correctedEntry s i (packetAddr w) (packetCount w) else sentinelEntry (packetAddr w)

/-- The entry of word `w` at pixel `i` under the command in progress (R127, R160). -/
def entryOf (s : State) (i : Nat) (w : Word) : Entry :=
  match s.mode with
  | .scaled => decodeScaled w
  | .cal => correct s i w

/-! ## Registers by offset -/

/-- The register at a byte offset (R23, R39); offset bits 1:0 are ignored (R40). -/
def regAt (offset : BitVec 8) : Reg :=
  match (offset &&& 0xFC#8).toNat with
  | 0x00 => .id
  | 0x04 => .cmd
  | 0x08 => .status
  | 0x0C => .irqEn
  | 0x10 => .tReg
  | 0x14 => .byteLen
  | 0x18 => .calCtrl
  | 0x1C => .calIdx
  | 0x20 => .calData
  | 0x24 => .wordCnt
  | 0x28 => .validCnt
  | 0x2C => .cycles
  | 0x30 => .rowLen
  | 0x34 => .param0
  | 0x38 => .param1
  | _ => .reserved

/-- The offset of a named register (R23); the first reserved offset for `reserved`. -/
def Reg.offset : Reg → BitVec 8
  | .id => 0x00
  | .cmd => 0x04
  | .status => 0x08
  | .irqEn => 0x0C
  | .tReg => 0x10
  | .byteLen => 0x14
  | .calCtrl => 0x18
  | .calIdx => 0x1C
  | .calData => 0x20
  | .wordCnt => 0x24
  | .validCnt => 0x28
  | .cycles => 0x2C
  | .rowLen => 0x30
  | .param0 => 0x34
  | .param1 => 0x38
  | .reserved => 0x3C

end Sys2Proof.Machine
end

