-- ==== Sys2Proof/Machine/Flags.lean ====
section
/-! DEFINITION. The status register as the host reads it (10_state.md R26), the interrupt output (60_exceptions.md
R262), the flags and counters a word writes (41_cycle_reshaper.md R160), and the progress counts that a parallel
implementation shows while it runs (R46, U8). -/

namespace Sys2Proof.Machine

/-- STATUS of R26, bit 31 first: reserved, WWB, ADDR_NZ, ERRCODE, reserved, ERR, DONE, BUSY. -/
def statusWord (s : State) : Word :=
  0#22 ++ BitVec.ofBool s.wwb ++ BitVec.ofBool s.addrNz ++ s.errCode ++ 0#1 ++ BitVec.ofBool s.err ++
    BitVec.ofBool s.done ++ BitVec.ofBool (s.phase == .busy)

/-- The interrupt output of R262. -/
def irq (s : State) : Bool := s.ie && s.done

/-- What processing one word writes besides the entry (R160): the counters, ADDR_NZ (R124) and the word index. -/
def countWord (v : Bool) (a : BitVec 2) (s : State) : State :=
  { s with
    validCnt := if v then s.validCnt + 1 else s.validCnt
    addrNz := s.addrNz || a != 0
    wordCnt := s.wordCnt + 1
    n := s.n + 1 }

/-- A progress counter as a read shows it (R46, U8): exact while IDLE and with one lane; while BUSY with more lanes
any value from the one last read, `seen`, up to N. -/
def shownCount (s : State) (exact seen : Word) : Word :=
  match s.phase with
  | .idle => exact
  | .busy =>
      if Config.lanes = 1 then exact
      else seen + BitVec.ofNat 32 (Config.freeCount s.draws % (wordTotal s - seen.toNat + 1))

/-- WORD_CNT as a read shows it (R33). -/
def shownWordCnt (s : State) : Word := shownCount s s.wordCnt s.seenWord

/-- VALID_CNT as a read shows it (R34). -/
def shownValidCnt (s : State) : Word := shownCount s s.validCnt s.seenValid

end Sys2Proof.Machine
end

