-- ==== Sys2Proof/Machine/Command.lean ====
section
/-! DEFINITION. The meanings of the six command rows (43_operations.md R210 to R219). A command is issued by a host
write to CMD; while a command runs it is ignored but for STATUS.WWB (R219), which `whileIdle` says. -/

namespace Sys2Proof.Machine

/-- The first lines of Start (R215): what an UNPACK or UNPACK_CAL clears whether it then fails or not. -/
def clearProgress (s : State) : State :=
  { s with addrNz := false, wordCnt := 0, validCnt := 0, cycles := 0, rowLen := 0 }

/-- The last lines of Start (R215, R152): the geometry is recorded and the sequencer set going. The model's own fields
note the output memory as the command finds it and that the host has changed neither buffer so far. -/
def beginWords (m : Mode) (s : State) : State :=
  { s with
    cycles := BitVec.ofNat 32 (wordTotal s / (s.tReg.toNat * Config.numPixels))
    rowLen := BitVec.ofNat 32 (wordTotal s / Config.numPixels)
    mode := m
    n := 0
    phase := .busy
    outOld := s.outMem
    inputDirty := false
    contested := []
    seenWord := 0
    seenValid := 0 }

/-- The checks of Start in their order (R215, R253). -/
def startError (m : Mode) (s : State) : Option Error :=
  if !lengthOk s then some .formatError
  else if !geometryOk s then some .geometryError
  else if m == .cal && !s.loaded then some .calibrationUnavailable
  else none

/-- Start(mode) of R215 after R211, one step. -/
def start (m : Mode) (s : State) : State :=
  match startError m s with
  | some e => fail e (clearProgress (clearCompletion s))
  | none => beginWords m (clearProgress (clearCompletion s))

/-- A reserved command (R218): R211, then IllegalCommand. -/
def illegal (s : State) : State := fail .illegalCommand (clearCompletion s)

/-- NOP (R212). -/
def execNop (_ignored : BitVec 28) (s : State) : Host.Outcome State Fault Refusal :=
  .next (whileIdle s s)

/-- UNPACK (R213). -/
def execUnpack (_ignored : BitVec 28) (s : State) : Host.Outcome State Fault Refusal :=
  .next (whileIdle s (start .scaled s))

/-- UNPACK_CAL (R214). -/
def execUnpackCal (_ignored : BitVec 28) (s : State) : Host.Outcome State Fault Refusal :=
  .next (whileIdle s (start .cal s))

/-- The reserved command OPC 3 (R218). -/
def execReservedCmd3 (_ignored : BitVec 28) (s : State) : Host.Outcome State Fault Refusal :=
  .next (whileIdle s (illegal s))

/-- The reserved commands OPC 4 to 7 (R218). -/
def execReservedCmd47 (_low : BitVec 2) (_ignored : BitVec 28) (s : State) : Host.Outcome State Fault Refusal :=
  .next (whileIdle s (illegal s))

/-- The reserved commands OPC 8 to 15 (R218). -/
def execReservedCmd8F (_low : BitVec 3) (_ignored : BitVec 28) (s : State) : Host.Outcome State Fault Refusal :=
  .next (whileIdle s (illegal s))

/-- R210: the command that a write of `d` to CMD issues. -/
def issueCommand (d : Word) (s : State) : Host.Outcome State Fault Refusal :=
  commandCases d (execNop · s) (execUnpack · s) (execUnpackCal · s) (execReservedCmd3 · s)
    (fun low ignored => execReservedCmd47 low ignored s) (fun low ignored => execReservedCmd8F low ignored s)

end Sys2Proof.Machine
end

