-- ==== Sys2Proof/Machine/HostPort.lean ====
section
/-! DEFINITION. The meanings of the two host transactions, a read and a write of a host register
(43_operations.md R220, R221; the registers: 10_state.md R23 to R41). -/

namespace Sys2Proof.Machine

/-- ID of R24. -/
def idWord : Word := 0x54430100

/-- PARAM0 of R37: the pixel count above the tap count. -/
def param0Word : Word := BitVec.ofNat 16 Config.numPixels ++ BitVec.ofNat 16 Config.numBins

/-- PARAM1 of R38: the bin width. -/
def param1Word : Word := BitVec.ofNat 32 Config.binFs

/-- What a read of a register returns (R220). -/
def regValue (s : State) : Reg → Word
  | .id => idWord
  | .cmd => 0
  | .status => statusWord s
  | .irqEn => (BitVec.ofBool s.ie).setWidth 32
  | .tReg => s.tReg
  | .byteLen => s.byteLen
  | .calCtrl => (BitVec.ofBool s.loaded).setWidth 32
  | .calIdx => s.calIdx.setWidth 32
  | .calData => if s.calIdx.toNat < Config.calEntries then calEntry s s.calIdx.toNat else 0
  | .wordCnt => shownWordCnt s
  | .validCnt => shownValidCnt s
  | .cycles => s.cycles
  | .rowLen => s.rowLen
  | .param0 => param0Word
  | .param1 => param1Word
  | .reserved => 0

/-- The model's note that the host was shown WORD_CNT during a command (U8). -/
def noteWord (s : State) : State := { s with seenWord := shownWordCnt s, draws := s.draws + 1 }

/-- The model's note that the host was shown VALID_CNT during a command (U8). -/
def noteValid (s : State) : State := { s with seenValid := shownValidCnt s, draws := s.draws + 1 }

/-- The host's variable `r` takes the value of a read (R105). -/
def setHostR (d : Word) (s : State) : State := { s with hostR := d }

/-- A read has no effect on the block (R40); the model notes the progress counts it showed while BUSY (U8). -/
def noteRead (s : State) (reg : Reg) : State :=
  match s.phase, reg with
  | .busy, .wordCnt => noteWord s
  | .busy, .validCnt => noteValid s
  | _, _ => s

/-- CAL_DATA written while IDLE (R30). -/
def writeCalData (d : Word) (s : State) : State :=
  if s.calIdx.toNat < Config.calEntries then storeCal d s else s

/-- HOST_RD (R220): the value goes to the host's variable `r` (R105). -/
def execHostRd (offset : BitVec 8) (_data : Word) (s : State) : Host.Outcome State Fault Refusal :=
  .next (setHostR (regValue s (regAt offset)) (noteRead s (regAt offset)))

/-- HOST_WR (R221). -/
def execHostWr (offset : BitVec 8) (d : Word) (s : State) : Host.Outcome State Fault Refusal :=
  match regAt offset with
  | .cmd => issueCommand d s
  | .status => .next (acknowledge d s)
  | .irqEn => .next (setIe (d.getLsbD 0) s)
  | .tReg => .next (whileIdle s (setT d s))
  | .byteLen => .next (whileIdle s (setByteLen d s))
  | .calCtrl => .next (whileIdle s (setLoaded (d.getLsbD 0) s))
  | .calIdx => .next (whileIdle s (setCalIdx (d.extractLsb' 0 16) s))
  | .calData => .next (whileIdle s (writeCalData d s))
  | .id => .next s
  | .wordCnt => .next s
  | .validCnt => .next s
  | .cycles => .next s
  | .rowLen => .next s
  | .param0 => .next s
  | .param1 => .next s
  | .reserved => .next s

end Sys2Proof.Machine
end

