-- ==== Sys2Proof/Machine/Packet.lean ====
section
/-! DEFINITION. The meanings of the three packet rows: the sequencer's processing of one word (41_cycle_reshaper.md
R160) with the entry of 40_packet_decoder.md R126, R128 or 42_calibration.md R186. -/

namespace Sys2Proof.Machine

/-- R160 once the entry `e` is made: write it at the word's index, count the word, advance `n`. -/
def retire (v : Bool) (a : BitVec 2) (e : Entry) (s : State) : State :=
  countWord v a (outWrite s (wordIndex s s.n.toNat) e)

/-- PKT_INVALID (R126, R184): the sentinel entry, whatever bits 30 and 27:0 hold. -/
def execPktInvalid (_r : BitVec 1) (a : BitVec 2) (_count : BitVec 28) (s : State) :
    Host.Outcome State Fault Refusal :=
  .next (retire false a (sentinelEntry a) s)

/-- PKT_VALID in scaled mode (R128). -/
def execPktValidScaled (_r : BitVec 1) (a : BitVec 2) (count : BitVec 28) (s : State) :
    Host.Outcome State Fault Refusal :=
  .next (retire true a (scaledEntry a count) s)

/-- PKT_VALID in calibrated mode (R186), at the pixel of the word (R161). -/
def execPktValidCal (_r : BitVec 1) (a : BitVec 2) (count : BitVec 28) (s : State) :
    Host.Outcome State Fault Refusal :=
  .next (retire true a (correctedEntry s (wordPixel s s.n.toNat) a count) s)

end Sys2Proof.Machine
end

