-- ==== Sys2Proof/Machine/Dispatch.lean ====
section
/-! DEFINITION. One arm per instruction. -/

namespace Sys2Proof.Machine

def exec (i : Instr) (s : State) : Host.Outcome State Fault Refusal :=
  match i with
  | .pktInvalid r a count => Sys2Proof.Machine.execPktInvalid r a count s
  | .pktValidScaled r a count => Sys2Proof.Machine.execPktValidScaled r a count s
  | .pktValidCal r a count => Sys2Proof.Machine.execPktValidCal r a count s
  | .nop ignored => Sys2Proof.Machine.execNop ignored s
  | .unpack ignored => Sys2Proof.Machine.execUnpack ignored s
  | .unpackCal ignored => Sys2Proof.Machine.execUnpackCal ignored s
  | .reservedCmd3 ignored => Sys2Proof.Machine.execReservedCmd3 ignored s
  | .reservedCmd47 low ignored => Sys2Proof.Machine.execReservedCmd47 low ignored s
  | .reservedCmd8F low ignored => Sys2Proof.Machine.execReservedCmd8F low ignored s
  | .hostRd offset data => Sys2Proof.Machine.execHostRd offset data s
  | .hostWr offset data => Sys2Proof.Machine.execHostWr offset data s

end Sys2Proof.Machine
end

