-- ==== Sys2Proof/Machine/Sequencer.lean ====
section
/-! DEFINITION. The sequencer's step inside a command (41_cycle_reshaper.md R160, 43_operations.md R216), what a
command computes for an entry it has not written yet (U2, U4), and reset (70_reset_and_hazards.md R290 to R292). -/

namespace Sys2Proof.Machine

/-- The word an input read returns for word index `n`: InRead(4n, 4) (R61), or any value once the host changed the
buffer during the command (R65, U3). -/
def streamWord (s : State) (n : Nat) : Word :=
  if s.inputDirty then Config.freeWord s.draws n else inRead s (4 * n)

/-- A free value has been drawn (assumption 25, DESIGN CHOICE). -/
def draw (s : State) : State := { s with draws := s.draws + 1 }

/-- The draw that a free word takes. -/
def noteStream (s : State) : State := if s.inputDirty then draw s else s

/-- The fetch: the instruction in the word at the sequencer's index (R160, R93). -/
def fetchedPacket (s : State) : Instr := decodePacket s.mode (streamWord s s.n.toNat)

/-- Completion of R216. The output memory stays as the words' OutWrites and the host's stores have left it (R74). -/
def complete (s : State) : State :=
  { s with phase := .idle, done := true, outOld := [], inputDirty := false, contested := [] }

/-- The sequencer's next step: a word while n < N (R160), completion when n = N (R216), nothing while IDLE. A count
beyond N is reached by no run (R21); no step is then enabled (assumption 15, DESIGN CHOICE). -/
def sequencerStep (s : State) : Host.Outcome State Fault Refusal :=
  match s.phase with
  | .idle => .next s
  | .busy =>
      if s.n.toNat < wordTotal s then exec (fetchedPacket s) (noteStream s)
      else if s.n.toNat = wordTotal s then .next (complete s)
      else .next s

/-- The word that entry `x` of the command in progress comes from (R155). -/
def sourceWord (s : State) (x : Nat) : Nat := flatten s.tReg.toNat (x / s.rowLen.toNat) (x % s.rowLen.toNat)

/-- The entry the command in progress computes for index `x`, or what the memory holds once it is written. Once the host
changed the input buffer (U3), the word of an entry not written yet is a free word drawn for this one look at it: two
reads, a reset, and the sequencer's own read of that word may each take another (assumption 29, DESIGN CHOICE). -/
def computedEntry (s : State) (x : Nat) : Entry :=
  if sourceWord s x < s.n.toNat then outEntry s x
  else entryOf s (x / s.rowLen.toNat) (streamWord s (sourceWord s x))

/-- R46, U2: what the host sees of entry `x`: its contents while IDLE or outside the command's N entries, and while
BUSY, whole (R68), either its old contents or the entry the command computes. -/
def shownEntry (s : State) (x : Nat) : Entry :=
  if s.phase = .busy ∧ x < wordTotal s then
    if Config.freeOld s.draws x then oldEntry s x else computedEntry s x
  else outEntry s x

/-- R292, U4: the output memory that a reset leaves: unchanged while IDLE; of a command abandoned, each of its N
entries with its old contents or the computed one. -/
def outAfterReset (s : State) : Memory 64 :=
  match s.phase with
  | .idle => s.outMem
  | .busy =>
      s.outMem.replaceBelow (wordTotal s) fun x =>
        if Config.freeOld s.draws x then s.outOld.get x else some (computedEntry s x)

/-- The reset input of R290: the block at the values of R47, the calibration RAM kept (R291), the memories behind the
ports and the host kept. -/
def resetBlock (s : State) : State :=
  { State.reset with
    calTable := s.calTable
    inBuf := s.inBuf
    outMem := outAfterReset s
    hostProg := s.hostProg
    hostPc := s.hostPc
    hostR := s.hostR
    hostEntry := s.hostEntry
    turns := s.turns
    powerOns := s.powerOns
    draws := s.draws + 1 }

/-- Power-on followed by its reset: as reset, and every calibration entry is arbitrary anew (R43, U5). -/
def powerOnBlock (s : State) : State :=
  { resetBlock s with calTable := [], powerOns := s.powerOns + 1 }

end Sys2Proof.Machine
end

