-- ==== Sys2Proof/Machine/HostAgent.lean ====
section
/-! DEFINITION. The host as the other agent (00_scope.md R16): its program, what each statement of it does, and the
host-program forms of 30_encoding.md R105 and R106. -/

namespace Sys2Proof.Machine

/-- A host store of one byte into the input buffer. Into the bytes 0 .. L−1 of the stream of a command in progress, it
leaves the words still to be read unspecified (R65, U3). -/
def storeInput (a : Nat) (b : Byte) (s : State) : State :=
  { s with
    inBuf := s.inBuf.set a b
    inputDirty := s.inputDirty || (s.phase == .busy && decide (a < s.byteLen.toNat)) }

/-- A host store of `e` to entry `x` of the command in progress, one atomic step (R16, R68). It is the entry's old contents
from here on: the OutWrite of its word, if that is still to come, replaces it (R73, R74), and if it has been performed the
entry stays the host's, which `contested` notes (assumption 12, DEDUCED). -/
def contest (x : Nat) (e : Entry) (s : State) : State :=
  { s with
    outMem := s.outMem.set x e
    outOld := s.outOld.set x e
    contested := if sourceWord s x < s.n.toNat then s.contested.insert x else s.contested }

/-- A host store of one entry of the output memory. The command goes on (R217). -/
def storeOutput (x : Nat) (e : Entry) (s : State) : State :=
  if s.phase = .busy ∧ x < wordTotal s then contest x e s else outWrite s x e

/-- The host goes on at statement `k` of its program. -/
def jump (k : Nat) (s : State) : State := { s with hostPc := k }

/-- The agents of the next steps (assumption 1, DESIGN CHOICE). -/
def setTurns (turns : List Turn) (s : State) : State := { s with turns := turns }

/-- The output entry that the host has read. -/
def setHostEntry (e : Entry) (s : State) : State := { s with hostEntry := e }

/-- One statement of the host's program, `hostPc` already past it. -/
def hostStmtStep (stmt : HostStmt) (s : State) : Host.Outcome State Fault Refusal :=
  match stmt with
  | .bus x => exec (decodeTransaction x) s
  | .branchIfClear bit target =>
      .next (if s.hostR.getLsbD bit.toNat then s else jump target s)
  | .storeInput a b => .next (storeInput a.toNat b s)
  | .storeOutput x e => .next (storeOutput x.toNat e s)
  | .loadOutput x => .next (setHostEntry (shownEntry s x.toNat) (draw s))
  | .reset => .next (resetBlock s)
  | .powerCycle => .next (powerOnBlock s)
  | .portFailure => .fault .platformPort

/-- The host's next step: its next statement, or nothing once its program has ended. -/
def hostStep (s : State) : Host.Outcome State Fault Refusal :=
  match s.hostProg[s.hostPc]? with
  | none => .next s
  | some stmt => hostStmtStep stmt (jump (s.hostPc + 1) s)

/-- R224: the host program has executed its last statement and PHASE = IDLE. -/
def runEnded (s : State) : Bool := decide (s.hostProg.length ≤ s.hostPc) && s.phase == .idle

/-! ## Host programs -/

/-- `rd REG` (R105). -/
def rd (reg : Reg) : HostStmt := .bus (0#1 ++ reg.offset ++ 0#32)

/-- `wr REG, d` (R105). -/
def wr (reg : Reg) (d : Word) : HostStmt := .bus (1#1 ++ reg.offset ++ d)

/-- The host's stores of bytes from offset `a` on while its program runs, one statement each (R16, R65). The set-up line
`inbuf` of R105 is no statement: Machine/Program.lean. -/
def storeInputs : (a : BitVec 32) → List Byte → List HostStmt
  | _, [] => []
  | a, b :: bs => .storeInput a b :: storeInputs (a + 1) bs

/-- `wait_done` of R106, standing at statement `at_` of its program. -/
def waitDone (at_ : Nat) : List HostStmt := [rd .status, .branchIfClear 1 at_]

/-- `clear_status` of R106. -/
def clearStatus : List HostStmt := [wr .status 0x306]

/-- `load_cal TABLE` of R106: every entry in index order. -/
def loadCal (table : (pixel bin : Nat) → Word) : List HostStmt :=
  [wr .calCtrl 0, wr .calIdx 0] ++
    (List.range Config.calEntries).map (fun x => wr .calData (table (x / Config.numBins) (x % Config.numBins))) ++
    [wr .calCtrl 1]

/-- `unpack T, L` of R106, standing at statement `at_` of its program. -/
def unpackCall (at_ : Nat) (t l : Word) : List HostStmt :=
  [wr .tReg t, wr .byteLen l, wr .cmd 1] ++ waitDone (at_ + 3)

/-- `unpack_calibrated T, L` of R106, standing at statement `at_` of its program. -/
def unpackCalibratedCall (at_ : Nat) (t l : Word) : List HostStmt :=
  [wr .tReg t, wr .byteLen l, wr .cmd 2] ++ waitDone (at_ + 3)

/-! ## The result -/

/-- R223: an entry in the source's terms: its VALUE in femtoseconds (thousandths of a picosecond), or none for the
sentinel. -/
def entryTime (e : Entry) : Option Int := if entryValid e then some (entryValue e) else none

/-- R223, R159: the matrix in the output memory, 256 rows of ROW_LEN entries each. -/
def matrixRows (s : State) : List (List (Option Int)) :=
  (List.range Config.numPixels).map fun i =>
    (List.range s.rowLen.toNat).map fun j => entryTime (outEntry s (i * s.rowLen.toNat + j))

/-- The result of the source's two public operations (R106, R223): the error with its ERRCODE, or the output matrix with the
shape that CYCLES and ROW_LEN report. -/
inductive CallResult where
  | error (code : BitVec 4)
  | matrix (cycles rowLen : Word) (rows : List (List (Option Int)))
deriving DecidableEq, Repr

/-- R106, R223: the result of `unpack` or `unpack_calibrated`, as it stands where its `wait_done`
has just seen DONE; while DONE is 0 there is none (assumption 30, DEDUCED). -/
def callResult (s : State) : Option CallResult :=
  if s.done then
    if s.err then some (.error s.errCode) else some (.matrix s.cycles s.rowLen (matrixRows s))
  else none

/-- R223: row `i`, column `j` of a result: none where the result is an error or has no such cell. -/
def CallResult.cell : CallResult → (i j : Nat) → Option (Option Int)
  | .error _, _, _ => none
  | .matrix _ _ rows, i, j => rows[i]?.bind fun row => row[j]?

/-- R106, R223: row `i`, column `j` of the matrix that a call has returned, if it has returned one with that cell. -/
def matrixCell (s : State) (i j : Nat) : Option (Option Int) := (callResult s).bind fun result => result.cell i j

/-! ## Placing one instruction -/

/-- The host program with `stmt` at index `k` and the rest as it was; a place before it that the program does not reach
yet holds a read of ID. -/
def placeStmt (prog : List HostStmt) (k : Nat) (stmt : HostStmt) : List HostStmt :=
  prog.take k ++ List.replicate (k - prog.length) (rd .id) ++ stmt :: prog.drop (k + 1)

/-- The host's next statement is the transaction `x`, and the host has the next turn. -/
def placeTransaction (x : Transaction) (s : State) : State :=
  { s with hostProg := placeStmt s.hostProg s.hostPc (.bus x), turns := .host :: s.turns }

/-- The host's next statement writes `d` to CMD, and no command is in progress, so that it is executed (R210). -/
def placeCommand (d : Word) (s : State) : State :=
  placeTransaction (1#1 ++ Reg.offset .cmd ++ d) { s with phase := .idle }

/-- A store of the four bytes of `w` at offset 0 of the input buffer, little-endian. -/
def storeFirstWord (w : Word) (m : Memory 8) : Memory 8 :=
  (((m.set 3 (w.extractLsb' 24 8)).set 2 (w.extractLsb' 16 8)).set 1 (w.extractLsb' 8 8)).set 0 (w.extractLsb' 0 8)

/-- An UNPACK of the shortest stream (T = 1, L = 1024) has just started, word 0 of it is `w`, and the sequencer has the
next turn. -/
def placePacket (w : Word) (s : State) : State :=
  let started := start .scaled { s with phase := .idle, tReg := 1, byteLen := 1024 }
  { started with inBuf := storeFirstWord w s.inBuf, turns := .block :: s.turns }

/-- The state in which the next step runs the instruction whose bits are `w`, read as decodeTableWord reads it
(assumptions 3 and 4). -/
def placeTableWord (nbits w : Nat) (s : State) : State :=
  match tableSpace nbits w with
  | .host => placeTransaction (BitVec.ofNat 41 w) s
  | .command => placeCommand (BitVec.ofNat 32 w) s
  | .packet => placePacket (BitVec.ofNat 32 w) s

end Sys2Proof.Machine
end

