-- ==== Sys2Proof/Machine/Step.lean ====
section
/-! DEFINITION. One step of the machine: one step of one agent (00_scope.md R15, R16). -/

namespace Sys2Proof.Machine

/-- The step. The first of `turns` says which agent moves; with none given the sequencer moves while a command is in
progress and the host otherwise, so that every command completes (R305; assumption 1, DESIGN CHOICE). -/
def step (s : State) : Host.Outcome State Fault Refusal :=
  match s.turns with
  | .host :: rest => hostStep (setTurns rest s)
  | .block :: rest => sequencerStep (setTurns rest s)
  | [] =>
      match s.phase with
      | .busy => sequencerStep s
      | .idle => hostStep s

/-- `s` with one instruction of the opcode table placed so that the next step runs it (assumptions 2 to 4). -/
def State.withFetchWord (s : State) (nbits w : Nat) : State := placeTableWord nbits w s

end Sys2Proof.Machine
end

