-- ==== Sys2Proof/Safety.lean ====
section
/-! DEFINITION. What every reachable state satisfies, in the terms the statements use: the canonical form of the
memories, the laws of STATUS (10_state.md R26), and, while a command runs, the facts its start established
(43_operations.md R215) together with the progress made since (10_state.md R21, R22, R46). -/

namespace Sys2Proof.Machine

/-- The memories are in canonical form and inside their address spaces (R60). -/
structure MemoryInv (s : State) : Prop where
  calTable : s.calTable.wf ∧ s.calTable.below Config.calEntries
  inBuf : s.inBuf.wf ∧ s.inBuf.below (2 ^ 32)
  outMem : s.outMem.wf ∧ s.outMem.below (2 ^ 30)
  outOld : s.outOld.wf ∧ s.outOld.below (2 ^ 30)

/-- The laws of STATUS that R26 states. -/
structure StatusInv (s : State) : Prop where
  busy_not_done : s.phase = .busy → s.done = false ∧ s.err = false
  err_iff_code : s.err = false ↔ s.errCode = 0
  code_le : s.errCode.toNat ≤ 4

/-- The number of valid words among the first `k` of the input buffer (R34). -/
def validBelow (s : State) (k : Nat) : Nat := ((List.range k).filter fun m => packetValid (inRead s (4 * m))).length

/-- While a command runs: its start checks hold (R215), its geometry is recorded (R152), and it has processed and counted
the words below `n` (R21, R33, R34). The entries of the words still to come are as the host left them, and those of the
words processed are the ones it computes (R160), unless the host changed its input buffer (U3) or has stored to them since
they were written, when they are as the host left them. A progress count that
the host has read is at most N and, with one lane, at most the exact count (R46). -/
structure BusyInv (s : State) : Prop where
  length : s.byteLen.toNat % 4 = 0
  slots : 1 ≤ s.tReg.toNat
  whole : wordTotal s % (s.tReg.toNat * Config.numPixels) = 0
  loaded : s.mode = .cal → s.loaded = true
  cycles : s.cycles.toNat = wordTotal s / (s.tReg.toNat * Config.numPixels)
  rowLen : s.rowLen.toNat = wordTotal s / Config.numPixels
  index : s.n.toNat ≤ wordTotal s
  counted : s.wordCnt.toNat = s.n.toNat
  valid : s.validCnt.toNat ≤ s.n.toNat
  validExact : s.inputDirty = false → s.validCnt.toNat = validBelow s s.n.toNat
  seen : s.seenWord.toNat ≤ wordTotal s ∧ s.seenValid.toNat ≤ wordTotal s
  seenExact : Config.lanes = 1 → s.seenWord.toNat ≤ s.wordCnt.toNat ∧ s.seenValid.toNat ≤ s.validCnt.toNat
  unwritten : ∀ k, s.n.toNat ≤ k → k < wordTotal s →
    s.outMem.get (wordIndex s k) = s.outOld.get (wordIndex s k)
  written : s.inputDirty = false → ∀ k, k < s.n.toNat → wordIndex s k ∉ s.contested →
    outEntry s (wordIndex s k) = entryOf s (wordPixel s k) (inRead s (4 * k))
  contested : s.contested.Nodup ∧ ∀ x ∈ s.contested, x < wordTotal s ∧ sourceWord s x < s.n.toNat ∧
    s.outMem.get x = s.outOld.get x

/-- The machine's invariant. -/
structure Inv (s : State) : Prop where
  memory : MemoryInv s
  status : StatusInv s
  busy : s.phase = .busy → BusyInv s

/-- A safe step: the machine goes on. -/
def StepsOn (s : State) : Prop := ∃ t, step s = .next t

/-! ## Turns -/

/-- The sequencer takes the next step. -/
def SequencerTurn (s : State) : Prop := s.turns.head? = some .block ∨ (s.turns = [] ∧ s.phase = .busy)

/-- The host takes the next step. -/
def HostTurn (s : State) : Prop := s.turns.head? = some .host ∨ (s.turns = [] ∧ s.phase = .idle)

/-- `s` with the turn now taken removed. -/
def afterTurn (s : State) : State := setTurns s.turns.tail s

/-- `s` as the host's next statement finds it: the turn taken, the host past the statement. -/
def atStatement (s : State) : State := jump (s.hostPc + 1) (afterTurn s)

/-- The host's next statement is a register transaction that writes CMD (R210). -/
def WritesCmd (s : State) : Prop :=
  ∃ x offset d, s.hostProg[s.hostPc]? = some (.bus x) ∧ decodeTransaction x = .hostWr offset d ∧ offset.toNat / 4 = 1

/-! ## The start of a command -/

/-- The conditions under which UNPACK (R213) and UNPACK_CAL (R214) start: IDLE, and no check of R215 fails. -/
structure StartsIn (m : Mode) (s : State) : Prop where
  idle : s.phase = .idle
  length : s.byteLen.toNat % 4 = 0
  slots : 1 ≤ s.tReg.toNat
  whole : s.byteLen.toNat / 4 % (s.tReg.toNat * 256) = 0
  loaded : m = .cal → s.loaded = true

/-- What R254 and R215 leave of a failed UNPACK or UNPACK_CAL, as a proposition on the code: IDLE, DONE with the interrupt
output following IE (R262), ERR and the code, the counters and ADDR_NZ cleared, STATUS.WWB kept, the result of the call the
error (R106, R223), and nothing else changed (R255: no entry is written). -/
def startFailsWith (code : BitVec 4) (s t : State) : Prop :=
  t.phase = .idle ∧ t.done = true ∧ irq t = s.ie ∧ t.err = true ∧ t.errCode = code ∧ t.addrNz = false ∧
  t.wordCnt = 0 ∧ t.validCnt = 0 ∧ t.cycles = 0 ∧ t.rowLen = 0 ∧
  statusWord t = (statusWord s &&& 0x200#32) ||| (0x006#32 ||| code.setWidth 32 <<< 4) ∧
  callResult t = some (.error code) ∧
  t = { s with
        done := t.done, err := t.err, errCode := t.errCode, addrNz := t.addrNz, wordCnt := t.wordCnt,
        validCnt := t.validCnt, cycles := t.cycles, rowLen := t.rowLen }

/-- The instruction that starts a command of mode `m`. -/
def startInstr (m : Mode) (ignored : BitVec 28) : Instr :=
  match m with
  | .scaled => .unpack ignored
  | .cal => .unpackCal ignored

/-- Whether an instruction is a command row of the opcode table. -/
def isCommand : Instr → Bool
  | .nop _ => true
  | .unpack _ => true
  | .unpackCal _ => true
  | .reservedCmd3 _ => true
  | .reservedCmd47 _ _ => true
  | .reservedCmd8F _ _ => true
  | .pktInvalid _ _ _ => false
  | .pktValidScaled _ _ _ => false
  | .pktValidCal _ _ _ => false
  | .hostRd _ _ => false
  | .hostWr _ _ => false

/-- Whether an instruction is a packet row of the opcode table. -/
def isPacket : Instr → Bool
  | .pktInvalid _ _ _ => true
  | .pktValidScaled _ _ _ => true
  | .pktValidCal _ _ _ => true
  | .nop _ => false
  | .unpack _ => false
  | .unpackCal _ => false
  | .reservedCmd3 _ => false
  | .reservedCmd47 _ _ => false
  | .reservedCmd8F _ _ => false
  | .hostRd _ _ => false
  | .hostWr _ _ => false

/-- Whether an instruction is a reserved command row (R218). -/
def isReservedCommand : Instr → Bool
  | .reservedCmd3 _ => true
  | .reservedCmd47 _ _ => true
  | .reservedCmd8F _ _ => true
  | .pktInvalid _ _ _ => false
  | .pktValidScaled _ _ _ => false
  | .pktValidCal _ _ _ => false
  | .nop _ => false
  | .unpack _ => false
  | .unpackCal _ => false
  | .hostRd _ _ => false
  | .hostWr _ _ => false

end Sys2Proof.Machine
end

