-- ==== Sys2Proof/Certificates/Slice0/Obligations.lean ====
section
/-! DEFINITION. The statements for the provers. Each docstring names the rules of spec/ that it formalises. `exec i s`
is the meaning of one instruction, `step` one step of the machine; `.next t` says that it completes in the state `t`. -/

open Sys2Proof Sys2Proof.Machine

/-! ## Encodings -/

/-- R92, R93, R98, R100, R104: decoding the code word of a well-formed instruction, in a mode that can read it, gives
the instruction back with every operand. -/
def Obligations.DecodeOfEncodeIsIdentity : Prop :=
  ∀ (m : Mode) (i : Instr), i.wellFormed = true → i.readIn m = true → decode m (encode i) = i

/-- R92, R98, R104: encoding what a code word decodes to gives the code word back, in either mode, so that the decoder
drops no bit. -/
def Obligations.EncodeOfDecodeIsIdentity : Prop :=
  ∀ (m : Mode) (u : CodeWord), encode (decode m u) = u

/-- R93, R100, opcode_table.json: a row of the table accepts a code word exactly when the word decodes, in some mode, to
that row's instruction. In particular no word of a space is left out, and two rows overlap only as the two PKT_VALID
rows do. -/
def Obligations.OpcodeRowsMatchDecoder : Prop :=
  ∀ (row : Row) (u : CodeWord), row ∈ opcodeTable →
    (row.accepts u = true ↔ ∃ m : Mode, (decode m u).mnemonic = row.mnemonic)

/-- R92, R93: the fields of a packet by arithmetic, for every word, and the class by bit 31 with the mode selecting the
row of a valid packet. -/
def Obligations.PacketFieldsByArithmetic : Prop :=
  ∀ (m : Mode) (w : Word), ∃ (r : BitVec 1) (a : BitVec 2) (count : BitVec 28),
    a.toNat = w.toNat / 2 ^ 28 % 4 ∧ count.toNat = w.toNat % 2 ^ 28 ∧ r.toNat = w.toNat / 2 ^ 30 % 2 ∧
    (w.toNat < 2 ^ 31 → decodePacket m w = .pktInvalid r a count) ∧
    (2 ^ 31 ≤ w.toNat → decodePacket m w =
      (match m with
       | .scaled => .pktValidScaled r a count
       | .cal => .pktValidCal r a count))

/-- R98, R100: the command is chosen by the data's value modulo 16, and two writes to CMD that agree there have the same
effect in every state. -/
def Obligations.CommandChosenByOpcodeAlone : Prop :=
  (∀ d : Word,
    (d.toNat % 16 = 0 → ∃ g, decodeCommand d = .nop g) ∧
    (d.toNat % 16 = 1 → ∃ g, decodeCommand d = .unpack g) ∧
    (d.toNat % 16 = 2 → ∃ g, decodeCommand d = .unpackCal g) ∧
    (3 ≤ d.toNat % 16 → isReservedCommand (decodeCommand d) = true)) ∧
  ∀ (offset : BitVec 8) (d d' : Word) (s : State), offset.toNat / 4 = 1 → d.toNat % 16 = d'.toNat % 16 →
    exec (.hostWr offset d) s = exec (.hostWr offset d') s

/-- Words written out from the encodings of R91, R100 and R104 and the programs of 95_test_vectors.md decode to the
instructions they stand for: one of each row. -/
def Obligations.WrittenOutWordsDecode : Prop :=
  decode .scaled (.packet 0x30000005) = .pktInvalid 0 3 5 ∧
  decode .scaled (.packet 0x9000008C) = .pktValidScaled 0 1 140 ∧
  decode .cal (.packet 0xE000008C) = .pktValidCal 1 2 140 ∧
  decode .scaled (.command 0x00000010) = .nop 1 ∧
  decode .scaled (.command 0x00000001) = .unpack 0 ∧
  decode .scaled (.command 0x00000002) = .unpackCal 0 ∧
  decode .scaled (.command 0x00000013) = .reservedCmd3 1 ∧
  decode .scaled (.command 0x00000006) = .reservedCmd47 2 0 ∧
  decode .scaled (.command 0x0000000F) = .reservedCmd8F 7 0 ∧
  decode .scaled (.host 0x00800000000) = .hostRd 0x08 0 ∧
  decode .scaled (.host 0x11400000400) = .hostWr 0x14 0x400

/-- R61: a word of the stream is assembled from its four bytes, the first the least significant. -/
def Obligations.InputWordIsLittleEndian : Prop :=
  ∀ (s : State) (a : Nat), (inRead s a).toNat =
    (inByte s a).toNat + 2 ^ 8 * (inByte s (a + 1)).toNat + 2 ^ 16 * (inByte s (a + 2)).toNat +
      2 ^ 24 * (inByte s (a + 3)).toNat

/-- R61, R90 and assumption 21, DESIGN CHOICE (the byte layout of a transaction): the bytes of a well-formed instruction
decode to it and leave the bytes after it; fewer bytes than the unit has, and a transaction with a bit above bit 40, are
rejected by name. -/
def Obligations.BytesDecodeOrAreRejected : Prop :=
  (∀ (m : Mode) (i : Instr) (rest : List Byte), i.wellFormed = true → i.readIn m = true →
    decodeBytes m (encode i).space ((encode i).bytes ++ rest) = .ok (i, rest)) ∧
  (∀ (m : Mode) (bs : List Byte), bs.length < 4 → decodeBytes m .packet bs = .error .truncated ∧
    decodeBytes m .command bs = .error .truncated) ∧
  (∀ (m : Mode) (bs : List Byte), bs.length < 6 → decodeBytes m .host bs = .error .truncated) ∧
  (∀ (m : Mode) (b0 b1 b2 b3 b4 b5 : Byte) (rest : List Byte), 2 ≤ b5.toNat →
    decodeBytes m .host (b0 :: b1 :: b2 :: b3 :: b4 :: b5 :: rest) = .error .bitsAboveTransaction)

/-! ## A step runs the decoded instruction -/

/-- R160, R93: at the sequencer's turn, while a command has a word left, a step is the meaning of the packet in that
word: the word at offset 4n, or any word once the host changed the buffer during the command (R65, U3). -/
def Obligations.SequencerStepRunsPacketAtIndex : Prop :=
  ∀ s : State, SequencerTurn s → s.phase = .busy → s.n.toNat < s.byteLen.toNat / 4 →
    (s.inputDirty = false →
      step s = exec (decodePacket s.mode (inRead s (4 * s.n.toNat))) (afterTurn s)) ∧
    (s.inputDirty = true →
      step s = exec (decodePacket s.mode (Config.freeWord s.draws s.n.toNat))
        { afterTurn s with draws := s.draws + 1 })

/-- R75, R105: at the host's turn, when its next statement is a register transaction, a step is the meaning of that
transaction, with the host past it. -/
def Obligations.HostStepRunsTransaction : Prop :=
  ∀ (s : State) (x : Transaction), HostTurn s → s.hostProg[s.hostPc]? = some (.bus x) →
    step s = exec (decodeTransaction x) (atStatement s)

/-- R216: at the sequencer's turn with every word processed, the command completes: IDLE and DONE, the interrupt output
following IE, and nothing else of the machine changes but the model's notes of the command: the output memory is as the
words' OutWrites and the host's stores have left it. -/
def Obligations.CompletionSetsDone : Prop :=
  ∀ s : State, SequencerTurn s → s.phase = .busy → s.n.toNat = s.byteLen.toNat / 4 →
    ∃ t, step s = .next t ∧ t.phase = .idle ∧ t.done = true ∧ irq t = s.ie ∧
      (∀ x, outEntry t x = outEntry s x) ∧
      t = { afterTurn s with
            phase := t.phase, done := t.done, outOld := t.outOld, inputDirty := t.inputDirty,
            contested := t.contested }

/-- R251, R252, R102: every instruction completes in every state. -/
def Obligations.EveryInstructionCompletes : Prop :=
  ∀ (i : Instr) (s : State), ∃ t, exec i s = .next t

/-- Whole machine (R251, R252, R217; U7 and assumption 13, DEDUCED, for the exception): a step stops exactly when it is the
host's turn and its statement is a failure of the platform's ports. -/
def Obligations.StepStopsOnlyOnHostFault : Prop :=
  ∀ s : State,
    (HostTurn s ∧ s.hostProg[s.hostPc]? = some .portFailure → step s = .fault .platformPort) ∧
    (¬(HostTurn s ∧ s.hostProg[s.hostPc]? = some .portFailure) → StepsOn s)

/-- R294 and assumption 16, DEDUCED: with no command in progress and the host's program ended, a step changes nothing but
the turn taken. -/
def Obligations.IdleMachineWaits : Prop :=
  ∀ s : State, s.phase = .idle → s.hostProg.length ≤ s.hostPc → step s = .next (afterTurn s)

/-! ## Packets -/

/-- R126, R184: an invalid packet, in either mode, writes the sentinel entry with the packet's address field at its
output index and counts a word that is not valid. -/
def Obligations.InvalidPacketWritesSentinel : Prop :=
  ∀ (r : BitVec 1) (a : BitVec 2) (count : BitVec 28) (s : State), ∃ t,
    exec (.pktInvalid r a count) s = .next t ∧
    (outEntry t (wordIndex s s.n.toNat)).toNat = 0x1FFFFFFFFFFFFC18 + a.toNat * 2 ^ 61 ∧
    entryValid (outEntry t (wordIndex s s.n.toNat)) = false ∧
    entryAddr (outEntry t (wordIndex s s.n.toNat)) = a ∧
    entryValue (outEntry t (wordIndex s s.n.toNat)) = -1000 ∧
    t.validCnt = s.validCnt ∧ t.wordCnt = s.wordCnt + 1 ∧ t.n = s.n + 1 ∧
    (t.addrNz = true ↔ s.addrNz = true ∨ a ≠ 0)

/-- R128: a valid packet in scaled mode writes COUNT · 17857 fs, valid, with its address field, and counts a valid
word. -/
def Obligations.ScaledPacketWritesProduct : Prop :=
  ∀ (r : BitVec 1) (a : BitVec 2) (count : BitVec 28) (s : State), ∃ t,
    exec (.pktValidScaled r a count) s = .next t ∧
    entryValid (outEntry t (wordIndex s s.n.toNat)) = true ∧
    entryAddr (outEntry t (wordIndex s s.n.toNat)) = a ∧
    entryValue (outEntry t (wordIndex s s.n.toNat)) = count.toNat * 17857 ∧
    t.validCnt = s.validCnt + 1 ∧ t.wordCnt = s.wordCnt + 1 ∧ t.n = s.n + 1 ∧
    (t.addrNz = true ↔ s.addrNz = true ∨ a ≠ 0)

/-- R185, R186: a valid packet in calibrated mode writes (COUNT − COUNT mod 140) · 17857 fs plus the signed table entry
of its pixel and tap, valid, with its address field, and counts a valid word. -/
def Obligations.CalibratedPacketWritesSum : Prop :=
  ∀ (r : BitVec 1) (a : BitVec 2) (count : BitVec 28) (s : State), ∃ t,
    exec (.pktValidCal r a count) s = .next t ∧
    entryValid (outEntry t (wordIndex s s.n.toNat)) = true ∧
    entryAddr (outEntry t (wordIndex s s.n.toNat)) = a ∧
    entryValue (outEntry t (wordIndex s s.n.toNat)) =
      ((count.toNat - count.toNat % 140) * 17857 : Int) +
        (calEntry s (wordPixel s s.n.toNat * 140 + count.toNat % 140)).toInt ∧
    t.validCnt = s.validCnt + 1 ∧ t.wordCnt = s.wordCnt + 1 ∧ t.n = s.n + 1 ∧
    (t.addrNz = true ↔ s.addrNz = true ∨ a ≠ 0)

/-- Frame of the three packet rows (R160, R133, R70): the counters, ADDR_NZ, the word index and the one output entry
change and nothing else: every other entry, and every byte outside that entry where the output memory is
byte-addressed (R68), reads as before. -/
def Obligations.PacketFrame : Prop :=
  ∀ (i : Instr) (s t : State), isPacket i = true → exec i s = .next t →
    t = { s with
          outMem := t.outMem, validCnt := t.validCnt, addrNz := t.addrNz, wordCnt := t.wordCnt, n := t.n } ∧
    (∀ y, y ≠ wordIndex s s.n.toNat → outEntry t y = outEntry s y) ∧
    (∀ k, k < 8 * wordIndex s s.n.toNat ∨ 8 * wordIndex s s.n.toNat + 8 ≤ k → outByte t k = outByte s k)

/-- R94: no effect depends on bit 30 of a packet, in either class and either mode. -/
def Obligations.BitThirtyIgnored : Prop :=
  ∀ (m : Mode) (w : Word) (s : State),
    exec (decodePacket m w) s = exec (decodePacket m (w ^^^ 0x40000000#32)) s

/-- R126, R102: for every word with bit 31 zero the entry depends on no bit but the address field. -/
def Obligations.InvalidEntryIgnoresOtherBits : Prop :=
  ∀ (m : Mode) (w w' : Word) (s : State), w.toNat < 2 ^ 31 → w'.toNat < 2 ^ 31 →
    w.toNat / 2 ^ 28 % 4 = w'.toNat / 2 ^ 28 % 4 → exec (decodePacket m w) s = exec (decodePacket m w') s

/-- R129: for every valid word the scaled VALUE is a multiple of 17857 that determines COUNT, and re-encoding validity
and count gives back bit 31 and bits 27:0 of the word. -/
def Obligations.ScaledEntryDeterminesCount : Prop :=
  ∀ w : Word, 2 ^ 31 ≤ w.toNat →
    entryValue (decodeScaled w) % 17857 = 0 ∧
    entryValue (decodeScaled w) / 17857 = (w.toNat % 2 ^ 28 : Nat) ∧
    0x80000000#32 ||| BitVec.ofInt 32 (entryValue (decodeScaled w) / 17857) = w &&& 0x8FFFFFFF#32

/-- R131, R188: the range of VALUE in each mode, for every word, pixel and table. -/
def Obligations.EntryValueRange : Prop :=
  (∀ w : Word, entryValue (decodeScaled w) = -1000 ∨
    ∃ c : Nat, c ≤ 268435455 ∧ entryValue (decodeScaled w) = 17857 * c ∧ entryValue (decodeScaled w) ≤ 4793451919935) ∧
  ∀ (s : State) (p : Nat) (w : Word),
    -2147483648 ≤ entryValue (correct s p w) ∧ entryValue (correct s p w) ≤ 4795599135727

/-- R190 word by word: validity and address field of a word's entry are the packet's, and so the same in both modes,
and the entry of an invalid word is the same in both. -/
def Obligations.CalibrationKeepsValidity : Prop :=
  ∀ (s : State) (p : Nat) (w : Word),
    entryValid (decodeScaled w) = packetValid w ∧ entryValid (correct s p w) = packetValid w ∧
    entryAddr (decodeScaled w) = packetAddr w ∧ entryAddr (correct s p w) = packetAddr w ∧
    (packetValid w = false → correct s p w = decodeScaled w)

/-- R191: the coarse part counts whole clock periods of 2499980 fs, and where the table entry is zero the calibrated
VALUE of a valid word is the scaled one less (COUNT mod 140) · 17857. -/
def Obligations.CoarseCountsWholePeriods : Prop :=
  ∀ (s : State) (p : Nat) (w : Word), 2 ^ 31 ≤ w.toNat →
    entryValue (correct s p w) =
      (w.toNat % 2 ^ 28 / 140 : Nat) * 2499980 + (calEntry s (p * 140 + w.toNat % 2 ^ 28 % 140)).toInt ∧
    (calEntry s (p * 140 + w.toNat % 2 ^ 28 % 140) = 0 →
      entryValue (correct s p w) = entryValue (decodeScaled w) - (w.toNat % 2 ^ 28 % 140 : Nat) * 17857)

/-- R189, R96: a corrected VALUE may be negative and may equal −1000 fs, and the entry is then a valid timestamp that
differs from every sentinel entry, and from its own packet's sentinel entry in the V bit alone. -/
def Obligations.CorrectedMinusOneIsNotSentinel : Prop :=
  ∀ (s : State) (p : Nat) (w : Word), 2 ^ 31 ≤ w.toNat →
    entryValid (correct s p w) = true ∧
    ((w.toNat % 2 ^ 28 / 140 : Nat) * 2499980 + (calEntry s (p * 140 + w.toNat % 2 ^ 28 % 140)).toInt < 0 →
      entryValue (correct s p w) < 0 ∧ entryTime (correct s p w) = some (entryValue (correct s p w))) ∧
    ((w.toNat % 2 ^ 28 / 140 : Nat) * 2499980 + (calEntry s (p * 140 + w.toNat % 2 ^ 28 % 140)).toInt = -1000 →
      entryValue (correct s p w) = -1000 ∧ entryTime (correct s p w) = some (-1000) ∧
      (∀ a, correct s p w ≠ sentinelEntry a) ∧
      correct s p w ^^^ sentinelEntry (packetAddr w) = 0x8000000000000000#64)

/-- R73: the entries of two words are written to the same final output memory in either order. -/
def Obligations.WordOrderDoesNotMatter : Prop :=
  ∀ (s : State) (j k : Nat) (e f : Entry), s.outMem.wf → 1 ≤ s.tReg.toNat →
    s.rowLen.toNat = s.byteLen.toNat / 4 / 256 → s.byteLen.toNat / 4 % (s.tReg.toNat * 256) = 0 →
    j < s.byteLen.toNat / 4 → k < s.byteLen.toNat / 4 → j ≠ k →
    outWrite (outWrite s (wordIndex s j) e) (wordIndex s k) f =
      outWrite (outWrite s (wordIndex s k) f) (wordIndex s j) e

/-! ## The reshaper -/

/-- R154, R153: the word at flat offset (i + 256 k) T + s goes to row i, column k T + s. -/
def Obligations.SourceOrderPlacesWord : Prop :=
  ∀ (t rowLen i k u : Nat), u < t → i < 256 →
    pixelOf t ((i + 256 * k) * t + u) = i ∧ columnOf t ((i + 256 * k) * t + u) = k * t + u ∧
    outIndexOf t rowLen ((i + 256 * k) * t + u) = i * rowLen + (k * t + u)

/-- R155, R69: AddrCalc maps 0 .. N−1 one to one onto the cells of the matrix, with Flatten its inverse, and the output
index is a bijection of 0 .. N−1 onto itself. -/
def Obligations.AddrCalcIsBijection : Prop :=
  ∀ (t c : Nat), 1 ≤ t →
    (∀ n, n < 256 * t * c →
      pixelOf t n < 256 ∧ columnOf t n < t * c ∧ flatten t (pixelOf t n) (columnOf t n) = n) ∧
    (∀ i j, i < 256 → j < t * c →
      flatten t i j < 256 * t * c ∧ pixelOf t (flatten t i j) = i ∧ columnOf t (flatten t i j) = j) ∧
    (∀ n, n < 256 * t * c → outIndexOf t (t * c) n < 256 * t * c) ∧
    (∀ n m, n < 256 * t * c → m < 256 * t * c → outIndexOf t (t * c) n = outIndexOf t (t * c) m → n = m) ∧
    (∀ x, x < 256 * t * c → ∃ n, n < 256 * t * c ∧ outIndexOf t (t * c) n = x)

/-- R68, R95: where the output memory is byte-addressed, entry `x` occupies the bytes 8x .. 8x + 7, the first holding its
bits 7:0; and an entry is its three fields put together. -/
def Obligations.OutputEntryLayout : Prop :=
  (∀ (s : State) (x : Nat), (outEntry s x).toNat =
    (outByte s (8 * x)).toNat + 2 ^ 8 * (outByte s (8 * x + 1)).toNat + 2 ^ 16 * (outByte s (8 * x + 2)).toNat +
      2 ^ 24 * (outByte s (8 * x + 3)).toNat + 2 ^ 32 * (outByte s (8 * x + 4)).toNat +
      2 ^ 40 * (outByte s (8 * x + 5)).toNat + 2 ^ 48 * (outByte s (8 * x + 6)).toNat +
      2 ^ 56 * (outByte s (8 * x + 7)).toNat) ∧
  ∀ e : Entry, (e.toNat : Int) =
    (entryValid e).toNat * 2 ^ 63 + (entryAddr e).toNat * 2 ^ 61 + entryValue e % 2 ^ 61

/-! ## Commands -/

/-- R212: NOP changes nothing. -/
def Obligations.NopChangesNothing : Prop :=
  ∀ (g : BitVec 28) (s : State), s.phase = .idle → exec (.nop g) s = .next s

/-- R213, R214, R215, R152: UNPACK and UNPACK_CAL start when every check passes: the completion status and the counters
are cleared, CYCLES and ROW_LEN hold the geometry, the word index is 0, and nothing else changes (WWB, the
configuration, the table and both memories among it). The interrupt output falls with DONE (R211). -/
def Obligations.CommandStarts : Prop :=
  ∀ (m : Mode) (g : BitVec 28) (s : State), StartsIn m s → ∃ t,
    exec (startInstr m g) s = .next t ∧
    t.phase = .busy ∧ t.mode = m ∧ t.n = 0 ∧ t.done = false ∧ irq t = false ∧ t.err = false ∧ t.errCode = 0 ∧
    t.addrNz = false ∧ t.wordCnt = 0 ∧ t.validCnt = 0 ∧
    t.cycles.toNat = s.byteLen.toNat / 4 / (s.tReg.toNat * 256) ∧
    t.rowLen.toNat = s.byteLen.toNat / 4 / 256 ∧ t.rowLen.toNat = s.tReg.toNat * t.cycles.toNat ∧
    t = { s with
          phase := t.phase, mode := t.mode, n := t.n, done := t.done, err := t.err, errCode := t.errCode,
          addrNz := t.addrNz, wordCnt := t.wordCnt, validCnt := t.validCnt, cycles := t.cycles,
          rowLen := t.rowLen, outOld := t.outOld, inputDirty := t.inputDirty, contested := t.contested,
          seenWord := t.seenWord, seenValid := t.seenValid }

/-- R120, R253, R254: a length that is no multiple of 4 fails UNPACK and UNPACK_CAL with FormatError, whatever T and
LOADED are. -/
def Obligations.FormatErrorReported : Prop :=
  ∀ (m : Mode) (g : BitVec 28) (s : State), s.phase = .idle → s.byteLen.toNat % 4 ≠ 0 →
    ∃ t, exec (startInstr m g) s = .next t ∧ startFailsWith 1 s t

/-- R151, R253, R254: with the length a multiple of 4, T = 0 or a word count that is no multiple of T · 256 fails UNPACK
and UNPACK_CAL with GeometryError, whatever LOADED is. -/
def Obligations.GeometryErrorReported : Prop :=
  ∀ (m : Mode) (g : BitVec 28) (s : State), s.phase = .idle → s.byteLen.toNat % 4 = 0 →
    (s.tReg.toNat = 0 ∨ s.byteLen.toNat / 4 % (s.tReg.toNat * 256) ≠ 0) →
    ∃ t, exec (startInstr m g) s = .next t ∧ startFailsWith 2 s t

/-- R180, R253, R254: with length and geometry valid and no table, UNPACK_CAL fails with CalibrationUnavailable, and
UNPACK, which does not make the check, starts. -/
def Obligations.MissingTableReported : Prop :=
  ∀ (g : BitVec 28) (s : State), StartsIn .scaled s → s.loaded = false →
    (∃ t, exec (.unpackCal g) s = .next t ∧ startFailsWith 3 s t) ∧
    ∃ t, exec (.unpack g) s = .next t ∧ t.phase = .busy ∧ t.err = false

/-- R218, R101: every reserved command fails with IllegalCommand and changes nothing but DONE, ERR and ERRCODE, with the
interrupt output following IE (R262). -/
def Obligations.ReservedCommandIsIllegal : Prop :=
  ∀ (i : Instr) (s : State), isReservedCommand i = true → s.phase = .idle → ∃ t,
    exec i s = .next t ∧ t.done = true ∧ irq t = s.ie ∧ t.err = true ∧ t.errCode = 4 ∧
    t = { s with done := t.done, err := t.err, errCode := t.errCode }

/-- R219: every command written while BUSY is ignored but for STATUS.WWB. -/
def Obligations.CommandWhileBusyIgnored : Prop :=
  ∀ (i : Instr) (s : State), isCommand i = true → s.phase = .busy → exec i s = .next { s with wwb := true }

/-! ## Host transactions -/

/-- R220 with R24 to R40: what a read returns, register by register, in every state but for the two progress counters
while BUSY; it changes nothing but the host's variable. -/
def Obligations.ReadReturnsRegister : Prop :=
  ∀ (offset : BitVec 8) (data : Word) (s : State),
    (s.phase = .idle ∨ (offset.toNat / 4 ≠ 9 ∧ offset.toNat / 4 ≠ 10)) → ∃ t,
    exec (.hostRd offset data) s = .next t ∧ t = { s with hostR := t.hostR } ∧
    (offset.toNat / 4 = 0 → t.hostR = 0x54430100) ∧
    (offset.toNat / 4 = 1 → t.hostR = 0) ∧
    (offset.toNat / 4 = 2 →
      t.hostR.toNat = (if s.phase = .busy then 1 else 0) + 2 * s.done.toNat + 4 * s.err.toNat +
        16 * s.errCode.toNat + 256 * s.addrNz.toNat + 512 * s.wwb.toNat) ∧
    (offset.toNat / 4 = 3 → t.hostR.toNat = s.ie.toNat) ∧
    (offset.toNat / 4 = 4 → t.hostR = s.tReg) ∧
    (offset.toNat / 4 = 5 → t.hostR = s.byteLen) ∧
    (offset.toNat / 4 = 6 → t.hostR.toNat = s.loaded.toNat) ∧
    (offset.toNat / 4 = 7 → t.hostR.toNat = s.calIdx.toNat) ∧
    (offset.toNat / 4 = 8 → s.calIdx.toNat ≤ 35839 → t.hostR = calEntry s s.calIdx.toNat) ∧
    (offset.toNat / 4 = 8 → 35840 ≤ s.calIdx.toNat → t.hostR = 0) ∧
    (offset.toNat / 4 = 9 → t.hostR = s.wordCnt) ∧
    (offset.toNat / 4 = 10 → t.hostR = s.validCnt) ∧
    (offset.toNat / 4 = 11 → t.hostR = s.cycles) ∧
    (offset.toNat / 4 = 12 → t.hostR = s.rowLen) ∧
    (offset.toNat / 4 = 13 → t.hostR = 0x0100008C) ∧
    (offset.toNat / 4 = 14 → t.hostR = 0x000045C1) ∧
    (15 ≤ offset.toNat / 4 → t.hostR = 0)

/-- R46, U8: a read of WORD_CNT or VALID_CNT while BUSY returns at most N and no less than the read of the same register
before it in the same command, and changes nothing of the block; with LANES = 1 it is exact. With LANES above 1 the value is
the model's free choice (assumption 11, DEDUCED). -/
def Obligations.BusyProgressReadIsBounded : Prop :=
  ∀ (offset : BitVec 8) (data : Word) (s : State), Inv s → s.phase = .busy →
    (offset.toNat / 4 = 9 → ∃ t, exec (.hostRd offset data) s = .next t ∧
      s.seenWord.toNat ≤ t.hostR.toNat ∧ t.hostR.toNat ≤ s.byteLen.toNat / 4 ∧ t.seenWord = t.hostR ∧
      (Config.lanes = 1 → t.hostR = s.wordCnt) ∧
      t = { s with hostR := t.hostR, seenWord := t.seenWord, draws := t.draws }) ∧
    (offset.toNat / 4 = 10 → ∃ t, exec (.hostRd offset data) s = .next t ∧
      s.seenValid.toNat ≤ t.hostR.toNat ∧ t.hostR.toNat ≤ s.byteLen.toNat / 4 ∧ t.seenValid = t.hostR ∧
      (Config.lanes = 1 → t.hostR = s.validCnt) ∧
      t = { s with hostR := t.hostR, seenValid := t.seenValid, draws := t.draws })

/-- R40: offset bits 1:0 are ignored by reads and writes. -/
def Obligations.OffsetLowBitsIgnored : Prop :=
  ∀ (offset offset' : BitVec 8) (d : Word) (s : State), offset.toNat / 4 = offset'.toNat / 4 →
    exec (.hostRd offset d) s = exec (.hostRd offset' d) s ∧
    exec (.hostWr offset d) s = exec (.hostWr offset' d) s

/-- R26, R221, R257: a write to STATUS clears DONE, ERR with ERRCODE, ADDR_NZ and WWB where its bits 1, 2, 8 and 9 are
1, in both phases, and changes nothing else; the interrupt output (R262, R259) stays as it was, or falls with DONE. -/
def Obligations.StatusWriteClearsByOnes : Prop :=
  ∀ (offset : BitVec 8) (d : Word) (s : State), offset.toNat / 4 = 2 → ∃ t,
    exec (.hostWr offset d) s = .next t ∧
    t = { s with done := t.done, err := t.err, errCode := t.errCode, addrNz := t.addrNz, wwb := t.wwb } ∧
    (t.done = true ↔ s.done = true ∧ d.toNat / 2 % 2 = 0) ∧
    (irq t = true ↔ s.ie = true ∧ s.done = true ∧ d.toNat / 2 % 2 = 0) ∧
    (t.err = true ↔ s.err = true ∧ d.toNat / 4 % 2 = 0) ∧
    (d.toNat / 4 % 2 = 1 → t.errCode = 0) ∧ (d.toNat / 4 % 2 = 0 → t.errCode = s.errCode) ∧
    (t.addrNz = true ↔ s.addrNz = true ∧ d.toNat / 256 % 2 = 0) ∧
    (t.wwb = true ↔ s.wwb = true ∧ d.toNat / 512 % 2 = 0)

/-- R221, R27 to R32: a write to IRQ_EN in either phase, and one to T_REG, BYTE_LEN, CAL_CTRL or CAL_IDX while IDLE,
stores the register's field and changes nothing else; IRQ_EN gates the interrupt output by DONE (R262). -/
def Obligations.ConfigurationWriteStores : Prop :=
  ∀ (offset : BitVec 8) (d : Word) (s : State),
    (offset.toNat / 4 = 3 →
      exec (.hostWr offset d) s = .next { s with ie := decide (d.toNat % 2 = 1) } ∧
      (irq { s with ie := decide (d.toNat % 2 = 1) } = true ↔ d.toNat % 2 = 1 ∧ s.done = true)) ∧
    (s.phase = .idle →
      (offset.toNat / 4 = 4 → exec (.hostWr offset d) s = .next { s with tReg := d }) ∧
      (offset.toNat / 4 = 5 → exec (.hostWr offset d) s = .next { s with byteLen := d }) ∧
      (offset.toNat / 4 = 6 →
        exec (.hostWr offset d) s = .next { s with loaded := decide (d.toNat % 2 = 1) }) ∧
      (offset.toNat / 4 = 7 →
        exec (.hostWr offset d) s = .next { s with calIdx := BitVec.ofNat 16 (d.toNat % 65536) }))

/-- R30: a write to CAL_DATA while IDLE stores the entry at IDX and advances IDX when IDX is legal, and is discarded
otherwise; no other entry and nothing else of the machine changes. -/
def Obligations.CalDataWriteStoresAndAdvances : Prop :=
  ∀ (offset : BitVec 8) (d : Word) (s : State), offset.toNat / 4 = 8 → s.phase = .idle →
    (s.calIdx.toNat ≤ 35839 → ∃ t, exec (.hostWr offset d) s = .next t ∧
      calEntry t s.calIdx.toNat = d ∧ t.calIdx.toNat = s.calIdx.toNat + 1 ∧
      (∀ x, x ≠ s.calIdx.toNat → calEntry t x = calEntry s x) ∧
      t = { s with calTable := t.calTable, calIdx := t.calIdx }) ∧
    (35840 ≤ s.calIdx.toNat → exec (.hostWr offset d) s = .next s)

/-- R41: while BUSY a write to CMD, T_REG, BYTE_LEN, CAL_CTRL, CAL_IDX or CAL_DATA does nothing but set STATUS.WWB. -/
def Obligations.LockedWriteSetsWwb : Prop :=
  ∀ (offset : BitVec 8) (d : Word) (s : State), s.phase = .busy →
    (offset.toNat / 4 = 1 ∨ (4 ≤ offset.toNat / 4 ∧ offset.toNat / 4 ≤ 8)) →
    exec (.hostWr offset d) s = .next { s with wwb := true }

/-- R221, R39, R24, R33 to R38: a write to a read-only register or a reserved offset changes nothing, in either phase,
and does not set WWB. -/
def Obligations.ReadOnlyWriteIgnored : Prop :=
  ∀ (offset : BitVec 8) (d : Word) (s : State), (offset.toNat / 4 = 0 ∨ 9 ≤ offset.toNat / 4) →
    exec (.hostWr offset d) s = .next s

/-- R210: a write to CMD is the command its data names. -/
def Obligations.CmdWriteIssuesCommand : Prop :=
  ∀ (offset : BitVec 8) (d : Word) (s : State), offset.toNat / 4 = 1 →
    exec (.hostWr offset d) s = exec (decodeCommand d) s

/-! ## Whole-machine rules -/

/-- R70, R60, R41: the block writes no byte of the input buffer; the output memory changes only by a packet; the
calibration table only by a write to CAL_DATA while IDLE; and no instruction moves the host or its turns. -/
def Obligations.MemoriesChangeOnlyByTheirWriters : Prop :=
  ∀ (i : Instr) (s t : State), exec i s = .next t →
    t.inBuf = s.inBuf ∧ t.hostProg = s.hostProg ∧ t.hostPc = s.hostPc ∧ t.turns = s.turns ∧
    t.hostEntry = s.hostEntry ∧
    (t.outMem ≠ s.outMem → isPacket i = true) ∧
    (t.calTable ≠ s.calTable → s.phase = .idle ∧ ∃ offset d, i = .hostWr offset d ∧ offset.toNat / 4 = 8) ∧
    (t.hostR ≠ s.hostR → ∃ offset d, i = .hostRd offset d)

/-- R258, R251: a step sets DONE only by ending a command: by the sequencer's completion of a command whose words are all
processed, or by a host write to CMD that fails at its start and leaves the machine IDLE; and a step sets ERR only in
the second way. -/
def Obligations.DoneSetOnlyByCommandEnd : Prop :=
  ∀ s t : State, step s = .next t →
    (s.done = false → t.done = true → t.phase = .idle ∧
      ((SequencerTurn s ∧ s.phase = .busy ∧ s.n.toNat = s.byteLen.toNat / 4 ∧ t.err = s.err) ∨
        (HostTurn s ∧ WritesCmd s ∧ s.phase = .idle ∧ t.err = true))) ∧
    (s.err = false → t.err = true →
      HostTurn s ∧ WritesCmd s ∧ s.phase = .idle ∧ t.phase = .idle ∧ t.done = true)

/-- R41, R67, R77, R217: from one step of a command to the next the configuration, the table, the mode and the geometry
stay as they are, the word index moves by at most one, and BUSY is left only by completion or by a reset. -/
def Obligations.ConfigurationFrozenWhileBusy : Prop :=
  ∀ s t : State, step s = .next t → s.phase = .busy →
    (t.phase = .busy →
      t.tReg = s.tReg ∧ t.byteLen = s.byteLen ∧ t.loaded = s.loaded ∧ t.calIdx = s.calIdx ∧
      t.calTable = s.calTable ∧ t.powerOns = s.powerOns ∧ t.mode = s.mode ∧ t.cycles = s.cycles ∧
      t.rowLen = s.rowLen ∧ (t.n = s.n ∨ t.n = s.n + 1)) ∧
    (t.phase = .idle →
      (SequencerTurn s ∧ s.n.toNat = s.byteLen.toNat / 4) ∨
      (HostTurn s ∧ (s.hostProg[s.hostPc]? = some .reset ∨ s.hostProg[s.hostPc]? = some .powerCycle)))

/-! ## Reset and the unspecified cases -/

/-- R47, R23: what the machine holds right after reset, and what the host then reads. -/
def Obligations.ResetStateValues : Prop :=
  State.reset.phase = .idle ∧ State.reset.mode = .scaled ∧ State.reset.n = 0 ∧
  State.reset.ie = false ∧ State.reset.tReg = 0 ∧ State.reset.byteLen = 0 ∧ State.reset.loaded = false ∧
  State.reset.calIdx = 0 ∧ State.reset.wordCnt = 0 ∧ State.reset.validCnt = 0 ∧ State.reset.cycles = 0 ∧
  State.reset.rowLen = 0 ∧ statusWord State.reset = 0 ∧ irq State.reset = false ∧
  regValue State.reset .id = 0x54430100 ∧ regValue State.reset .cmd = 0 ∧
  regValue State.reset .param0 = 0x0100008C ∧ regValue State.reset .param1 = 0x000045C1 ∧
  regValue State.reset .reserved = 0 ∧
  (∀ x, calEntry State.reset x = Config.calPowerOn 0 x)

/-- R290, R291, R47: the reset input puts the block at its reset values in one step and leaves the calibration table,
the input buffer and the host as they are; while IDLE it leaves the output memory too. -/
def Obligations.ResetInputRestoresBlock : Prop :=
  ∀ s : State, HostTurn s → s.hostProg[s.hostPc]? = some .reset → ∃ t, step s = .next t ∧
    t = { State.reset with
          calTable := s.calTable, powerOns := s.powerOns, inBuf := s.inBuf, outMem := t.outMem,
          hostProg := s.hostProg, hostPc := s.hostPc + 1, hostR := s.hostR, hostEntry := s.hostEntry,
          turns := s.turns.tail, draws := t.draws } ∧
    irq t = false ∧ (s.phase = .idle → t.outMem = s.outMem)

/-- R292, U4: a reset while BUSY abandons the command: no DONE, no error, the counters 0. It leaves the entry of each
word of the abandoned command either as the command found it or as the command computes it, and every entry outside 0 ..
N−1 as it is. What the host stored to an entry during the command counts as what the command found there, the model's
reading (assumption 12, DEDUCED). After a change of the input buffer, what the command computes for a word still to be
read is the decode of the free word drawn at the reset, the model's choice (assumption 29, DESIGN CHOICE). -/
def Obligations.ResetWhileBusyMixesEntries : Prop :=
  ∀ s : State, Inv s → HostTurn s → s.phase = .busy → s.hostProg[s.hostPc]? = some .reset →
    ∃ t, step s = .next t ∧ t.phase = .idle ∧ t.done = false ∧ t.err = false ∧ t.errCode = 0 ∧
    t.wordCnt = 0 ∧ t.validCnt = 0 ∧ t.cycles = 0 ∧ t.rowLen = 0 ∧
    (∀ k, k < s.byteLen.toNat / 4 →
      outEntry t (wordIndex s k) = oldEntry s (wordIndex s k) ∨
      outEntry t (wordIndex s k) =
        (if k < s.n.toNat then outEntry s (wordIndex s k) else entryOf s (wordPixel s k) (streamWord s k))) ∧
    ∀ x, s.byteLen.toNat / 4 ≤ x → outEntry t x = outEntry s x

/-- R46, R74, U2: what the host reads of the output memory: while IDLE, and outside the N entries of a command, exactly
its contents; while BUSY the entry of a word either as the command found it or as the command computes it. The read
changes nothing of the block. The choice at each read is the model's (assumption 9, DEDUCED), and so is that an entry's old
contents are the host's once the host has stored to it (assumption 12, DEDUCED), and the free word that stands for a
word still to be read after a change of the input buffer (assumption 29, DESIGN CHOICE). -/
def Obligations.OutputReadIsExactOnceIdle : Prop :=
  ∀ (s : State) (x : BitVec 30), HostTurn s → s.hostProg[s.hostPc]? = some (.loadOutput x) →
    ∃ t, step s = .next t ∧ t = { atStatement s with hostEntry := t.hostEntry, draws := t.draws } ∧
    (s.phase = .idle ∨ s.byteLen.toNat / 4 ≤ x.toNat → t.hostEntry = outEntry s x.toNat) ∧
    (Inv s → s.phase = .busy → ∀ k, k < s.byteLen.toNat / 4 → x.toNat = wordIndex s k →
      t.hostEntry = oldEntry s x.toNat ∨
      t.hostEntry =
        (if k < s.n.toNat then outEntry s x.toNat else entryOf s (wordPixel s k) (streamWord s k)))

/-- R16, R65, R217, U3: the host's stores into the two memories, in both phases. A store to a byte of the stream of a
command in progress makes every word still to be read arbitrary, and any other store does not; the store changes the one
byte and nothing else of the block. That every such store counts as a change is the model's choice (assumption 8,
DEDUCED). A store to an output entry writes that entry and no other, in both phases, and the command goes on. To an entry of
the command in progress it is also the entry's old contents from then on, and the entry counts as the host's exactly if
its word has been processed: the model's reading (assumption 12, DEDUCED). -/
def Obligations.HostStoreDuringCommand : Prop :=
  ∀ s : State, HostTurn s →
    (∀ (a : BitVec 32) (b : Byte), s.hostProg[s.hostPc]? = some (.storeInput a b) →
      ∃ t, step s = .next t ∧ t = { atStatement s with inBuf := t.inBuf, inputDirty := t.inputDirty } ∧
      inByte t a.toNat = b ∧ (∀ c, c ≠ a.toNat → inByte t c = inByte s c) ∧
      (t.inputDirty = true ↔ s.inputDirty = true ∨ (s.phase = .busy ∧ a.toNat < s.byteLen.toNat)) ∧
      (t.inputDirty = true → ∀ n, streamWord t n = Config.freeWord t.draws n) ∧
      (t.inputDirty = false → ∀ n, streamWord t n = inRead t (4 * n))) ∧
    (∀ (x : BitVec 30) (e : Entry), s.hostProg[s.hostPc]? = some (.storeOutput x e) →
      ∃ t, step s = .next t ∧
      (s.phase = .idle ∨ s.byteLen.toNat / 4 ≤ x.toNat →
        t = { atStatement s with outMem := t.outMem } ∧ outEntry t x.toNat = e ∧
        ∀ y, y ≠ x.toNat → outEntry t y = outEntry s y) ∧
      (s.phase = .busy → x.toNat < s.byteLen.toNat / 4 →
        t = { atStatement s with outMem := t.outMem, outOld := t.outOld, contested := t.contested } ∧
        outEntry t x.toNat = e ∧ (∀ y, y ≠ x.toNat → outEntry t y = outEntry s y) ∧
        oldEntry t x.toNat = e ∧ (∀ y, y ≠ x.toNat → oldEntry t y = oldEntry s y) ∧
        ∀ y, y ∈ t.contested ↔ y ∈ s.contested ∨ (y = x.toNat ∧ sourceWord s x.toNat < s.n.toNat)))

/-- R43, R291, U5: after a power cycle every calibration entry is the arbitrary value of that power-on, and LOADED is 0. The
power cycle as a step is the model's choice (assumption 26, DESIGN CHOICE). -/
def Obligations.PowerCycleForgetsTable : Prop :=
  ∀ s : State, HostTurn s → s.hostProg[s.hostPc]? = some .powerCycle → ∃ t, step s = .next t ∧
    t.loaded = false ∧ t.phase = .idle ∧ t.powerOns = s.powerOns + 1 ∧
    ∀ x, calEntry t x = Config.calPowerOn (s.powerOns + 1) x

/-- R293: after reset, from any state as after power-on, the block is IDLE with IE, T_REG and BYTE_LEN 0, and an UNPACK or
UNPACK_CAL issued then fails with GeometryError: STATUS reads 0x26. -/
def Obligations.FirstCommandAfterResetFails : Prop :=
  ∀ (m : Mode) (g : BitVec 28) (t : State),
    (t = State.reset ∨ ∃ s, HostTurn s ∧ s.hostProg[s.hostPc]? = some .reset ∧ step s = .next t) →
    t.phase = .idle ∧ t.ie = false ∧ t.tReg = 0 ∧ t.byteLen = 0 ∧
    ∃ u, exec (startInstr m g) t = .next u ∧ u.phase = .idle ∧ statusWord u = 0x26

/-! ## Invariants and the result of a command -/

/-- The invariant of Safety.lean (R21, R22, R26, R33, R34, R46, R60, R152, R160) is kept by every step of either agent. -/
def Obligations.InvariantKeptByEveryStep : Prop :=
  ∀ s t : State, Inv s → step s = .next t → Inv t

/-- The invariant holds right after reset. -/
def Obligations.InvariantHoldsAtReset : Prop := Inv State.reset

/-- R26: in every state of the invariant, what the host reads in STATUS: BUSY excludes DONE and ERR, ERR is 0 exactly
when ERRCODE is 0, no ERRCODE above 4, and the reserved bits read 0. -/
def Obligations.StatusReadsConsistent : Prop :=
  ∀ s : State, Inv s →
    ((statusWord s).getLsbD 0 = true → (statusWord s).getLsbD 1 = false ∧ (statusWord s).getLsbD 2 = false) ∧
    ((statusWord s).getLsbD 2 = false ↔ (statusWord s).toNat / 16 % 16 = 0) ∧
    (statusWord s).toNat / 16 % 16 ≤ 4 ∧ (statusWord s).getLsbD 3 = false ∧ (statusWord s).toNat < 1024

/-- R213, R214, R216, R106, R223, R159, whatever the host did meanwhile but change the input buffer: when a command of
the invariant has processed every word, its completion leaves the whole matrix in the output memory, each cell the entry
of its word, with the counters exact. The result of the call is then that matrix, 256 rows of ROW_LEN columns, and no
cell beyond them. A cell that the host stored to after its word's OutWrite holds what the host stored, and one that it
stored to before holds the word's entry (R73, R74): the model's reading (assumption 12, DEDUCED). -/
def Obligations.CompletionDeliversMatrix : Prop :=
  ∀ s : State, Inv s → SequencerTurn s → s.phase = .busy → s.inputDirty = false →
    s.n.toNat = s.byteLen.toNat / 4 → ∃ t, step s = .next t ∧ t.phase = .idle ∧ t.done = true ∧ t.err = false ∧
    t.wordCnt.toNat = s.byteLen.toNat / 4 ∧ t.validCnt.toNat = validBelow s (s.byteLen.toNat / 4) ∧
    t.rowLen.toNat = t.tReg.toNat * t.cycles.toNat ∧
    (∃ rows, callResult t = some (.matrix t.cycles t.rowLen rows) ∧ rows.length = 256 ∧
      ∀ row, row ∈ rows → row.length = t.rowLen.toNat) ∧
    (∀ i j, i < 256 → j < t.rowLen.toNat →
      matrixCell t i j = some (entryTime (outEntry t (i * t.rowLen.toNat + j)))) ∧
    (∀ i j, 256 ≤ i ∨ t.rowLen.toNat ≤ j → matrixCell t i j = none) ∧
    ∀ k i j, k < t.cycles.toNat → i < 256 → j < t.tReg.toNat →
      outEntry t (i * t.rowLen.toNat + (k * t.tReg.toNat + j)) =
        (if i * t.rowLen.toNat + (k * t.tReg.toNat + j) ∈ s.contested then
          oldEntry s (i * t.rowLen.toNat + (k * t.tReg.toNat + j))
        else entryOf s i (inRead s (4 * ((i + 256 * k) * t.tReg.toNat + j))))

/-- R213, R214, R216, R106, R223, R69, R304: the whole of an UNPACK or UNPACK_CAL that the host leaves alone. From any
state in which it starts, with no turn given to the host (assumption 1, DESIGN CHOICE), the start and N + 1 further
steps reach a completed state: every word's entry stands at its output index and its time in its cell of the call's
result, every entry from N on is as before, the counters are the numbers of words and of valid words, ADDR_NZ says
whether some packet had a non-zero address field, and the configuration, the table and the input buffer are unchanged.
-/
def Obligations.CommandProducesMatrix : Prop :=
  ∀ (m : Mode) (g : BitVec 28) (s : State), StartsIn m s → s.turns = [] → ∃ started t,
    exec (startInstr m g) s = .next started ∧
    Host.Core.run Sys2Proof.core (s.byteLen.toNat / 4 + 1) started = .next t ∧
    t.phase = .idle ∧ t.done = true ∧ t.err = false ∧ t.errCode = 0 ∧
    t.wordCnt.toNat = s.byteLen.toNat / 4 ∧
    t.validCnt.toNat = validBelow s (s.byteLen.toNat / 4) ∧
    (t.addrNz = true ↔ ∃ k, k < s.byteLen.toNat / 4 ∧ packetAddr (inRead s (4 * k)) ≠ 0) ∧
    t.cycles.toNat = s.byteLen.toNat / 4 / (s.tReg.toNat * 256) ∧
    t.rowLen.toNat = s.byteLen.toNat / 4 / 256 ∧
    (∀ k, k < s.byteLen.toNat / 4 →
      outEntry t (outIndexOf s.tReg.toNat (s.byteLen.toNat / 4 / 256) k) =
        (match m with
         | .scaled => decodeScaled (inRead s (4 * k))
         | .cal => correct s (pixelOf s.tReg.toNat k) (inRead s (4 * k)))) ∧
    (∀ k, k < s.byteLen.toNat / 4 →
      matrixCell t (pixelOf s.tReg.toNat k) (columnOf s.tReg.toNat k) =
        some (entryTime (outEntry t (outIndexOf s.tReg.toNat (s.byteLen.toNat / 4 / 256) k)))) ∧
    (∀ x, s.byteLen.toNat / 4 ≤ x → outEntry t x = outEntry s x) ∧
    t.inBuf = s.inBuf ∧ t.calTable = s.calTable ∧ t.tReg = s.tReg ∧ t.byteLen = s.byteLen ∧
    t.loaded = s.loaded ∧ t.calIdx = s.calIdx ∧ t.ie = s.ie ∧ t.wwb = s.wwb
end

