-- ==== Sys2Proof/Machine/Program.lean ====
section
/-! DEFINITION. Host programs as R105 of 30_encoding.md writes them: lines with labels, the set-up lines `inbuf` that are
done before the program runs, and loading a program into the host. -/

namespace Sys2Proof.Machine

/-- The name of a label, as a number (assumption 28, DEDUCED). -/
abbrev Label := Nat

/-- The four forms of a line (R105). -/
inductive LineStmt where
  | wr (reg : Reg) (imm : Word)
  | rd (reg : Reg)
  | bit0 (k : BitVec 5) (label : Label)
  | inbuf (a : BitVec 32) (bytes : List Byte)
deriving DecidableEq, Repr

/-- A line: an optional label and one statement (R105). -/
structure Line where
  label : Option Label
  stmt : LineStmt
deriving DecidableEq, Repr

/-- A set-up line, done before the program runs and no statement of it (R105). -/
def isSetUp : LineStmt → Bool
  | .inbuf _ _ => true
  | .wr _ _ => false
  | .rd _ => false
  | .bit0 _ _ => false

/-- The statement that a label stands at: that of the first line with it, or, for a set-up line, the next statement. -/
def labelIndex : List Line → Label → Option Nat
  | [], _ => none
  | line :: lines, name =>
      if line.label = some name then some 0
      else (labelIndex lines name).map fun k => if isSetUp line.stmt then k else k + 1

/-- The statements of one line, `program` giving the labels; none where its label is no line's. -/
def assembleLine (program : List Line) : LineStmt → Option (List HostStmt)
  | .wr reg imm => some [wr reg imm]
  | .rd reg => some [rd reg]
  | .bit0 k name => (labelIndex program name).map fun target => [.branchIfClear k target]
  | .inbuf _ _ => some []

/-- The statements of some lines of a program. -/
def assembleLines (program : List Line) : List Line → Option (List HostStmt)
  | [] => some []
  | line :: lines =>
      (assembleLine program line.stmt).bind fun stmts =>
        (assembleLines program lines).map fun rest => stmts ++ rest

/-- The statements of a whole program, the set-up lines left out. -/
def assemble (program : List Line) : Option (List HostStmt) := assembleLines program program

/-- A host store of bytes into the input buffer from offset `a` on. -/
def storeBytes : (a : BitVec 32) → List Byte → State → State
  | _, [], s => s
  | a, b :: bs, s => storeBytes (a + 1) bs (storeInput a.toNat b s)

/-- What one line does before the program runs (R105). -/
def setUpLine (stmt : LineStmt) (s : State) : State :=
  match stmt with
  | .inbuf a bytes => storeBytes a bytes s
  | .wr _ _ => s
  | .rd _ => s
  | .bit0 _ _ => s

/-- What the set-up lines of a program do, in their order, before it runs (R105). -/
def setUp : List Line → State → State
  | [], s => s
  | line :: lines, s => setUp lines (setUpLine line.stmt s)

/-- The host's program is `stmts`, from its first statement on. -/
def placeProgram (stmts : List HostStmt) (s : State) : State := { s with hostProg := stmts, hostPc := 0 }

/-- R105: the machine with a program set up and loaded, its first statement the host's next; none where a branch names a
label that no line has (assumption 2, DESIGN CHOICE, and assumption 28, DEDUCED). -/
def loadProgram (program : List Line) (s : State) : Option State :=
  (assemble program).map fun stmts => placeProgram stmts (setUp program s)

end Sys2Proof.Machine
end

