-- ==== Sys2Proof/Laws/State.lean ====
section
/-! SUPPORT. What each named update of the state does to each field, so that no later proof unfolds an update. -/

namespace Sys2Proof.Machine

/-! ### outWrite -/

@[simp] theorem outWrite_phase (s : State) (x : Nat) (e : Entry) : (outWrite s x e).phase = s.phase := rfl
@[simp] theorem outWrite_mode (s : State) (x : Nat) (e : Entry) : (outWrite s x e).mode = s.mode := rfl
@[simp] theorem outWrite_n (s : State) (x : Nat) (e : Entry) : (outWrite s x e).n = s.n := rfl
@[simp] theorem outWrite_done (s : State) (x : Nat) (e : Entry) : (outWrite s x e).done = s.done := rfl
@[simp] theorem outWrite_err (s : State) (x : Nat) (e : Entry) : (outWrite s x e).err = s.err := rfl
@[simp] theorem outWrite_errCode (s : State) (x : Nat) (e : Entry) : (outWrite s x e).errCode = s.errCode := rfl
@[simp] theorem outWrite_addrNz (s : State) (x : Nat) (e : Entry) : (outWrite s x e).addrNz = s.addrNz := rfl
@[simp] theorem outWrite_wwb (s : State) (x : Nat) (e : Entry) : (outWrite s x e).wwb = s.wwb := rfl
@[simp] theorem outWrite_ie (s : State) (x : Nat) (e : Entry) : (outWrite s x e).ie = s.ie := rfl
@[simp] theorem outWrite_tReg (s : State) (x : Nat) (e : Entry) : (outWrite s x e).tReg = s.tReg := rfl
@[simp] theorem outWrite_byteLen (s : State) (x : Nat) (e : Entry) : (outWrite s x e).byteLen = s.byteLen := rfl
@[simp] theorem outWrite_loaded (s : State) (x : Nat) (e : Entry) : (outWrite s x e).loaded = s.loaded := rfl
@[simp] theorem outWrite_calIdx (s : State) (x : Nat) (e : Entry) : (outWrite s x e).calIdx = s.calIdx := rfl
@[simp] theorem outWrite_wordCnt (s : State) (x : Nat) (e : Entry) : (outWrite s x e).wordCnt = s.wordCnt := rfl
@[simp] theorem outWrite_validCnt (s : State) (x : Nat) (e : Entry) : (outWrite s x e).validCnt = s.validCnt := rfl
@[simp] theorem outWrite_cycles (s : State) (x : Nat) (e : Entry) : (outWrite s x e).cycles = s.cycles := rfl
@[simp] theorem outWrite_rowLen (s : State) (x : Nat) (e : Entry) : (outWrite s x e).rowLen = s.rowLen := rfl
@[simp] theorem outWrite_calTable (s : State) (x : Nat) (e : Entry) : (outWrite s x e).calTable = s.calTable := rfl
@[simp] theorem outWrite_inBuf (s : State) (x : Nat) (e : Entry) : (outWrite s x e).inBuf = s.inBuf := rfl
@[simp] theorem outWrite_outMem (s : State) (x : Nat) (e : Entry) : (outWrite s x e).outMem = s.outMem.set x e := rfl
@[simp] theorem outWrite_hostProg (s : State) (x : Nat) (e : Entry) : (outWrite s x e).hostProg = s.hostProg := rfl
@[simp] theorem outWrite_hostPc (s : State) (x : Nat) (e : Entry) : (outWrite s x e).hostPc = s.hostPc := rfl
@[simp] theorem outWrite_hostR (s : State) (x : Nat) (e : Entry) : (outWrite s x e).hostR = s.hostR := rfl
@[simp] theorem outWrite_hostEntry (s : State) (x : Nat) (e : Entry) : (outWrite s x e).hostEntry = s.hostEntry := rfl
@[simp] theorem outWrite_turns (s : State) (x : Nat) (e : Entry) : (outWrite s x e).turns = s.turns := rfl
@[simp] theorem outWrite_outOld (s : State) (x : Nat) (e : Entry) : (outWrite s x e).outOld = s.outOld := rfl
@[simp] theorem outWrite_inputDirty (s : State) (x : Nat) (e : Entry) : (outWrite s x e).inputDirty = s.inputDirty := rfl
@[simp] theorem outWrite_contested (s : State) (x : Nat) (e : Entry) : (outWrite s x e).contested = s.contested := rfl
@[simp] theorem outWrite_seenWord (s : State) (x : Nat) (e : Entry) : (outWrite s x e).seenWord = s.seenWord := rfl
@[simp] theorem outWrite_seenValid (s : State) (x : Nat) (e : Entry) : (outWrite s x e).seenValid = s.seenValid := rfl
@[simp] theorem outWrite_powerOns (s : State) (x : Nat) (e : Entry) : (outWrite s x e).powerOns = s.powerOns := rfl
@[simp] theorem outWrite_draws (s : State) (x : Nat) (e : Entry) : (outWrite s x e).draws = s.draws := rfl

/-! ### setWwb -/

@[simp] theorem setWwb_phase (s : State) : (setWwb s).phase = s.phase := rfl
@[simp] theorem setWwb_mode (s : State) : (setWwb s).mode = s.mode := rfl
@[simp] theorem setWwb_n (s : State) : (setWwb s).n = s.n := rfl
@[simp] theorem setWwb_done (s : State) : (setWwb s).done = s.done := rfl
@[simp] theorem setWwb_err (s : State) : (setWwb s).err = s.err := rfl
@[simp] theorem setWwb_errCode (s : State) : (setWwb s).errCode = s.errCode := rfl
@[simp] theorem setWwb_addrNz (s : State) : (setWwb s).addrNz = s.addrNz := rfl
@[simp] theorem setWwb_wwb (s : State) : (setWwb s).wwb = true := rfl
@[simp] theorem setWwb_ie (s : State) : (setWwb s).ie = s.ie := rfl
@[simp] theorem setWwb_tReg (s : State) : (setWwb s).tReg = s.tReg := rfl
@[simp] theorem setWwb_byteLen (s : State) : (setWwb s).byteLen = s.byteLen := rfl
@[simp] theorem setWwb_loaded (s : State) : (setWwb s).loaded = s.loaded := rfl
@[simp] theorem setWwb_calIdx (s : State) : (setWwb s).calIdx = s.calIdx := rfl
@[simp] theorem setWwb_wordCnt (s : State) : (setWwb s).wordCnt = s.wordCnt := rfl
@[simp] theorem setWwb_validCnt (s : State) : (setWwb s).validCnt = s.validCnt := rfl
@[simp] theorem setWwb_cycles (s : State) : (setWwb s).cycles = s.cycles := rfl
@[simp] theorem setWwb_rowLen (s : State) : (setWwb s).rowLen = s.rowLen := rfl
@[simp] theorem setWwb_calTable (s : State) : (setWwb s).calTable = s.calTable := rfl
@[simp] theorem setWwb_inBuf (s : State) : (setWwb s).inBuf = s.inBuf := rfl
@[simp] theorem setWwb_outMem (s : State) : (setWwb s).outMem = s.outMem := rfl
@[simp] theorem setWwb_hostProg (s : State) : (setWwb s).hostProg = s.hostProg := rfl
@[simp] theorem setWwb_hostPc (s : State) : (setWwb s).hostPc = s.hostPc := rfl
@[simp] theorem setWwb_hostR (s : State) : (setWwb s).hostR = s.hostR := rfl
@[simp] theorem setWwb_hostEntry (s : State) : (setWwb s).hostEntry = s.hostEntry := rfl
@[simp] theorem setWwb_turns (s : State) : (setWwb s).turns = s.turns := rfl
@[simp] theorem setWwb_outOld (s : State) : (setWwb s).outOld = s.outOld := rfl
@[simp] theorem setWwb_inputDirty (s : State) : (setWwb s).inputDirty = s.inputDirty := rfl
@[simp] theorem setWwb_contested (s : State) : (setWwb s).contested = s.contested := rfl
@[simp] theorem setWwb_seenWord (s : State) : (setWwb s).seenWord = s.seenWord := rfl
@[simp] theorem setWwb_seenValid (s : State) : (setWwb s).seenValid = s.seenValid := rfl
@[simp] theorem setWwb_powerOns (s : State) : (setWwb s).powerOns = s.powerOns := rfl
@[simp] theorem setWwb_draws (s : State) : (setWwb s).draws = s.draws := rfl

/-! ### setIe -/

@[simp] theorem setIe_phase (b : Bool) (s : State) : (setIe b s).phase = s.phase := rfl
@[simp] theorem setIe_mode (b : Bool) (s : State) : (setIe b s).mode = s.mode := rfl
@[simp] theorem setIe_n (b : Bool) (s : State) : (setIe b s).n = s.n := rfl
@[simp] theorem setIe_done (b : Bool) (s : State) : (setIe b s).done = s.done := rfl
@[simp] theorem setIe_err (b : Bool) (s : State) : (setIe b s).err = s.err := rfl
@[simp] theorem setIe_errCode (b : Bool) (s : State) : (setIe b s).errCode = s.errCode := rfl
@[simp] theorem setIe_addrNz (b : Bool) (s : State) : (setIe b s).addrNz = s.addrNz := rfl
@[simp] theorem setIe_wwb (b : Bool) (s : State) : (setIe b s).wwb = s.wwb := rfl
@[simp] theorem setIe_ie (b : Bool) (s : State) : (setIe b s).ie = b := rfl
@[simp] theorem setIe_tReg (b : Bool) (s : State) : (setIe b s).tReg = s.tReg := rfl
@[simp] theorem setIe_byteLen (b : Bool) (s : State) : (setIe b s).byteLen = s.byteLen := rfl
@[simp] theorem setIe_loaded (b : Bool) (s : State) : (setIe b s).loaded = s.loaded := rfl
@[simp] theorem setIe_calIdx (b : Bool) (s : State) : (setIe b s).calIdx = s.calIdx := rfl
@[simp] theorem setIe_wordCnt (b : Bool) (s : State) : (setIe b s).wordCnt = s.wordCnt := rfl
@[simp] theorem setIe_validCnt (b : Bool) (s : State) : (setIe b s).validCnt = s.validCnt := rfl
@[simp] theorem setIe_cycles (b : Bool) (s : State) : (setIe b s).cycles = s.cycles := rfl
@[simp] theorem setIe_rowLen (b : Bool) (s : State) : (setIe b s).rowLen = s.rowLen := rfl
@[simp] theorem setIe_calTable (b : Bool) (s : State) : (setIe b s).calTable = s.calTable := rfl
@[simp] theorem setIe_inBuf (b : Bool) (s : State) : (setIe b s).inBuf = s.inBuf := rfl
@[simp] theorem setIe_outMem (b : Bool) (s : State) : (setIe b s).outMem = s.outMem := rfl
@[simp] theorem setIe_hostProg (b : Bool) (s : State) : (setIe b s).hostProg = s.hostProg := rfl
@[simp] theorem setIe_hostPc (b : Bool) (s : State) : (setIe b s).hostPc = s.hostPc := rfl
@[simp] theorem setIe_hostR (b : Bool) (s : State) : (setIe b s).hostR = s.hostR := rfl
@[simp] theorem setIe_hostEntry (b : Bool) (s : State) : (setIe b s).hostEntry = s.hostEntry := rfl
@[simp] theorem setIe_turns (b : Bool) (s : State) : (setIe b s).turns = s.turns := rfl
@[simp] theorem setIe_outOld (b : Bool) (s : State) : (setIe b s).outOld = s.outOld := rfl
@[simp] theorem setIe_inputDirty (b : Bool) (s : State) : (setIe b s).inputDirty = s.inputDirty := rfl
@[simp] theorem setIe_contested (b : Bool) (s : State) : (setIe b s).contested = s.contested := rfl
@[simp] theorem setIe_seenWord (b : Bool) (s : State) : (setIe b s).seenWord = s.seenWord := rfl
@[simp] theorem setIe_seenValid (b : Bool) (s : State) : (setIe b s).seenValid = s.seenValid := rfl
@[simp] theorem setIe_powerOns (b : Bool) (s : State) : (setIe b s).powerOns = s.powerOns := rfl
@[simp] theorem setIe_draws (b : Bool) (s : State) : (setIe b s).draws = s.draws := rfl

/-! ### setT -/

@[simp] theorem setT_phase (d : Word) (s : State) : (setT d s).phase = s.phase := rfl
@[simp] theorem setT_mode (d : Word) (s : State) : (setT d s).mode = s.mode := rfl
@[simp] theorem setT_n (d : Word) (s : State) : (setT d s).n = s.n := rfl
@[simp] theorem setT_done (d : Word) (s : State) : (setT d s).done = s.done := rfl
@[simp] theorem setT_err (d : Word) (s : State) : (setT d s).err = s.err := rfl
@[simp] theorem setT_errCode (d : Word) (s : State) : (setT d s).errCode = s.errCode := rfl
@[simp] theorem setT_addrNz (d : Word) (s : State) : (setT d s).addrNz = s.addrNz := rfl
@[simp] theorem setT_wwb (d : Word) (s : State) : (setT d s).wwb = s.wwb := rfl
@[simp] theorem setT_ie (d : Word) (s : State) : (setT d s).ie = s.ie := rfl
@[simp] theorem setT_tReg (d : Word) (s : State) : (setT d s).tReg = d := rfl
@[simp] theorem setT_byteLen (d : Word) (s : State) : (setT d s).byteLen = s.byteLen := rfl
@[simp] theorem setT_loaded (d : Word) (s : State) : (setT d s).loaded = s.loaded := rfl
@[simp] theorem setT_calIdx (d : Word) (s : State) : (setT d s).calIdx = s.calIdx := rfl
@[simp] theorem setT_wordCnt (d : Word) (s : State) : (setT d s).wordCnt = s.wordCnt := rfl
@[simp] theorem setT_validCnt (d : Word) (s : State) : (setT d s).validCnt = s.validCnt := rfl
@[simp] theorem setT_cycles (d : Word) (s : State) : (setT d s).cycles = s.cycles := rfl
@[simp] theorem setT_rowLen (d : Word) (s : State) : (setT d s).rowLen = s.rowLen := rfl
@[simp] theorem setT_calTable (d : Word) (s : State) : (setT d s).calTable = s.calTable := rfl
@[simp] theorem setT_inBuf (d : Word) (s : State) : (setT d s).inBuf = s.inBuf := rfl
@[simp] theorem setT_outMem (d : Word) (s : State) : (setT d s).outMem = s.outMem := rfl
@[simp] theorem setT_hostProg (d : Word) (s : State) : (setT d s).hostProg = s.hostProg := rfl
@[simp] theorem setT_hostPc (d : Word) (s : State) : (setT d s).hostPc = s.hostPc := rfl
@[simp] theorem setT_hostR (d : Word) (s : State) : (setT d s).hostR = s.hostR := rfl
@[simp] theorem setT_hostEntry (d : Word) (s : State) : (setT d s).hostEntry = s.hostEntry := rfl
@[simp] theorem setT_turns (d : Word) (s : State) : (setT d s).turns = s.turns := rfl
@[simp] theorem setT_outOld (d : Word) (s : State) : (setT d s).outOld = s.outOld := rfl
@[simp] theorem setT_inputDirty (d : Word) (s : State) : (setT d s).inputDirty = s.inputDirty := rfl
@[simp] theorem setT_contested (d : Word) (s : State) : (setT d s).contested = s.contested := rfl
@[simp] theorem setT_seenWord (d : Word) (s : State) : (setT d s).seenWord = s.seenWord := rfl
@[simp] theorem setT_seenValid (d : Word) (s : State) : (setT d s).seenValid = s.seenValid := rfl
@[simp] theorem setT_powerOns (d : Word) (s : State) : (setT d s).powerOns = s.powerOns := rfl
@[simp] theorem setT_draws (d : Word) (s : State) : (setT d s).draws = s.draws := rfl

/-! ### setByteLen -/

@[simp] theorem setByteLen_phase (d : Word) (s : State) : (setByteLen d s).phase = s.phase := rfl
@[simp] theorem setByteLen_mode (d : Word) (s : State) : (setByteLen d s).mode = s.mode := rfl
@[simp] theorem setByteLen_n (d : Word) (s : State) : (setByteLen d s).n = s.n := rfl
@[simp] theorem setByteLen_done (d : Word) (s : State) : (setByteLen d s).done = s.done := rfl
@[simp] theorem setByteLen_err (d : Word) (s : State) : (setByteLen d s).err = s.err := rfl
@[simp] theorem setByteLen_errCode (d : Word) (s : State) : (setByteLen d s).errCode = s.errCode := rfl
@[simp] theorem setByteLen_addrNz (d : Word) (s : State) : (setByteLen d s).addrNz = s.addrNz := rfl
@[simp] theorem setByteLen_wwb (d : Word) (s : State) : (setByteLen d s).wwb = s.wwb := rfl
@[simp] theorem setByteLen_ie (d : Word) (s : State) : (setByteLen d s).ie = s.ie := rfl
@[simp] theorem setByteLen_tReg (d : Word) (s : State) : (setByteLen d s).tReg = s.tReg := rfl
@[simp] theorem setByteLen_byteLen (d : Word) (s : State) : (setByteLen d s).byteLen = d := rfl
@[simp] theorem setByteLen_loaded (d : Word) (s : State) : (setByteLen d s).loaded = s.loaded := rfl
@[simp] theorem setByteLen_calIdx (d : Word) (s : State) : (setByteLen d s).calIdx = s.calIdx := rfl
@[simp] theorem setByteLen_wordCnt (d : Word) (s : State) : (setByteLen d s).wordCnt = s.wordCnt := rfl
@[simp] theorem setByteLen_validCnt (d : Word) (s : State) : (setByteLen d s).validCnt = s.validCnt := rfl
@[simp] theorem setByteLen_cycles (d : Word) (s : State) : (setByteLen d s).cycles = s.cycles := rfl
@[simp] theorem setByteLen_rowLen (d : Word) (s : State) : (setByteLen d s).rowLen = s.rowLen := rfl
@[simp] theorem setByteLen_calTable (d : Word) (s : State) : (setByteLen d s).calTable = s.calTable := rfl
@[simp] theorem setByteLen_inBuf (d : Word) (s : State) : (setByteLen d s).inBuf = s.inBuf := rfl
@[simp] theorem setByteLen_outMem (d : Word) (s : State) : (setByteLen d s).outMem = s.outMem := rfl
@[simp] theorem setByteLen_hostProg (d : Word) (s : State) : (setByteLen d s).hostProg = s.hostProg := rfl
@[simp] theorem setByteLen_hostPc (d : Word) (s : State) : (setByteLen d s).hostPc = s.hostPc := rfl
@[simp] theorem setByteLen_hostR (d : Word) (s : State) : (setByteLen d s).hostR = s.hostR := rfl
@[simp] theorem setByteLen_hostEntry (d : Word) (s : State) : (setByteLen d s).hostEntry = s.hostEntry := rfl
@[simp] theorem setByteLen_turns (d : Word) (s : State) : (setByteLen d s).turns = s.turns := rfl
@[simp] theorem setByteLen_outOld (d : Word) (s : State) : (setByteLen d s).outOld = s.outOld := rfl
@[simp] theorem setByteLen_inputDirty (d : Word) (s : State) : (setByteLen d s).inputDirty = s.inputDirty := rfl
@[simp] theorem setByteLen_contested (d : Word) (s : State) : (setByteLen d s).contested = s.contested := rfl
@[simp] theorem setByteLen_seenWord (d : Word) (s : State) : (setByteLen d s).seenWord = s.seenWord := rfl
@[simp] theorem setByteLen_seenValid (d : Word) (s : State) : (setByteLen d s).seenValid = s.seenValid := rfl
@[simp] theorem setByteLen_powerOns (d : Word) (s : State) : (setByteLen d s).powerOns = s.powerOns := rfl
@[simp] theorem setByteLen_draws (d : Word) (s : State) : (setByteLen d s).draws = s.draws := rfl

/-! ### setLoaded -/

@[simp] theorem setLoaded_phase (b : Bool) (s : State) : (setLoaded b s).phase = s.phase := rfl
@[simp] theorem setLoaded_mode (b : Bool) (s : State) : (setLoaded b s).mode = s.mode := rfl
@[simp] theorem setLoaded_n (b : Bool) (s : State) : (setLoaded b s).n = s.n := rfl
@[simp] theorem setLoaded_done (b : Bool) (s : State) : (setLoaded b s).done = s.done := rfl
@[simp] theorem setLoaded_err (b : Bool) (s : State) : (setLoaded b s).err = s.err := rfl
@[simp] theorem setLoaded_errCode (b : Bool) (s : State) : (setLoaded b s).errCode = s.errCode := rfl
@[simp] theorem setLoaded_addrNz (b : Bool) (s : State) : (setLoaded b s).addrNz = s.addrNz := rfl
@[simp] theorem setLoaded_wwb (b : Bool) (s : State) : (setLoaded b s).wwb = s.wwb := rfl
@[simp] theorem setLoaded_ie (b : Bool) (s : State) : (setLoaded b s).ie = s.ie := rfl
@[simp] theorem setLoaded_tReg (b : Bool) (s : State) : (setLoaded b s).tReg = s.tReg := rfl
@[simp] theorem setLoaded_byteLen (b : Bool) (s : State) : (setLoaded b s).byteLen = s.byteLen := rfl
@[simp] theorem setLoaded_loaded (b : Bool) (s : State) : (setLoaded b s).loaded = b := rfl
@[simp] theorem setLoaded_calIdx (b : Bool) (s : State) : (setLoaded b s).calIdx = s.calIdx := rfl
@[simp] theorem setLoaded_wordCnt (b : Bool) (s : State) : (setLoaded b s).wordCnt = s.wordCnt := rfl
@[simp] theorem setLoaded_validCnt (b : Bool) (s : State) : (setLoaded b s).validCnt = s.validCnt := rfl
@[simp] theorem setLoaded_cycles (b : Bool) (s : State) : (setLoaded b s).cycles = s.cycles := rfl
@[simp] theorem setLoaded_rowLen (b : Bool) (s : State) : (setLoaded b s).rowLen = s.rowLen := rfl
@[simp] theorem setLoaded_calTable (b : Bool) (s : State) : (setLoaded b s).calTable = s.calTable := rfl
@[simp] theorem setLoaded_inBuf (b : Bool) (s : State) : (setLoaded b s).inBuf = s.inBuf := rfl
@[simp] theorem setLoaded_outMem (b : Bool) (s : State) : (setLoaded b s).outMem = s.outMem := rfl
@[simp] theorem setLoaded_hostProg (b : Bool) (s : State) : (setLoaded b s).hostProg = s.hostProg := rfl
@[simp] theorem setLoaded_hostPc (b : Bool) (s : State) : (setLoaded b s).hostPc = s.hostPc := rfl
@[simp] theorem setLoaded_hostR (b : Bool) (s : State) : (setLoaded b s).hostR = s.hostR := rfl
@[simp] theorem setLoaded_hostEntry (b : Bool) (s : State) : (setLoaded b s).hostEntry = s.hostEntry := rfl
@[simp] theorem setLoaded_turns (b : Bool) (s : State) : (setLoaded b s).turns = s.turns := rfl
@[simp] theorem setLoaded_outOld (b : Bool) (s : State) : (setLoaded b s).outOld = s.outOld := rfl
@[simp] theorem setLoaded_inputDirty (b : Bool) (s : State) : (setLoaded b s).inputDirty = s.inputDirty := rfl
@[simp] theorem setLoaded_contested (b : Bool) (s : State) : (setLoaded b s).contested = s.contested := rfl
@[simp] theorem setLoaded_seenWord (b : Bool) (s : State) : (setLoaded b s).seenWord = s.seenWord := rfl
@[simp] theorem setLoaded_seenValid (b : Bool) (s : State) : (setLoaded b s).seenValid = s.seenValid := rfl
@[simp] theorem setLoaded_powerOns (b : Bool) (s : State) : (setLoaded b s).powerOns = s.powerOns := rfl
@[simp] theorem setLoaded_draws (b : Bool) (s : State) : (setLoaded b s).draws = s.draws := rfl

/-! ### setCalIdx -/

@[simp] theorem setCalIdx_phase (x : BitVec 16) (s : State) : (setCalIdx x s).phase = s.phase := rfl
@[simp] theorem setCalIdx_mode (x : BitVec 16) (s : State) : (setCalIdx x s).mode = s.mode := rfl
@[simp] theorem setCalIdx_n (x : BitVec 16) (s : State) : (setCalIdx x s).n = s.n := rfl
@[simp] theorem setCalIdx_done (x : BitVec 16) (s : State) : (setCalIdx x s).done = s.done := rfl
@[simp] theorem setCalIdx_err (x : BitVec 16) (s : State) : (setCalIdx x s).err = s.err := rfl
@[simp] theorem setCalIdx_errCode (x : BitVec 16) (s : State) : (setCalIdx x s).errCode = s.errCode := rfl
@[simp] theorem setCalIdx_addrNz (x : BitVec 16) (s : State) : (setCalIdx x s).addrNz = s.addrNz := rfl
@[simp] theorem setCalIdx_wwb (x : BitVec 16) (s : State) : (setCalIdx x s).wwb = s.wwb := rfl
@[simp] theorem setCalIdx_ie (x : BitVec 16) (s : State) : (setCalIdx x s).ie = s.ie := rfl
@[simp] theorem setCalIdx_tReg (x : BitVec 16) (s : State) : (setCalIdx x s).tReg = s.tReg := rfl
@[simp] theorem setCalIdx_byteLen (x : BitVec 16) (s : State) : (setCalIdx x s).byteLen = s.byteLen := rfl
@[simp] theorem setCalIdx_loaded (x : BitVec 16) (s : State) : (setCalIdx x s).loaded = s.loaded := rfl
@[simp] theorem setCalIdx_calIdx (x : BitVec 16) (s : State) : (setCalIdx x s).calIdx = x := rfl
@[simp] theorem setCalIdx_wordCnt (x : BitVec 16) (s : State) : (setCalIdx x s).wordCnt = s.wordCnt := rfl
@[simp] theorem setCalIdx_validCnt (x : BitVec 16) (s : State) : (setCalIdx x s).validCnt = s.validCnt := rfl
@[simp] theorem setCalIdx_cycles (x : BitVec 16) (s : State) : (setCalIdx x s).cycles = s.cycles := rfl
@[simp] theorem setCalIdx_rowLen (x : BitVec 16) (s : State) : (setCalIdx x s).rowLen = s.rowLen := rfl
@[simp] theorem setCalIdx_calTable (x : BitVec 16) (s : State) : (setCalIdx x s).calTable = s.calTable := rfl
@[simp] theorem setCalIdx_inBuf (x : BitVec 16) (s : State) : (setCalIdx x s).inBuf = s.inBuf := rfl
@[simp] theorem setCalIdx_outMem (x : BitVec 16) (s : State) : (setCalIdx x s).outMem = s.outMem := rfl
@[simp] theorem setCalIdx_hostProg (x : BitVec 16) (s : State) : (setCalIdx x s).hostProg = s.hostProg := rfl
@[simp] theorem setCalIdx_hostPc (x : BitVec 16) (s : State) : (setCalIdx x s).hostPc = s.hostPc := rfl
@[simp] theorem setCalIdx_hostR (x : BitVec 16) (s : State) : (setCalIdx x s).hostR = s.hostR := rfl
@[simp] theorem setCalIdx_hostEntry (x : BitVec 16) (s : State) : (setCalIdx x s).hostEntry = s.hostEntry := rfl
@[simp] theorem setCalIdx_turns (x : BitVec 16) (s : State) : (setCalIdx x s).turns = s.turns := rfl
@[simp] theorem setCalIdx_outOld (x : BitVec 16) (s : State) : (setCalIdx x s).outOld = s.outOld := rfl
@[simp] theorem setCalIdx_inputDirty (x : BitVec 16) (s : State) : (setCalIdx x s).inputDirty = s.inputDirty := rfl
@[simp] theorem setCalIdx_contested (x : BitVec 16) (s : State) : (setCalIdx x s).contested = s.contested := rfl
@[simp] theorem setCalIdx_seenWord (x : BitVec 16) (s : State) : (setCalIdx x s).seenWord = s.seenWord := rfl
@[simp] theorem setCalIdx_seenValid (x : BitVec 16) (s : State) : (setCalIdx x s).seenValid = s.seenValid := rfl
@[simp] theorem setCalIdx_powerOns (x : BitVec 16) (s : State) : (setCalIdx x s).powerOns = s.powerOns := rfl
@[simp] theorem setCalIdx_draws (x : BitVec 16) (s : State) : (setCalIdx x s).draws = s.draws := rfl

/-! ### storeCal -/

@[simp] theorem storeCal_phase (d : Word) (s : State) : (storeCal d s).phase = s.phase := rfl
@[simp] theorem storeCal_mode (d : Word) (s : State) : (storeCal d s).mode = s.mode := rfl
@[simp] theorem storeCal_n (d : Word) (s : State) : (storeCal d s).n = s.n := rfl
@[simp] theorem storeCal_done (d : Word) (s : State) : (storeCal d s).done = s.done := rfl
@[simp] theorem storeCal_err (d : Word) (s : State) : (storeCal d s).err = s.err := rfl
@[simp] theorem storeCal_errCode (d : Word) (s : State) : (storeCal d s).errCode = s.errCode := rfl
@[simp] theorem storeCal_addrNz (d : Word) (s : State) : (storeCal d s).addrNz = s.addrNz := rfl
@[simp] theorem storeCal_wwb (d : Word) (s : State) : (storeCal d s).wwb = s.wwb := rfl
@[simp] theorem storeCal_ie (d : Word) (s : State) : (storeCal d s).ie = s.ie := rfl
@[simp] theorem storeCal_tReg (d : Word) (s : State) : (storeCal d s).tReg = s.tReg := rfl
@[simp] theorem storeCal_byteLen (d : Word) (s : State) : (storeCal d s).byteLen = s.byteLen := rfl
@[simp] theorem storeCal_loaded (d : Word) (s : State) : (storeCal d s).loaded = s.loaded := rfl
@[simp] theorem storeCal_calIdx (d : Word) (s : State) : (storeCal d s).calIdx = s.calIdx + 1 := rfl
@[simp] theorem storeCal_wordCnt (d : Word) (s : State) : (storeCal d s).wordCnt = s.wordCnt := rfl
@[simp] theorem storeCal_validCnt (d : Word) (s : State) : (storeCal d s).validCnt = s.validCnt := rfl
@[simp] theorem storeCal_cycles (d : Word) (s : State) : (storeCal d s).cycles = s.cycles := rfl
@[simp] theorem storeCal_rowLen (d : Word) (s : State) : (storeCal d s).rowLen = s.rowLen := rfl
@[simp] theorem storeCal_calTable (d : Word) (s : State) : (storeCal d s).calTable = s.calTable.set s.calIdx.toNat d := rfl
@[simp] theorem storeCal_inBuf (d : Word) (s : State) : (storeCal d s).inBuf = s.inBuf := rfl
@[simp] theorem storeCal_outMem (d : Word) (s : State) : (storeCal d s).outMem = s.outMem := rfl
@[simp] theorem storeCal_hostProg (d : Word) (s : State) : (storeCal d s).hostProg = s.hostProg := rfl
@[simp] theorem storeCal_hostPc (d : Word) (s : State) : (storeCal d s).hostPc = s.hostPc := rfl
@[simp] theorem storeCal_hostR (d : Word) (s : State) : (storeCal d s).hostR = s.hostR := rfl
@[simp] theorem storeCal_hostEntry (d : Word) (s : State) : (storeCal d s).hostEntry = s.hostEntry := rfl
@[simp] theorem storeCal_turns (d : Word) (s : State) : (storeCal d s).turns = s.turns := rfl
@[simp] theorem storeCal_outOld (d : Word) (s : State) : (storeCal d s).outOld = s.outOld := rfl
@[simp] theorem storeCal_inputDirty (d : Word) (s : State) : (storeCal d s).inputDirty = s.inputDirty := rfl
@[simp] theorem storeCal_contested (d : Word) (s : State) : (storeCal d s).contested = s.contested := rfl
@[simp] theorem storeCal_seenWord (d : Word) (s : State) : (storeCal d s).seenWord = s.seenWord := rfl
@[simp] theorem storeCal_seenValid (d : Word) (s : State) : (storeCal d s).seenValid = s.seenValid := rfl
@[simp] theorem storeCal_powerOns (d : Word) (s : State) : (storeCal d s).powerOns = s.powerOns := rfl
@[simp] theorem storeCal_draws (d : Word) (s : State) : (storeCal d s).draws = s.draws := rfl

/-! ### countWord -/

@[simp] theorem countWord_phase (v : Bool) (a : BitVec 2) (s : State) : (countWord v a s).phase = s.phase := rfl
@[simp] theorem countWord_mode (v : Bool) (a : BitVec 2) (s : State) : (countWord v a s).mode = s.mode := rfl
@[simp] theorem countWord_n (v : Bool) (a : BitVec 2) (s : State) : (countWord v a s).n = s.n + 1 := rfl
@[simp] theorem countWord_done (v : Bool) (a : BitVec 2) (s : State) : (countWord v a s).done = s.done := rfl
@[simp] theorem countWord_err (v : Bool) (a : BitVec 2) (s : State) : (countWord v a s).err = s.err := rfl
@[simp] theorem countWord_errCode (v : Bool) (a : BitVec 2) (s : State) : (countWord v a s).errCode = s.errCode := rfl
@[simp] theorem countWord_addrNz (v : Bool) (a : BitVec 2) (s : State) : (countWord v a s).addrNz = (s.addrNz || a != 0) := rfl
@[simp] theorem countWord_wwb (v : Bool) (a : BitVec 2) (s : State) : (countWord v a s).wwb = s.wwb := rfl
@[simp] theorem countWord_ie (v : Bool) (a : BitVec 2) (s : State) : (countWord v a s).ie = s.ie := rfl
@[simp] theorem countWord_tReg (v : Bool) (a : BitVec 2) (s : State) : (countWord v a s).tReg = s.tReg := rfl
@[simp] theorem countWord_byteLen (v : Bool) (a : BitVec 2) (s : State) : (countWord v a s).byteLen = s.byteLen := rfl
@[simp] theorem countWord_loaded (v : Bool) (a : BitVec 2) (s : State) : (countWord v a s).loaded = s.loaded := rfl
@[simp] theorem countWord_calIdx (v : Bool) (a : BitVec 2) (s : State) : (countWord v a s).calIdx = s.calIdx := rfl
@[simp] theorem countWord_wordCnt (v : Bool) (a : BitVec 2) (s : State) : (countWord v a s).wordCnt = s.wordCnt + 1 := rfl
@[simp] theorem countWord_validCnt (v : Bool) (a : BitVec 2) (s : State) : (countWord v a s).validCnt = if v then s.validCnt + 1 else s.validCnt := rfl
@[simp] theorem countWord_cycles (v : Bool) (a : BitVec 2) (s : State) : (countWord v a s).cycles = s.cycles := rfl
@[simp] theorem countWord_rowLen (v : Bool) (a : BitVec 2) (s : State) : (countWord v a s).rowLen = s.rowLen := rfl
@[simp] theorem countWord_calTable (v : Bool) (a : BitVec 2) (s : State) : (countWord v a s).calTable = s.calTable := rfl
@[simp] theorem countWord_inBuf (v : Bool) (a : BitVec 2) (s : State) : (countWord v a s).inBuf = s.inBuf := rfl
@[simp] theorem countWord_outMem (v : Bool) (a : BitVec 2) (s : State) : (countWord v a s).outMem = s.outMem := rfl
@[simp] theorem countWord_hostProg (v : Bool) (a : BitVec 2) (s : State) : (countWord v a s).hostProg = s.hostProg := rfl
@[simp] theorem countWord_hostPc (v : Bool) (a : BitVec 2) (s : State) : (countWord v a s).hostPc = s.hostPc := rfl
@[simp] theorem countWord_hostR (v : Bool) (a : BitVec 2) (s : State) : (countWord v a s).hostR = s.hostR := rfl
@[simp] theorem countWord_hostEntry (v : Bool) (a : BitVec 2) (s : State) : (countWord v a s).hostEntry = s.hostEntry := rfl
@[simp] theorem countWord_turns (v : Bool) (a : BitVec 2) (s : State) : (countWord v a s).turns = s.turns := rfl
@[simp] theorem countWord_outOld (v : Bool) (a : BitVec 2) (s : State) : (countWord v a s).outOld = s.outOld := rfl
@[simp] theorem countWord_inputDirty (v : Bool) (a : BitVec 2) (s : State) : (countWord v a s).inputDirty = s.inputDirty := rfl
@[simp] theorem countWord_contested (v : Bool) (a : BitVec 2) (s : State) : (countWord v a s).contested = s.contested := rfl
@[simp] theorem countWord_seenWord (v : Bool) (a : BitVec 2) (s : State) : (countWord v a s).seenWord = s.seenWord := rfl
@[simp] theorem countWord_seenValid (v : Bool) (a : BitVec 2) (s : State) : (countWord v a s).seenValid = s.seenValid := rfl
@[simp] theorem countWord_powerOns (v : Bool) (a : BitVec 2) (s : State) : (countWord v a s).powerOns = s.powerOns := rfl
@[simp] theorem countWord_draws (v : Bool) (a : BitVec 2) (s : State) : (countWord v a s).draws = s.draws := rfl

/-! ### fail -/

@[simp] theorem fail_phase (e : Error) (s : State) : (fail e s).phase = s.phase := rfl
@[simp] theorem fail_mode (e : Error) (s : State) : (fail e s).mode = s.mode := rfl
@[simp] theorem fail_n (e : Error) (s : State) : (fail e s).n = s.n := rfl
@[simp] theorem fail_done (e : Error) (s : State) : (fail e s).done = true := rfl
@[simp] theorem fail_err (e : Error) (s : State) : (fail e s).err = true := rfl
@[simp] theorem fail_errCode (e : Error) (s : State) : (fail e s).errCode = e.code := rfl
@[simp] theorem fail_addrNz (e : Error) (s : State) : (fail e s).addrNz = s.addrNz := rfl
@[simp] theorem fail_wwb (e : Error) (s : State) : (fail e s).wwb = s.wwb := rfl
@[simp] theorem fail_ie (e : Error) (s : State) : (fail e s).ie = s.ie := rfl
@[simp] theorem fail_tReg (e : Error) (s : State) : (fail e s).tReg = s.tReg := rfl
@[simp] theorem fail_byteLen (e : Error) (s : State) : (fail e s).byteLen = s.byteLen := rfl
@[simp] theorem fail_loaded (e : Error) (s : State) : (fail e s).loaded = s.loaded := rfl
@[simp] theorem fail_calIdx (e : Error) (s : State) : (fail e s).calIdx = s.calIdx := rfl
@[simp] theorem fail_wordCnt (e : Error) (s : State) : (fail e s).wordCnt = s.wordCnt := rfl
@[simp] theorem fail_validCnt (e : Error) (s : State) : (fail e s).validCnt = s.validCnt := rfl
@[simp] theorem fail_cycles (e : Error) (s : State) : (fail e s).cycles = s.cycles := rfl
@[simp] theorem fail_rowLen (e : Error) (s : State) : (fail e s).rowLen = s.rowLen := rfl
@[simp] theorem fail_calTable (e : Error) (s : State) : (fail e s).calTable = s.calTable := rfl
@[simp] theorem fail_inBuf (e : Error) (s : State) : (fail e s).inBuf = s.inBuf := rfl
@[simp] theorem fail_outMem (e : Error) (s : State) : (fail e s).outMem = s.outMem := rfl
@[simp] theorem fail_hostProg (e : Error) (s : State) : (fail e s).hostProg = s.hostProg := rfl
@[simp] theorem fail_hostPc (e : Error) (s : State) : (fail e s).hostPc = s.hostPc := rfl
@[simp] theorem fail_hostR (e : Error) (s : State) : (fail e s).hostR = s.hostR := rfl
@[simp] theorem fail_hostEntry (e : Error) (s : State) : (fail e s).hostEntry = s.hostEntry := rfl
@[simp] theorem fail_turns (e : Error) (s : State) : (fail e s).turns = s.turns := rfl
@[simp] theorem fail_outOld (e : Error) (s : State) : (fail e s).outOld = s.outOld := rfl
@[simp] theorem fail_inputDirty (e : Error) (s : State) : (fail e s).inputDirty = s.inputDirty := rfl
@[simp] theorem fail_contested (e : Error) (s : State) : (fail e s).contested = s.contested := rfl
@[simp] theorem fail_seenWord (e : Error) (s : State) : (fail e s).seenWord = s.seenWord := rfl
@[simp] theorem fail_seenValid (e : Error) (s : State) : (fail e s).seenValid = s.seenValid := rfl
@[simp] theorem fail_powerOns (e : Error) (s : State) : (fail e s).powerOns = s.powerOns := rfl
@[simp] theorem fail_draws (e : Error) (s : State) : (fail e s).draws = s.draws := rfl

/-! ### clearCompletion -/

@[simp] theorem clearCompletion_phase (s : State) : (clearCompletion s).phase = s.phase := rfl
@[simp] theorem clearCompletion_mode (s : State) : (clearCompletion s).mode = s.mode := rfl
@[simp] theorem clearCompletion_n (s : State) : (clearCompletion s).n = s.n := rfl
@[simp] theorem clearCompletion_done (s : State) : (clearCompletion s).done = false := rfl
@[simp] theorem clearCompletion_err (s : State) : (clearCompletion s).err = false := rfl
@[simp] theorem clearCompletion_errCode (s : State) : (clearCompletion s).errCode = 0 := rfl
@[simp] theorem clearCompletion_addrNz (s : State) : (clearCompletion s).addrNz = s.addrNz := rfl
@[simp] theorem clearCompletion_wwb (s : State) : (clearCompletion s).wwb = s.wwb := rfl
@[simp] theorem clearCompletion_ie (s : State) : (clearCompletion s).ie = s.ie := rfl
@[simp] theorem clearCompletion_tReg (s : State) : (clearCompletion s).tReg = s.tReg := rfl
@[simp] theorem clearCompletion_byteLen (s : State) : (clearCompletion s).byteLen = s.byteLen := rfl
@[simp] theorem clearCompletion_loaded (s : State) : (clearCompletion s).loaded = s.loaded := rfl
@[simp] theorem clearCompletion_calIdx (s : State) : (clearCompletion s).calIdx = s.calIdx := rfl
@[simp] theorem clearCompletion_wordCnt (s : State) : (clearCompletion s).wordCnt = s.wordCnt := rfl
@[simp] theorem clearCompletion_validCnt (s : State) : (clearCompletion s).validCnt = s.validCnt := rfl
@[simp] theorem clearCompletion_cycles (s : State) : (clearCompletion s).cycles = s.cycles := rfl
@[simp] theorem clearCompletion_rowLen (s : State) : (clearCompletion s).rowLen = s.rowLen := rfl
@[simp] theorem clearCompletion_calTable (s : State) : (clearCompletion s).calTable = s.calTable := rfl
@[simp] theorem clearCompletion_inBuf (s : State) : (clearCompletion s).inBuf = s.inBuf := rfl
@[simp] theorem clearCompletion_outMem (s : State) : (clearCompletion s).outMem = s.outMem := rfl
@[simp] theorem clearCompletion_hostProg (s : State) : (clearCompletion s).hostProg = s.hostProg := rfl
@[simp] theorem clearCompletion_hostPc (s : State) : (clearCompletion s).hostPc = s.hostPc := rfl
@[simp] theorem clearCompletion_hostR (s : State) : (clearCompletion s).hostR = s.hostR := rfl
@[simp] theorem clearCompletion_hostEntry (s : State) : (clearCompletion s).hostEntry = s.hostEntry := rfl
@[simp] theorem clearCompletion_turns (s : State) : (clearCompletion s).turns = s.turns := rfl
@[simp] theorem clearCompletion_outOld (s : State) : (clearCompletion s).outOld = s.outOld := rfl
@[simp] theorem clearCompletion_inputDirty (s : State) : (clearCompletion s).inputDirty = s.inputDirty := rfl
@[simp] theorem clearCompletion_contested (s : State) : (clearCompletion s).contested = s.contested := rfl
@[simp] theorem clearCompletion_seenWord (s : State) : (clearCompletion s).seenWord = s.seenWord := rfl
@[simp] theorem clearCompletion_seenValid (s : State) : (clearCompletion s).seenValid = s.seenValid := rfl
@[simp] theorem clearCompletion_powerOns (s : State) : (clearCompletion s).powerOns = s.powerOns := rfl
@[simp] theorem clearCompletion_draws (s : State) : (clearCompletion s).draws = s.draws := rfl

/-! ### acknowledge -/

@[simp] theorem acknowledge_phase (d : Word) (s : State) : (acknowledge d s).phase = s.phase := rfl
@[simp] theorem acknowledge_mode (d : Word) (s : State) : (acknowledge d s).mode = s.mode := rfl
@[simp] theorem acknowledge_n (d : Word) (s : State) : (acknowledge d s).n = s.n := rfl
@[simp] theorem acknowledge_done (d : Word) (s : State) : (acknowledge d s).done = (s.done && !d.getLsbD 1) := rfl
@[simp] theorem acknowledge_err (d : Word) (s : State) : (acknowledge d s).err = (s.err && !d.getLsbD 2) := rfl
@[simp] theorem acknowledge_errCode (d : Word) (s : State) : (acknowledge d s).errCode = if d.getLsbD 2 then 0 else s.errCode := rfl
@[simp] theorem acknowledge_addrNz (d : Word) (s : State) : (acknowledge d s).addrNz = (s.addrNz && !d.getLsbD 8) := rfl
@[simp] theorem acknowledge_wwb (d : Word) (s : State) : (acknowledge d s).wwb = (s.wwb && !d.getLsbD 9) := rfl
@[simp] theorem acknowledge_ie (d : Word) (s : State) : (acknowledge d s).ie = s.ie := rfl
@[simp] theorem acknowledge_tReg (d : Word) (s : State) : (acknowledge d s).tReg = s.tReg := rfl
@[simp] theorem acknowledge_byteLen (d : Word) (s : State) : (acknowledge d s).byteLen = s.byteLen := rfl
@[simp] theorem acknowledge_loaded (d : Word) (s : State) : (acknowledge d s).loaded = s.loaded := rfl
@[simp] theorem acknowledge_calIdx (d : Word) (s : State) : (acknowledge d s).calIdx = s.calIdx := rfl
@[simp] theorem acknowledge_wordCnt (d : Word) (s : State) : (acknowledge d s).wordCnt = s.wordCnt := rfl
@[simp] theorem acknowledge_validCnt (d : Word) (s : State) : (acknowledge d s).validCnt = s.validCnt := rfl
@[simp] theorem acknowledge_cycles (d : Word) (s : State) : (acknowledge d s).cycles = s.cycles := rfl
@[simp] theorem acknowledge_rowLen (d : Word) (s : State) : (acknowledge d s).rowLen = s.rowLen := rfl
@[simp] theorem acknowledge_calTable (d : Word) (s : State) : (acknowledge d s).calTable = s.calTable := rfl
@[simp] theorem acknowledge_inBuf (d : Word) (s : State) : (acknowledge d s).inBuf = s.inBuf := rfl
@[simp] theorem acknowledge_outMem (d : Word) (s : State) : (acknowledge d s).outMem = s.outMem := rfl
@[simp] theorem acknowledge_hostProg (d : Word) (s : State) : (acknowledge d s).hostProg = s.hostProg := rfl
@[simp] theorem acknowledge_hostPc (d : Word) (s : State) : (acknowledge d s).hostPc = s.hostPc := rfl
@[simp] theorem acknowledge_hostR (d : Word) (s : State) : (acknowledge d s).hostR = s.hostR := rfl
@[simp] theorem acknowledge_hostEntry (d : Word) (s : State) : (acknowledge d s).hostEntry = s.hostEntry := rfl
@[simp] theorem acknowledge_turns (d : Word) (s : State) : (acknowledge d s).turns = s.turns := rfl
@[simp] theorem acknowledge_outOld (d : Word) (s : State) : (acknowledge d s).outOld = s.outOld := rfl
@[simp] theorem acknowledge_inputDirty (d : Word) (s : State) : (acknowledge d s).inputDirty = s.inputDirty := rfl
@[simp] theorem acknowledge_contested (d : Word) (s : State) : (acknowledge d s).contested = s.contested := rfl
@[simp] theorem acknowledge_seenWord (d : Word) (s : State) : (acknowledge d s).seenWord = s.seenWord := rfl
@[simp] theorem acknowledge_seenValid (d : Word) (s : State) : (acknowledge d s).seenValid = s.seenValid := rfl
@[simp] theorem acknowledge_powerOns (d : Word) (s : State) : (acknowledge d s).powerOns = s.powerOns := rfl
@[simp] theorem acknowledge_draws (d : Word) (s : State) : (acknowledge d s).draws = s.draws := rfl

/-! ### clearProgress -/

@[simp] theorem clearProgress_phase (s : State) : (clearProgress s).phase = s.phase := rfl
@[simp] theorem clearProgress_mode (s : State) : (clearProgress s).mode = s.mode := rfl
@[simp] theorem clearProgress_n (s : State) : (clearProgress s).n = s.n := rfl
@[simp] theorem clearProgress_done (s : State) : (clearProgress s).done = s.done := rfl
@[simp] theorem clearProgress_err (s : State) : (clearProgress s).err = s.err := rfl
@[simp] theorem clearProgress_errCode (s : State) : (clearProgress s).errCode = s.errCode := rfl
@[simp] theorem clearProgress_addrNz (s : State) : (clearProgress s).addrNz = false := rfl
@[simp] theorem clearProgress_wwb (s : State) : (clearProgress s).wwb = s.wwb := rfl
@[simp] theorem clearProgress_ie (s : State) : (clearProgress s).ie = s.ie := rfl
@[simp] theorem clearProgress_tReg (s : State) : (clearProgress s).tReg = s.tReg := rfl
@[simp] theorem clearProgress_byteLen (s : State) : (clearProgress s).byteLen = s.byteLen := rfl
@[simp] theorem clearProgress_loaded (s : State) : (clearProgress s).loaded = s.loaded := rfl
@[simp] theorem clearProgress_calIdx (s : State) : (clearProgress s).calIdx = s.calIdx := rfl
@[simp] theorem clearProgress_wordCnt (s : State) : (clearProgress s).wordCnt = 0 := rfl
@[simp] theorem clearProgress_validCnt (s : State) : (clearProgress s).validCnt = 0 := rfl
@[simp] theorem clearProgress_cycles (s : State) : (clearProgress s).cycles = 0 := rfl
@[simp] theorem clearProgress_rowLen (s : State) : (clearProgress s).rowLen = 0 := rfl
@[simp] theorem clearProgress_calTable (s : State) : (clearProgress s).calTable = s.calTable := rfl
@[simp] theorem clearProgress_inBuf (s : State) : (clearProgress s).inBuf = s.inBuf := rfl
@[simp] theorem clearProgress_outMem (s : State) : (clearProgress s).outMem = s.outMem := rfl
@[simp] theorem clearProgress_hostProg (s : State) : (clearProgress s).hostProg = s.hostProg := rfl
@[simp] theorem clearProgress_hostPc (s : State) : (clearProgress s).hostPc = s.hostPc := rfl
@[simp] theorem clearProgress_hostR (s : State) : (clearProgress s).hostR = s.hostR := rfl
@[simp] theorem clearProgress_hostEntry (s : State) : (clearProgress s).hostEntry = s.hostEntry := rfl
@[simp] theorem clearProgress_turns (s : State) : (clearProgress s).turns = s.turns := rfl
@[simp] theorem clearProgress_outOld (s : State) : (clearProgress s).outOld = s.outOld := rfl
@[simp] theorem clearProgress_inputDirty (s : State) : (clearProgress s).inputDirty = s.inputDirty := rfl
@[simp] theorem clearProgress_contested (s : State) : (clearProgress s).contested = s.contested := rfl
@[simp] theorem clearProgress_seenWord (s : State) : (clearProgress s).seenWord = s.seenWord := rfl
@[simp] theorem clearProgress_seenValid (s : State) : (clearProgress s).seenValid = s.seenValid := rfl
@[simp] theorem clearProgress_powerOns (s : State) : (clearProgress s).powerOns = s.powerOns := rfl
@[simp] theorem clearProgress_draws (s : State) : (clearProgress s).draws = s.draws := rfl

/-! ### beginWords -/

@[simp] theorem beginWords_phase (m : Mode) (s : State) : (beginWords m s).phase = .busy := rfl
@[simp] theorem beginWords_mode (m : Mode) (s : State) : (beginWords m s).mode = m := rfl
@[simp] theorem beginWords_n (m : Mode) (s : State) : (beginWords m s).n = 0 := rfl
@[simp] theorem beginWords_done (m : Mode) (s : State) : (beginWords m s).done = s.done := rfl
@[simp] theorem beginWords_err (m : Mode) (s : State) : (beginWords m s).err = s.err := rfl
@[simp] theorem beginWords_errCode (m : Mode) (s : State) : (beginWords m s).errCode = s.errCode := rfl
@[simp] theorem beginWords_addrNz (m : Mode) (s : State) : (beginWords m s).addrNz = s.addrNz := rfl
@[simp] theorem beginWords_wwb (m : Mode) (s : State) : (beginWords m s).wwb = s.wwb := rfl
@[simp] theorem beginWords_ie (m : Mode) (s : State) : (beginWords m s).ie = s.ie := rfl
@[simp] theorem beginWords_tReg (m : Mode) (s : State) : (beginWords m s).tReg = s.tReg := rfl
@[simp] theorem beginWords_byteLen (m : Mode) (s : State) : (beginWords m s).byteLen = s.byteLen := rfl
@[simp] theorem beginWords_loaded (m : Mode) (s : State) : (beginWords m s).loaded = s.loaded := rfl
@[simp] theorem beginWords_calIdx (m : Mode) (s : State) : (beginWords m s).calIdx = s.calIdx := rfl
@[simp] theorem beginWords_wordCnt (m : Mode) (s : State) : (beginWords m s).wordCnt = s.wordCnt := rfl
@[simp] theorem beginWords_validCnt (m : Mode) (s : State) : (beginWords m s).validCnt = s.validCnt := rfl
@[simp] theorem beginWords_cycles (m : Mode) (s : State) : (beginWords m s).cycles = BitVec.ofNat 32 (wordTotal s / (s.tReg.toNat * Config.numPixels)) := rfl
@[simp] theorem beginWords_rowLen (m : Mode) (s : State) : (beginWords m s).rowLen = BitVec.ofNat 32 (wordTotal s / Config.numPixels) := rfl
@[simp] theorem beginWords_calTable (m : Mode) (s : State) : (beginWords m s).calTable = s.calTable := rfl
@[simp] theorem beginWords_inBuf (m : Mode) (s : State) : (beginWords m s).inBuf = s.inBuf := rfl
@[simp] theorem beginWords_outMem (m : Mode) (s : State) : (beginWords m s).outMem = s.outMem := rfl
@[simp] theorem beginWords_hostProg (m : Mode) (s : State) : (beginWords m s).hostProg = s.hostProg := rfl
@[simp] theorem beginWords_hostPc (m : Mode) (s : State) : (beginWords m s).hostPc = s.hostPc := rfl
@[simp] theorem beginWords_hostR (m : Mode) (s : State) : (beginWords m s).hostR = s.hostR := rfl
@[simp] theorem beginWords_hostEntry (m : Mode) (s : State) : (beginWords m s).hostEntry = s.hostEntry := rfl
@[simp] theorem beginWords_turns (m : Mode) (s : State) : (beginWords m s).turns = s.turns := rfl
@[simp] theorem beginWords_outOld (m : Mode) (s : State) : (beginWords m s).outOld = s.outMem := rfl
@[simp] theorem beginWords_inputDirty (m : Mode) (s : State) : (beginWords m s).inputDirty = false := rfl
@[simp] theorem beginWords_contested (m : Mode) (s : State) : (beginWords m s).contested = [] := rfl
@[simp] theorem beginWords_seenWord (m : Mode) (s : State) : (beginWords m s).seenWord = 0 := rfl
@[simp] theorem beginWords_seenValid (m : Mode) (s : State) : (beginWords m s).seenValid = 0 := rfl
@[simp] theorem beginWords_powerOns (m : Mode) (s : State) : (beginWords m s).powerOns = s.powerOns := rfl
@[simp] theorem beginWords_draws (m : Mode) (s : State) : (beginWords m s).draws = s.draws := rfl

/-! ### noteWord -/

@[simp] theorem noteWord_phase (s : State) : (noteWord s).phase = s.phase := rfl
@[simp] theorem noteWord_mode (s : State) : (noteWord s).mode = s.mode := rfl
@[simp] theorem noteWord_n (s : State) : (noteWord s).n = s.n := rfl
@[simp] theorem noteWord_done (s : State) : (noteWord s).done = s.done := rfl
@[simp] theorem noteWord_err (s : State) : (noteWord s).err = s.err := rfl
@[simp] theorem noteWord_errCode (s : State) : (noteWord s).errCode = s.errCode := rfl
@[simp] theorem noteWord_addrNz (s : State) : (noteWord s).addrNz = s.addrNz := rfl
@[simp] theorem noteWord_wwb (s : State) : (noteWord s).wwb = s.wwb := rfl
@[simp] theorem noteWord_ie (s : State) : (noteWord s).ie = s.ie := rfl
@[simp] theorem noteWord_tReg (s : State) : (noteWord s).tReg = s.tReg := rfl
@[simp] theorem noteWord_byteLen (s : State) : (noteWord s).byteLen = s.byteLen := rfl
@[simp] theorem noteWord_loaded (s : State) : (noteWord s).loaded = s.loaded := rfl
@[simp] theorem noteWord_calIdx (s : State) : (noteWord s).calIdx = s.calIdx := rfl
@[simp] theorem noteWord_wordCnt (s : State) : (noteWord s).wordCnt = s.wordCnt := rfl
@[simp] theorem noteWord_validCnt (s : State) : (noteWord s).validCnt = s.validCnt := rfl
@[simp] theorem noteWord_cycles (s : State) : (noteWord s).cycles = s.cycles := rfl
@[simp] theorem noteWord_rowLen (s : State) : (noteWord s).rowLen = s.rowLen := rfl
@[simp] theorem noteWord_calTable (s : State) : (noteWord s).calTable = s.calTable := rfl
@[simp] theorem noteWord_inBuf (s : State) : (noteWord s).inBuf = s.inBuf := rfl
@[simp] theorem noteWord_outMem (s : State) : (noteWord s).outMem = s.outMem := rfl
@[simp] theorem noteWord_hostProg (s : State) : (noteWord s).hostProg = s.hostProg := rfl
@[simp] theorem noteWord_hostPc (s : State) : (noteWord s).hostPc = s.hostPc := rfl
@[simp] theorem noteWord_hostR (s : State) : (noteWord s).hostR = s.hostR := rfl
@[simp] theorem noteWord_hostEntry (s : State) : (noteWord s).hostEntry = s.hostEntry := rfl
@[simp] theorem noteWord_turns (s : State) : (noteWord s).turns = s.turns := rfl
@[simp] theorem noteWord_outOld (s : State) : (noteWord s).outOld = s.outOld := rfl
@[simp] theorem noteWord_inputDirty (s : State) : (noteWord s).inputDirty = s.inputDirty := rfl
@[simp] theorem noteWord_contested (s : State) : (noteWord s).contested = s.contested := rfl
@[simp] theorem noteWord_seenWord (s : State) : (noteWord s).seenWord = shownWordCnt s := rfl
@[simp] theorem noteWord_seenValid (s : State) : (noteWord s).seenValid = s.seenValid := rfl
@[simp] theorem noteWord_powerOns (s : State) : (noteWord s).powerOns = s.powerOns := rfl
@[simp] theorem noteWord_draws (s : State) : (noteWord s).draws = s.draws + 1 := rfl

/-! ### noteValid -/

@[simp] theorem noteValid_phase (s : State) : (noteValid s).phase = s.phase := rfl
@[simp] theorem noteValid_mode (s : State) : (noteValid s).mode = s.mode := rfl
@[simp] theorem noteValid_n (s : State) : (noteValid s).n = s.n := rfl
@[simp] theorem noteValid_done (s : State) : (noteValid s).done = s.done := rfl
@[simp] theorem noteValid_err (s : State) : (noteValid s).err = s.err := rfl
@[simp] theorem noteValid_errCode (s : State) : (noteValid s).errCode = s.errCode := rfl
@[simp] theorem noteValid_addrNz (s : State) : (noteValid s).addrNz = s.addrNz := rfl
@[simp] theorem noteValid_wwb (s : State) : (noteValid s).wwb = s.wwb := rfl
@[simp] theorem noteValid_ie (s : State) : (noteValid s).ie = s.ie := rfl
@[simp] theorem noteValid_tReg (s : State) : (noteValid s).tReg = s.tReg := rfl
@[simp] theorem noteValid_byteLen (s : State) : (noteValid s).byteLen = s.byteLen := rfl
@[simp] theorem noteValid_loaded (s : State) : (noteValid s).loaded = s.loaded := rfl
@[simp] theorem noteValid_calIdx (s : State) : (noteValid s).calIdx = s.calIdx := rfl
@[simp] theorem noteValid_wordCnt (s : State) : (noteValid s).wordCnt = s.wordCnt := rfl
@[simp] theorem noteValid_validCnt (s : State) : (noteValid s).validCnt = s.validCnt := rfl
@[simp] theorem noteValid_cycles (s : State) : (noteValid s).cycles = s.cycles := rfl
@[simp] theorem noteValid_rowLen (s : State) : (noteValid s).rowLen = s.rowLen := rfl
@[simp] theorem noteValid_calTable (s : State) : (noteValid s).calTable = s.calTable := rfl
@[simp] theorem noteValid_inBuf (s : State) : (noteValid s).inBuf = s.inBuf := rfl
@[simp] theorem noteValid_outMem (s : State) : (noteValid s).outMem = s.outMem := rfl
@[simp] theorem noteValid_hostProg (s : State) : (noteValid s).hostProg = s.hostProg := rfl
@[simp] theorem noteValid_hostPc (s : State) : (noteValid s).hostPc = s.hostPc := rfl
@[simp] theorem noteValid_hostR (s : State) : (noteValid s).hostR = s.hostR := rfl
@[simp] theorem noteValid_hostEntry (s : State) : (noteValid s).hostEntry = s.hostEntry := rfl
@[simp] theorem noteValid_turns (s : State) : (noteValid s).turns = s.turns := rfl
@[simp] theorem noteValid_outOld (s : State) : (noteValid s).outOld = s.outOld := rfl
@[simp] theorem noteValid_inputDirty (s : State) : (noteValid s).inputDirty = s.inputDirty := rfl
@[simp] theorem noteValid_contested (s : State) : (noteValid s).contested = s.contested := rfl
@[simp] theorem noteValid_seenWord (s : State) : (noteValid s).seenWord = s.seenWord := rfl
@[simp] theorem noteValid_seenValid (s : State) : (noteValid s).seenValid = shownValidCnt s := rfl
@[simp] theorem noteValid_powerOns (s : State) : (noteValid s).powerOns = s.powerOns := rfl
@[simp] theorem noteValid_draws (s : State) : (noteValid s).draws = s.draws + 1 := rfl

/-! ### setHostR -/

@[simp] theorem setHostR_phase (d : Word) (s : State) : (setHostR d s).phase = s.phase := rfl
@[simp] theorem setHostR_mode (d : Word) (s : State) : (setHostR d s).mode = s.mode := rfl
@[simp] theorem setHostR_n (d : Word) (s : State) : (setHostR d s).n = s.n := rfl
@[simp] theorem setHostR_done (d : Word) (s : State) : (setHostR d s).done = s.done := rfl
@[simp] theorem setHostR_err (d : Word) (s : State) : (setHostR d s).err = s.err := rfl
@[simp] theorem setHostR_errCode (d : Word) (s : State) : (setHostR d s).errCode = s.errCode := rfl
@[simp] theorem setHostR_addrNz (d : Word) (s : State) : (setHostR d s).addrNz = s.addrNz := rfl
@[simp] theorem setHostR_wwb (d : Word) (s : State) : (setHostR d s).wwb = s.wwb := rfl
@[simp] theorem setHostR_ie (d : Word) (s : State) : (setHostR d s).ie = s.ie := rfl
@[simp] theorem setHostR_tReg (d : Word) (s : State) : (setHostR d s).tReg = s.tReg := rfl
@[simp] theorem setHostR_byteLen (d : Word) (s : State) : (setHostR d s).byteLen = s.byteLen := rfl
@[simp] theorem setHostR_loaded (d : Word) (s : State) : (setHostR d s).loaded = s.loaded := rfl
@[simp] theorem setHostR_calIdx (d : Word) (s : State) : (setHostR d s).calIdx = s.calIdx := rfl
@[simp] theorem setHostR_wordCnt (d : Word) (s : State) : (setHostR d s).wordCnt = s.wordCnt := rfl
@[simp] theorem setHostR_validCnt (d : Word) (s : State) : (setHostR d s).validCnt = s.validCnt := rfl
@[simp] theorem setHostR_cycles (d : Word) (s : State) : (setHostR d s).cycles = s.cycles := rfl
@[simp] theorem setHostR_rowLen (d : Word) (s : State) : (setHostR d s).rowLen = s.rowLen := rfl
@[simp] theorem setHostR_calTable (d : Word) (s : State) : (setHostR d s).calTable = s.calTable := rfl
@[simp] theorem setHostR_inBuf (d : Word) (s : State) : (setHostR d s).inBuf = s.inBuf := rfl
@[simp] theorem setHostR_outMem (d : Word) (s : State) : (setHostR d s).outMem = s.outMem := rfl
@[simp] theorem setHostR_hostProg (d : Word) (s : State) : (setHostR d s).hostProg = s.hostProg := rfl
@[simp] theorem setHostR_hostPc (d : Word) (s : State) : (setHostR d s).hostPc = s.hostPc := rfl
@[simp] theorem setHostR_hostR (d : Word) (s : State) : (setHostR d s).hostR = d := rfl
@[simp] theorem setHostR_hostEntry (d : Word) (s : State) : (setHostR d s).hostEntry = s.hostEntry := rfl
@[simp] theorem setHostR_turns (d : Word) (s : State) : (setHostR d s).turns = s.turns := rfl
@[simp] theorem setHostR_outOld (d : Word) (s : State) : (setHostR d s).outOld = s.outOld := rfl
@[simp] theorem setHostR_inputDirty (d : Word) (s : State) : (setHostR d s).inputDirty = s.inputDirty := rfl
@[simp] theorem setHostR_contested (d : Word) (s : State) : (setHostR d s).contested = s.contested := rfl
@[simp] theorem setHostR_seenWord (d : Word) (s : State) : (setHostR d s).seenWord = s.seenWord := rfl
@[simp] theorem setHostR_seenValid (d : Word) (s : State) : (setHostR d s).seenValid = s.seenValid := rfl
@[simp] theorem setHostR_powerOns (d : Word) (s : State) : (setHostR d s).powerOns = s.powerOns := rfl
@[simp] theorem setHostR_draws (d : Word) (s : State) : (setHostR d s).draws = s.draws := rfl

/-! ### draw -/

@[simp] theorem draw_phase (s : State) : (draw s).phase = s.phase := rfl
@[simp] theorem draw_mode (s : State) : (draw s).mode = s.mode := rfl
@[simp] theorem draw_n (s : State) : (draw s).n = s.n := rfl
@[simp] theorem draw_done (s : State) : (draw s).done = s.done := rfl
@[simp] theorem draw_err (s : State) : (draw s).err = s.err := rfl
@[simp] theorem draw_errCode (s : State) : (draw s).errCode = s.errCode := rfl
@[simp] theorem draw_addrNz (s : State) : (draw s).addrNz = s.addrNz := rfl
@[simp] theorem draw_wwb (s : State) : (draw s).wwb = s.wwb := rfl
@[simp] theorem draw_ie (s : State) : (draw s).ie = s.ie := rfl
@[simp] theorem draw_tReg (s : State) : (draw s).tReg = s.tReg := rfl
@[simp] theorem draw_byteLen (s : State) : (draw s).byteLen = s.byteLen := rfl
@[simp] theorem draw_loaded (s : State) : (draw s).loaded = s.loaded := rfl
@[simp] theorem draw_calIdx (s : State) : (draw s).calIdx = s.calIdx := rfl
@[simp] theorem draw_wordCnt (s : State) : (draw s).wordCnt = s.wordCnt := rfl
@[simp] theorem draw_validCnt (s : State) : (draw s).validCnt = s.validCnt := rfl
@[simp] theorem draw_cycles (s : State) : (draw s).cycles = s.cycles := rfl
@[simp] theorem draw_rowLen (s : State) : (draw s).rowLen = s.rowLen := rfl
@[simp] theorem draw_calTable (s : State) : (draw s).calTable = s.calTable := rfl
@[simp] theorem draw_inBuf (s : State) : (draw s).inBuf = s.inBuf := rfl
@[simp] theorem draw_outMem (s : State) : (draw s).outMem = s.outMem := rfl
@[simp] theorem draw_hostProg (s : State) : (draw s).hostProg = s.hostProg := rfl
@[simp] theorem draw_hostPc (s : State) : (draw s).hostPc = s.hostPc := rfl
@[simp] theorem draw_hostR (s : State) : (draw s).hostR = s.hostR := rfl
@[simp] theorem draw_hostEntry (s : State) : (draw s).hostEntry = s.hostEntry := rfl
@[simp] theorem draw_turns (s : State) : (draw s).turns = s.turns := rfl
@[simp] theorem draw_outOld (s : State) : (draw s).outOld = s.outOld := rfl
@[simp] theorem draw_inputDirty (s : State) : (draw s).inputDirty = s.inputDirty := rfl
@[simp] theorem draw_contested (s : State) : (draw s).contested = s.contested := rfl
@[simp] theorem draw_seenWord (s : State) : (draw s).seenWord = s.seenWord := rfl
@[simp] theorem draw_seenValid (s : State) : (draw s).seenValid = s.seenValid := rfl
@[simp] theorem draw_powerOns (s : State) : (draw s).powerOns = s.powerOns := rfl
@[simp] theorem draw_draws (s : State) : (draw s).draws = s.draws + 1 := rfl

/-! ### complete -/

@[simp] theorem complete_phase (s : State) : (complete s).phase = .idle := rfl
@[simp] theorem complete_mode (s : State) : (complete s).mode = s.mode := rfl
@[simp] theorem complete_n (s : State) : (complete s).n = s.n := rfl
@[simp] theorem complete_done (s : State) : (complete s).done = true := rfl
@[simp] theorem complete_err (s : State) : (complete s).err = s.err := rfl
@[simp] theorem complete_errCode (s : State) : (complete s).errCode = s.errCode := rfl
@[simp] theorem complete_addrNz (s : State) : (complete s).addrNz = s.addrNz := rfl
@[simp] theorem complete_wwb (s : State) : (complete s).wwb = s.wwb := rfl
@[simp] theorem complete_ie (s : State) : (complete s).ie = s.ie := rfl
@[simp] theorem complete_tReg (s : State) : (complete s).tReg = s.tReg := rfl
@[simp] theorem complete_byteLen (s : State) : (complete s).byteLen = s.byteLen := rfl
@[simp] theorem complete_loaded (s : State) : (complete s).loaded = s.loaded := rfl
@[simp] theorem complete_calIdx (s : State) : (complete s).calIdx = s.calIdx := rfl
@[simp] theorem complete_wordCnt (s : State) : (complete s).wordCnt = s.wordCnt := rfl
@[simp] theorem complete_validCnt (s : State) : (complete s).validCnt = s.validCnt := rfl
@[simp] theorem complete_cycles (s : State) : (complete s).cycles = s.cycles := rfl
@[simp] theorem complete_rowLen (s : State) : (complete s).rowLen = s.rowLen := rfl
@[simp] theorem complete_calTable (s : State) : (complete s).calTable = s.calTable := rfl
@[simp] theorem complete_inBuf (s : State) : (complete s).inBuf = s.inBuf := rfl
@[simp] theorem complete_outMem (s : State) : (complete s).outMem = s.outMem := rfl
@[simp] theorem complete_hostProg (s : State) : (complete s).hostProg = s.hostProg := rfl
@[simp] theorem complete_hostPc (s : State) : (complete s).hostPc = s.hostPc := rfl
@[simp] theorem complete_hostR (s : State) : (complete s).hostR = s.hostR := rfl
@[simp] theorem complete_hostEntry (s : State) : (complete s).hostEntry = s.hostEntry := rfl
@[simp] theorem complete_turns (s : State) : (complete s).turns = s.turns := rfl
@[simp] theorem complete_outOld (s : State) : (complete s).outOld = [] := rfl
@[simp] theorem complete_inputDirty (s : State) : (complete s).inputDirty = false := rfl
@[simp] theorem complete_contested (s : State) : (complete s).contested = [] := rfl
@[simp] theorem complete_seenWord (s : State) : (complete s).seenWord = s.seenWord := rfl
@[simp] theorem complete_seenValid (s : State) : (complete s).seenValid = s.seenValid := rfl
@[simp] theorem complete_powerOns (s : State) : (complete s).powerOns = s.powerOns := rfl
@[simp] theorem complete_draws (s : State) : (complete s).draws = s.draws := rfl

/-! ### resetBlock -/

@[simp] theorem resetBlock_phase (s : State) : (resetBlock s).phase = .idle := rfl
@[simp] theorem resetBlock_mode (s : State) : (resetBlock s).mode = .scaled := rfl
@[simp] theorem resetBlock_n (s : State) : (resetBlock s).n = 0 := rfl
@[simp] theorem resetBlock_done (s : State) : (resetBlock s).done = false := rfl
@[simp] theorem resetBlock_err (s : State) : (resetBlock s).err = false := rfl
@[simp] theorem resetBlock_errCode (s : State) : (resetBlock s).errCode = 0 := rfl
@[simp] theorem resetBlock_addrNz (s : State) : (resetBlock s).addrNz = false := rfl
@[simp] theorem resetBlock_wwb (s : State) : (resetBlock s).wwb = false := rfl
@[simp] theorem resetBlock_ie (s : State) : (resetBlock s).ie = false := rfl
@[simp] theorem resetBlock_tReg (s : State) : (resetBlock s).tReg = 0 := rfl
@[simp] theorem resetBlock_byteLen (s : State) : (resetBlock s).byteLen = 0 := rfl
@[simp] theorem resetBlock_loaded (s : State) : (resetBlock s).loaded = false := rfl
@[simp] theorem resetBlock_calIdx (s : State) : (resetBlock s).calIdx = 0 := rfl
@[simp] theorem resetBlock_wordCnt (s : State) : (resetBlock s).wordCnt = 0 := rfl
@[simp] theorem resetBlock_validCnt (s : State) : (resetBlock s).validCnt = 0 := rfl
@[simp] theorem resetBlock_cycles (s : State) : (resetBlock s).cycles = 0 := rfl
@[simp] theorem resetBlock_rowLen (s : State) : (resetBlock s).rowLen = 0 := rfl
@[simp] theorem resetBlock_calTable (s : State) : (resetBlock s).calTable = s.calTable := rfl
@[simp] theorem resetBlock_inBuf (s : State) : (resetBlock s).inBuf = s.inBuf := rfl
@[simp] theorem resetBlock_outMem (s : State) : (resetBlock s).outMem = outAfterReset s := rfl
@[simp] theorem resetBlock_hostProg (s : State) : (resetBlock s).hostProg = s.hostProg := rfl
@[simp] theorem resetBlock_hostPc (s : State) : (resetBlock s).hostPc = s.hostPc := rfl
@[simp] theorem resetBlock_hostR (s : State) : (resetBlock s).hostR = s.hostR := rfl
@[simp] theorem resetBlock_hostEntry (s : State) : (resetBlock s).hostEntry = s.hostEntry := rfl
@[simp] theorem resetBlock_turns (s : State) : (resetBlock s).turns = s.turns := rfl
@[simp] theorem resetBlock_outOld (s : State) : (resetBlock s).outOld = [] := rfl
@[simp] theorem resetBlock_inputDirty (s : State) : (resetBlock s).inputDirty = false := rfl
@[simp] theorem resetBlock_contested (s : State) : (resetBlock s).contested = [] := rfl
@[simp] theorem resetBlock_seenWord (s : State) : (resetBlock s).seenWord = 0 := rfl
@[simp] theorem resetBlock_seenValid (s : State) : (resetBlock s).seenValid = 0 := rfl
@[simp] theorem resetBlock_powerOns (s : State) : (resetBlock s).powerOns = s.powerOns := rfl
@[simp] theorem resetBlock_draws (s : State) : (resetBlock s).draws = s.draws + 1 := rfl

/-! ### storeInput -/

@[simp] theorem storeInput_phase (a : Nat) (b : Byte) (s : State) : (storeInput a b s).phase = s.phase := rfl
@[simp] theorem storeInput_mode (a : Nat) (b : Byte) (s : State) : (storeInput a b s).mode = s.mode := rfl
@[simp] theorem storeInput_n (a : Nat) (b : Byte) (s : State) : (storeInput a b s).n = s.n := rfl
@[simp] theorem storeInput_done (a : Nat) (b : Byte) (s : State) : (storeInput a b s).done = s.done := rfl
@[simp] theorem storeInput_err (a : Nat) (b : Byte) (s : State) : (storeInput a b s).err = s.err := rfl
@[simp] theorem storeInput_errCode (a : Nat) (b : Byte) (s : State) : (storeInput a b s).errCode = s.errCode := rfl
@[simp] theorem storeInput_addrNz (a : Nat) (b : Byte) (s : State) : (storeInput a b s).addrNz = s.addrNz := rfl
@[simp] theorem storeInput_wwb (a : Nat) (b : Byte) (s : State) : (storeInput a b s).wwb = s.wwb := rfl
@[simp] theorem storeInput_ie (a : Nat) (b : Byte) (s : State) : (storeInput a b s).ie = s.ie := rfl
@[simp] theorem storeInput_tReg (a : Nat) (b : Byte) (s : State) : (storeInput a b s).tReg = s.tReg := rfl
@[simp] theorem storeInput_byteLen (a : Nat) (b : Byte) (s : State) : (storeInput a b s).byteLen = s.byteLen := rfl
@[simp] theorem storeInput_loaded (a : Nat) (b : Byte) (s : State) : (storeInput a b s).loaded = s.loaded := rfl
@[simp] theorem storeInput_calIdx (a : Nat) (b : Byte) (s : State) : (storeInput a b s).calIdx = s.calIdx := rfl
@[simp] theorem storeInput_wordCnt (a : Nat) (b : Byte) (s : State) : (storeInput a b s).wordCnt = s.wordCnt := rfl
@[simp] theorem storeInput_validCnt (a : Nat) (b : Byte) (s : State) : (storeInput a b s).validCnt = s.validCnt := rfl
@[simp] theorem storeInput_cycles (a : Nat) (b : Byte) (s : State) : (storeInput a b s).cycles = s.cycles := rfl
@[simp] theorem storeInput_rowLen (a : Nat) (b : Byte) (s : State) : (storeInput a b s).rowLen = s.rowLen := rfl
@[simp] theorem storeInput_calTable (a : Nat) (b : Byte) (s : State) : (storeInput a b s).calTable = s.calTable := rfl
@[simp] theorem storeInput_inBuf (a : Nat) (b : Byte) (s : State) : (storeInput a b s).inBuf = s.inBuf.set a b := rfl
@[simp] theorem storeInput_outMem (a : Nat) (b : Byte) (s : State) : (storeInput a b s).outMem = s.outMem := rfl
@[simp] theorem storeInput_hostProg (a : Nat) (b : Byte) (s : State) : (storeInput a b s).hostProg = s.hostProg := rfl
@[simp] theorem storeInput_hostPc (a : Nat) (b : Byte) (s : State) : (storeInput a b s).hostPc = s.hostPc := rfl
@[simp] theorem storeInput_hostR (a : Nat) (b : Byte) (s : State) : (storeInput a b s).hostR = s.hostR := rfl
@[simp] theorem storeInput_hostEntry (a : Nat) (b : Byte) (s : State) : (storeInput a b s).hostEntry = s.hostEntry := rfl
@[simp] theorem storeInput_turns (a : Nat) (b : Byte) (s : State) : (storeInput a b s).turns = s.turns := rfl
@[simp] theorem storeInput_outOld (a : Nat) (b : Byte) (s : State) : (storeInput a b s).outOld = s.outOld := rfl
@[simp] theorem storeInput_inputDirty (a : Nat) (b : Byte) (s : State) : (storeInput a b s).inputDirty = (s.inputDirty || (s.phase == .busy && decide (a < s.byteLen.toNat))) := rfl
@[simp] theorem storeInput_contested (a : Nat) (b : Byte) (s : State) : (storeInput a b s).contested = s.contested := rfl
@[simp] theorem storeInput_seenWord (a : Nat) (b : Byte) (s : State) : (storeInput a b s).seenWord = s.seenWord := rfl
@[simp] theorem storeInput_seenValid (a : Nat) (b : Byte) (s : State) : (storeInput a b s).seenValid = s.seenValid := rfl
@[simp] theorem storeInput_powerOns (a : Nat) (b : Byte) (s : State) : (storeInput a b s).powerOns = s.powerOns := rfl
@[simp] theorem storeInput_draws (a : Nat) (b : Byte) (s : State) : (storeInput a b s).draws = s.draws := rfl

/-! ### contest -/

@[simp] theorem contest_phase (x : Nat) (e : Entry) (s : State) : (contest x e s).phase = s.phase := rfl
@[simp] theorem contest_mode (x : Nat) (e : Entry) (s : State) : (contest x e s).mode = s.mode := rfl
@[simp] theorem contest_n (x : Nat) (e : Entry) (s : State) : (contest x e s).n = s.n := rfl
@[simp] theorem contest_done (x : Nat) (e : Entry) (s : State) : (contest x e s).done = s.done := rfl
@[simp] theorem contest_err (x : Nat) (e : Entry) (s : State) : (contest x e s).err = s.err := rfl
@[simp] theorem contest_errCode (x : Nat) (e : Entry) (s : State) : (contest x e s).errCode = s.errCode := rfl
@[simp] theorem contest_addrNz (x : Nat) (e : Entry) (s : State) : (contest x e s).addrNz = s.addrNz := rfl
@[simp] theorem contest_wwb (x : Nat) (e : Entry) (s : State) : (contest x e s).wwb = s.wwb := rfl
@[simp] theorem contest_ie (x : Nat) (e : Entry) (s : State) : (contest x e s).ie = s.ie := rfl
@[simp] theorem contest_tReg (x : Nat) (e : Entry) (s : State) : (contest x e s).tReg = s.tReg := rfl
@[simp] theorem contest_byteLen (x : Nat) (e : Entry) (s : State) : (contest x e s).byteLen = s.byteLen := rfl
@[simp] theorem contest_loaded (x : Nat) (e : Entry) (s : State) : (contest x e s).loaded = s.loaded := rfl
@[simp] theorem contest_calIdx (x : Nat) (e : Entry) (s : State) : (contest x e s).calIdx = s.calIdx := rfl
@[simp] theorem contest_wordCnt (x : Nat) (e : Entry) (s : State) : (contest x e s).wordCnt = s.wordCnt := rfl
@[simp] theorem contest_validCnt (x : Nat) (e : Entry) (s : State) : (contest x e s).validCnt = s.validCnt := rfl
@[simp] theorem contest_cycles (x : Nat) (e : Entry) (s : State) : (contest x e s).cycles = s.cycles := rfl
@[simp] theorem contest_rowLen (x : Nat) (e : Entry) (s : State) : (contest x e s).rowLen = s.rowLen := rfl
@[simp] theorem contest_calTable (x : Nat) (e : Entry) (s : State) : (contest x e s).calTable = s.calTable := rfl
@[simp] theorem contest_inBuf (x : Nat) (e : Entry) (s : State) : (contest x e s).inBuf = s.inBuf := rfl
@[simp] theorem contest_outMem (x : Nat) (e : Entry) (s : State) : (contest x e s).outMem = s.outMem.set x e := rfl
@[simp] theorem contest_hostProg (x : Nat) (e : Entry) (s : State) : (contest x e s).hostProg = s.hostProg := rfl
@[simp] theorem contest_hostPc (x : Nat) (e : Entry) (s : State) : (contest x e s).hostPc = s.hostPc := rfl
@[simp] theorem contest_hostR (x : Nat) (e : Entry) (s : State) : (contest x e s).hostR = s.hostR := rfl
@[simp] theorem contest_hostEntry (x : Nat) (e : Entry) (s : State) : (contest x e s).hostEntry = s.hostEntry := rfl
@[simp] theorem contest_turns (x : Nat) (e : Entry) (s : State) : (contest x e s).turns = s.turns := rfl
@[simp] theorem contest_outOld (x : Nat) (e : Entry) (s : State) : (contest x e s).outOld = s.outOld.set x e := rfl
@[simp] theorem contest_inputDirty (x : Nat) (e : Entry) (s : State) : (contest x e s).inputDirty = s.inputDirty := rfl
@[simp] theorem contest_contested (x : Nat) (e : Entry) (s : State) : (contest x e s).contested = if sourceWord s x < s.n.toNat then s.contested.insert x else s.contested := rfl
@[simp] theorem contest_seenWord (x : Nat) (e : Entry) (s : State) : (contest x e s).seenWord = s.seenWord := rfl
@[simp] theorem contest_seenValid (x : Nat) (e : Entry) (s : State) : (contest x e s).seenValid = s.seenValid := rfl
@[simp] theorem contest_powerOns (x : Nat) (e : Entry) (s : State) : (contest x e s).powerOns = s.powerOns := rfl
@[simp] theorem contest_draws (x : Nat) (e : Entry) (s : State) : (contest x e s).draws = s.draws := rfl

/-! ### placeProgram -/

@[simp] theorem placeProgram_phase (stmts : List HostStmt) (s : State) : (placeProgram stmts s).phase = s.phase := rfl
@[simp] theorem placeProgram_mode (stmts : List HostStmt) (s : State) : (placeProgram stmts s).mode = s.mode := rfl
@[simp] theorem placeProgram_n (stmts : List HostStmt) (s : State) : (placeProgram stmts s).n = s.n := rfl
@[simp] theorem placeProgram_done (stmts : List HostStmt) (s : State) : (placeProgram stmts s).done = s.done := rfl
@[simp] theorem placeProgram_err (stmts : List HostStmt) (s : State) : (placeProgram stmts s).err = s.err := rfl
@[simp] theorem placeProgram_errCode (stmts : List HostStmt) (s : State) : (placeProgram stmts s).errCode = s.errCode := rfl
@[simp] theorem placeProgram_addrNz (stmts : List HostStmt) (s : State) : (placeProgram stmts s).addrNz = s.addrNz := rfl
@[simp] theorem placeProgram_wwb (stmts : List HostStmt) (s : State) : (placeProgram stmts s).wwb = s.wwb := rfl
@[simp] theorem placeProgram_ie (stmts : List HostStmt) (s : State) : (placeProgram stmts s).ie = s.ie := rfl
@[simp] theorem placeProgram_tReg (stmts : List HostStmt) (s : State) : (placeProgram stmts s).tReg = s.tReg := rfl
@[simp] theorem placeProgram_byteLen (stmts : List HostStmt) (s : State) : (placeProgram stmts s).byteLen = s.byteLen := rfl
@[simp] theorem placeProgram_loaded (stmts : List HostStmt) (s : State) : (placeProgram stmts s).loaded = s.loaded := rfl
@[simp] theorem placeProgram_calIdx (stmts : List HostStmt) (s : State) : (placeProgram stmts s).calIdx = s.calIdx := rfl
@[simp] theorem placeProgram_wordCnt (stmts : List HostStmt) (s : State) : (placeProgram stmts s).wordCnt = s.wordCnt := rfl
@[simp] theorem placeProgram_validCnt (stmts : List HostStmt) (s : State) : (placeProgram stmts s).validCnt = s.validCnt := rfl
@[simp] theorem placeProgram_cycles (stmts : List HostStmt) (s : State) : (placeProgram stmts s).cycles = s.cycles := rfl
@[simp] theorem placeProgram_rowLen (stmts : List HostStmt) (s : State) : (placeProgram stmts s).rowLen = s.rowLen := rfl
@[simp] theorem placeProgram_calTable (stmts : List HostStmt) (s : State) : (placeProgram stmts s).calTable = s.calTable := rfl
@[simp] theorem placeProgram_inBuf (stmts : List HostStmt) (s : State) : (placeProgram stmts s).inBuf = s.inBuf := rfl
@[simp] theorem placeProgram_outMem (stmts : List HostStmt) (s : State) : (placeProgram stmts s).outMem = s.outMem := rfl
@[simp] theorem placeProgram_hostProg (stmts : List HostStmt) (s : State) : (placeProgram stmts s).hostProg = stmts := rfl
@[simp] theorem placeProgram_hostPc (stmts : List HostStmt) (s : State) : (placeProgram stmts s).hostPc = 0 := rfl
@[simp] theorem placeProgram_hostR (stmts : List HostStmt) (s : State) : (placeProgram stmts s).hostR = s.hostR := rfl
@[simp] theorem placeProgram_hostEntry (stmts : List HostStmt) (s : State) : (placeProgram stmts s).hostEntry = s.hostEntry := rfl
@[simp] theorem placeProgram_turns (stmts : List HostStmt) (s : State) : (placeProgram stmts s).turns = s.turns := rfl
@[simp] theorem placeProgram_outOld (stmts : List HostStmt) (s : State) : (placeProgram stmts s).outOld = s.outOld := rfl
@[simp] theorem placeProgram_inputDirty (stmts : List HostStmt) (s : State) : (placeProgram stmts s).inputDirty = s.inputDirty := rfl
@[simp] theorem placeProgram_contested (stmts : List HostStmt) (s : State) : (placeProgram stmts s).contested = s.contested := rfl
@[simp] theorem placeProgram_seenWord (stmts : List HostStmt) (s : State) : (placeProgram stmts s).seenWord = s.seenWord := rfl
@[simp] theorem placeProgram_seenValid (stmts : List HostStmt) (s : State) : (placeProgram stmts s).seenValid = s.seenValid := rfl
@[simp] theorem placeProgram_powerOns (stmts : List HostStmt) (s : State) : (placeProgram stmts s).powerOns = s.powerOns := rfl
@[simp] theorem placeProgram_draws (stmts : List HostStmt) (s : State) : (placeProgram stmts s).draws = s.draws := rfl

/-! ### jump -/

@[simp] theorem jump_phase (k : Nat) (s : State) : (jump k s).phase = s.phase := rfl
@[simp] theorem jump_mode (k : Nat) (s : State) : (jump k s).mode = s.mode := rfl
@[simp] theorem jump_n (k : Nat) (s : State) : (jump k s).n = s.n := rfl
@[simp] theorem jump_done (k : Nat) (s : State) : (jump k s).done = s.done := rfl
@[simp] theorem jump_err (k : Nat) (s : State) : (jump k s).err = s.err := rfl
@[simp] theorem jump_errCode (k : Nat) (s : State) : (jump k s).errCode = s.errCode := rfl
@[simp] theorem jump_addrNz (k : Nat) (s : State) : (jump k s).addrNz = s.addrNz := rfl
@[simp] theorem jump_wwb (k : Nat) (s : State) : (jump k s).wwb = s.wwb := rfl
@[simp] theorem jump_ie (k : Nat) (s : State) : (jump k s).ie = s.ie := rfl
@[simp] theorem jump_tReg (k : Nat) (s : State) : (jump k s).tReg = s.tReg := rfl
@[simp] theorem jump_byteLen (k : Nat) (s : State) : (jump k s).byteLen = s.byteLen := rfl
@[simp] theorem jump_loaded (k : Nat) (s : State) : (jump k s).loaded = s.loaded := rfl
@[simp] theorem jump_calIdx (k : Nat) (s : State) : (jump k s).calIdx = s.calIdx := rfl
@[simp] theorem jump_wordCnt (k : Nat) (s : State) : (jump k s).wordCnt = s.wordCnt := rfl
@[simp] theorem jump_validCnt (k : Nat) (s : State) : (jump k s).validCnt = s.validCnt := rfl
@[simp] theorem jump_cycles (k : Nat) (s : State) : (jump k s).cycles = s.cycles := rfl
@[simp] theorem jump_rowLen (k : Nat) (s : State) : (jump k s).rowLen = s.rowLen := rfl
@[simp] theorem jump_calTable (k : Nat) (s : State) : (jump k s).calTable = s.calTable := rfl
@[simp] theorem jump_inBuf (k : Nat) (s : State) : (jump k s).inBuf = s.inBuf := rfl
@[simp] theorem jump_outMem (k : Nat) (s : State) : (jump k s).outMem = s.outMem := rfl
@[simp] theorem jump_hostProg (k : Nat) (s : State) : (jump k s).hostProg = s.hostProg := rfl
@[simp] theorem jump_hostPc (k : Nat) (s : State) : (jump k s).hostPc = k := rfl
@[simp] theorem jump_hostR (k : Nat) (s : State) : (jump k s).hostR = s.hostR := rfl
@[simp] theorem jump_hostEntry (k : Nat) (s : State) : (jump k s).hostEntry = s.hostEntry := rfl
@[simp] theorem jump_turns (k : Nat) (s : State) : (jump k s).turns = s.turns := rfl
@[simp] theorem jump_outOld (k : Nat) (s : State) : (jump k s).outOld = s.outOld := rfl
@[simp] theorem jump_inputDirty (k : Nat) (s : State) : (jump k s).inputDirty = s.inputDirty := rfl
@[simp] theorem jump_contested (k : Nat) (s : State) : (jump k s).contested = s.contested := rfl
@[simp] theorem jump_seenWord (k : Nat) (s : State) : (jump k s).seenWord = s.seenWord := rfl
@[simp] theorem jump_seenValid (k : Nat) (s : State) : (jump k s).seenValid = s.seenValid := rfl
@[simp] theorem jump_powerOns (k : Nat) (s : State) : (jump k s).powerOns = s.powerOns := rfl
@[simp] theorem jump_draws (k : Nat) (s : State) : (jump k s).draws = s.draws := rfl

/-! ### setTurns -/

@[simp] theorem setTurns_phase (turns : List Turn) (s : State) : (setTurns turns s).phase = s.phase := rfl
@[simp] theorem setTurns_mode (turns : List Turn) (s : State) : (setTurns turns s).mode = s.mode := rfl
@[simp] theorem setTurns_n (turns : List Turn) (s : State) : (setTurns turns s).n = s.n := rfl
@[simp] theorem setTurns_done (turns : List Turn) (s : State) : (setTurns turns s).done = s.done := rfl
@[simp] theorem setTurns_err (turns : List Turn) (s : State) : (setTurns turns s).err = s.err := rfl
@[simp] theorem setTurns_errCode (turns : List Turn) (s : State) : (setTurns turns s).errCode = s.errCode := rfl
@[simp] theorem setTurns_addrNz (turns : List Turn) (s : State) : (setTurns turns s).addrNz = s.addrNz := rfl
@[simp] theorem setTurns_wwb (turns : List Turn) (s : State) : (setTurns turns s).wwb = s.wwb := rfl
@[simp] theorem setTurns_ie (turns : List Turn) (s : State) : (setTurns turns s).ie = s.ie := rfl
@[simp] theorem setTurns_tReg (turns : List Turn) (s : State) : (setTurns turns s).tReg = s.tReg := rfl
@[simp] theorem setTurns_byteLen (turns : List Turn) (s : State) : (setTurns turns s).byteLen = s.byteLen := rfl
@[simp] theorem setTurns_loaded (turns : List Turn) (s : State) : (setTurns turns s).loaded = s.loaded := rfl
@[simp] theorem setTurns_calIdx (turns : List Turn) (s : State) : (setTurns turns s).calIdx = s.calIdx := rfl
@[simp] theorem setTurns_wordCnt (turns : List Turn) (s : State) : (setTurns turns s).wordCnt = s.wordCnt := rfl
@[simp] theorem setTurns_validCnt (turns : List Turn) (s : State) : (setTurns turns s).validCnt = s.validCnt := rfl
@[simp] theorem setTurns_cycles (turns : List Turn) (s : State) : (setTurns turns s).cycles = s.cycles := rfl
@[simp] theorem setTurns_rowLen (turns : List Turn) (s : State) : (setTurns turns s).rowLen = s.rowLen := rfl
@[simp] theorem setTurns_calTable (turns : List Turn) (s : State) : (setTurns turns s).calTable = s.calTable := rfl
@[simp] theorem setTurns_inBuf (turns : List Turn) (s : State) : (setTurns turns s).inBuf = s.inBuf := rfl
@[simp] theorem setTurns_outMem (turns : List Turn) (s : State) : (setTurns turns s).outMem = s.outMem := rfl
@[simp] theorem setTurns_hostProg (turns : List Turn) (s : State) : (setTurns turns s).hostProg = s.hostProg := rfl
@[simp] theorem setTurns_hostPc (turns : List Turn) (s : State) : (setTurns turns s).hostPc = s.hostPc := rfl
@[simp] theorem setTurns_hostR (turns : List Turn) (s : State) : (setTurns turns s).hostR = s.hostR := rfl
@[simp] theorem setTurns_hostEntry (turns : List Turn) (s : State) : (setTurns turns s).hostEntry = s.hostEntry := rfl
@[simp] theorem setTurns_turns (turns : List Turn) (s : State) : (setTurns turns s).turns = turns := rfl
@[simp] theorem setTurns_outOld (turns : List Turn) (s : State) : (setTurns turns s).outOld = s.outOld := rfl
@[simp] theorem setTurns_inputDirty (turns : List Turn) (s : State) : (setTurns turns s).inputDirty = s.inputDirty := rfl
@[simp] theorem setTurns_contested (turns : List Turn) (s : State) : (setTurns turns s).contested = s.contested := rfl
@[simp] theorem setTurns_seenWord (turns : List Turn) (s : State) : (setTurns turns s).seenWord = s.seenWord := rfl
@[simp] theorem setTurns_seenValid (turns : List Turn) (s : State) : (setTurns turns s).seenValid = s.seenValid := rfl
@[simp] theorem setTurns_powerOns (turns : List Turn) (s : State) : (setTurns turns s).powerOns = s.powerOns := rfl
@[simp] theorem setTurns_draws (turns : List Turn) (s : State) : (setTurns turns s).draws = s.draws := rfl

/-! ### setHostEntry -/

@[simp] theorem setHostEntry_phase (e : Entry) (s : State) : (setHostEntry e s).phase = s.phase := rfl
@[simp] theorem setHostEntry_mode (e : Entry) (s : State) : (setHostEntry e s).mode = s.mode := rfl
@[simp] theorem setHostEntry_n (e : Entry) (s : State) : (setHostEntry e s).n = s.n := rfl
@[simp] theorem setHostEntry_done (e : Entry) (s : State) : (setHostEntry e s).done = s.done := rfl
@[simp] theorem setHostEntry_err (e : Entry) (s : State) : (setHostEntry e s).err = s.err := rfl
@[simp] theorem setHostEntry_errCode (e : Entry) (s : State) : (setHostEntry e s).errCode = s.errCode := rfl
@[simp] theorem setHostEntry_addrNz (e : Entry) (s : State) : (setHostEntry e s).addrNz = s.addrNz := rfl
@[simp] theorem setHostEntry_wwb (e : Entry) (s : State) : (setHostEntry e s).wwb = s.wwb := rfl
@[simp] theorem setHostEntry_ie (e : Entry) (s : State) : (setHostEntry e s).ie = s.ie := rfl
@[simp] theorem setHostEntry_tReg (e : Entry) (s : State) : (setHostEntry e s).tReg = s.tReg := rfl
@[simp] theorem setHostEntry_byteLen (e : Entry) (s : State) : (setHostEntry e s).byteLen = s.byteLen := rfl
@[simp] theorem setHostEntry_loaded (e : Entry) (s : State) : (setHostEntry e s).loaded = s.loaded := rfl
@[simp] theorem setHostEntry_calIdx (e : Entry) (s : State) : (setHostEntry e s).calIdx = s.calIdx := rfl
@[simp] theorem setHostEntry_wordCnt (e : Entry) (s : State) : (setHostEntry e s).wordCnt = s.wordCnt := rfl
@[simp] theorem setHostEntry_validCnt (e : Entry) (s : State) : (setHostEntry e s).validCnt = s.validCnt := rfl
@[simp] theorem setHostEntry_cycles (e : Entry) (s : State) : (setHostEntry e s).cycles = s.cycles := rfl
@[simp] theorem setHostEntry_rowLen (e : Entry) (s : State) : (setHostEntry e s).rowLen = s.rowLen := rfl
@[simp] theorem setHostEntry_calTable (e : Entry) (s : State) : (setHostEntry e s).calTable = s.calTable := rfl
@[simp] theorem setHostEntry_inBuf (e : Entry) (s : State) : (setHostEntry e s).inBuf = s.inBuf := rfl
@[simp] theorem setHostEntry_outMem (e : Entry) (s : State) : (setHostEntry e s).outMem = s.outMem := rfl
@[simp] theorem setHostEntry_hostProg (e : Entry) (s : State) : (setHostEntry e s).hostProg = s.hostProg := rfl
@[simp] theorem setHostEntry_hostPc (e : Entry) (s : State) : (setHostEntry e s).hostPc = s.hostPc := rfl
@[simp] theorem setHostEntry_hostR (e : Entry) (s : State) : (setHostEntry e s).hostR = s.hostR := rfl
@[simp] theorem setHostEntry_hostEntry (e : Entry) (s : State) : (setHostEntry e s).hostEntry = e := rfl
@[simp] theorem setHostEntry_turns (e : Entry) (s : State) : (setHostEntry e s).turns = s.turns := rfl
@[simp] theorem setHostEntry_outOld (e : Entry) (s : State) : (setHostEntry e s).outOld = s.outOld := rfl
@[simp] theorem setHostEntry_inputDirty (e : Entry) (s : State) : (setHostEntry e s).inputDirty = s.inputDirty := rfl
@[simp] theorem setHostEntry_contested (e : Entry) (s : State) : (setHostEntry e s).contested = s.contested := rfl
@[simp] theorem setHostEntry_seenWord (e : Entry) (s : State) : (setHostEntry e s).seenWord = s.seenWord := rfl
@[simp] theorem setHostEntry_seenValid (e : Entry) (s : State) : (setHostEntry e s).seenValid = s.seenValid := rfl
@[simp] theorem setHostEntry_powerOns (e : Entry) (s : State) : (setHostEntry e s).powerOns = s.powerOns := rfl
@[simp] theorem setHostEntry_draws (e : Entry) (s : State) : (setHostEntry e s).draws = s.draws := rfl

end Sys2Proof.Machine
end

