-- ==== Sys2Proof/Laws/Memory.lean ====
section
/-! SUPPORT. The memories: read after write, the canonical form kept by every operation, and the order of two writes. -/

namespace Sys2Proof.Machine

variable {w : Nat}

@[simp] theorem get_nil (a : Nat) : Memory.get ([] : Memory w) a = none := rfl

/-- Read after write. -/
theorem get_set (m : Memory w) (a : Nat) (v : BitVec w) (b : Nat) :
    (m.set a v).get b = if b = a then some v else m.get b := by
  induction m with
  | nil => simp [Memory.set, Memory.get]
  | cons p m ih =>
    obtain ⟨c, u⟩ := p
    simp only [Memory.set]
    split
    · simp [Memory.get]
    · split
      · subst_vars
        simp only [Memory.get]
        split <;> rfl
      · simp only [Memory.get, ih]
        by_cases hbc : b = c
        · have : b ≠ a := by omega
          simp [hbc]
          omega
        · simp [hbc]

@[simp] theorem get_set_self (m : Memory w) (a : Nat) (v : BitVec w) : (m.set a v).get a = some v := by
  simp [get_set]

theorem get_set_ne (m : Memory w) {a b : Nat} (v : BitVec w) (h : b ≠ a) : (m.set a v).get b = m.get b := by
  simp [get_set, h]

/-- The addresses a write lists. -/
theorem mem_set_fst {m : Memory w} {a : Nat} {v : BitVec w} {p : Nat × BitVec w} (h : p ∈ m.set a v) :
    p.1 = a ∨ p ∈ m := by
  induction m with
  | nil => simp [Memory.set] at h; simp [h]
  | cons q m ih =>
    obtain ⟨c, u⟩ := q
    simp only [Memory.set] at h
    split at h
    · simp only [List.mem_cons] at h ⊢
      rcases h with h | h | h
      · simp [h]
      · simp [h]
      · simp [h]
    · split at h
      · simp only [List.mem_cons] at h ⊢
        rcases h with h | h
        · simp [h]
        · simp [h]
      · simp only [List.mem_cons] at h ⊢
        rcases h with h | h
        · simp [h]
        · rcases ih h with h | h <;> simp [h]

/-- A write keeps the canonical form. -/
theorem wf_set {m : Memory w} (h : m.wf) (a : Nat) (v : BitVec w) : (m.set a v).wf := by
  induction m with
  | nil => simp [Memory.set, Memory.wf]
  | cons q m ih =>
    obtain ⟨c, u⟩ := q
    have hm : Memory.wf m := (List.pairwise_cons.1 h).2
    have hc : ∀ p ∈ m, c < p.1 := fun p hp => (List.pairwise_cons.1 h).1 _ (List.mem_map_of_mem hp)
    simp only [Memory.set]
    split
    · rename_i hlt
      refine List.pairwise_cons.2 ⟨?_, h⟩
      intro x hx
      simp only [List.map_cons, List.mem_cons, List.mem_map] at hx
      rcases hx with hx | ⟨p, hp, hx⟩
      · simpa [hx] using hlt
      · have := hc p hp
        simp only at hlt ⊢
        omega
    · split
      · subst_vars
        exact h
      · refine List.pairwise_cons.2 ⟨?_, ih hm⟩
        intro x hx
        obtain ⟨p, hp, rfl⟩ := List.mem_map.1 hx
        simp only
        rcases mem_set_fst hp with h' | h'
        · omega
        · exact hc p h'

/-- A write inside the address space keeps every listed address inside it. -/
theorem below_set {m : Memory w} {size a : Nat} (h : m.below size) (ha : a < size) (v : BitVec w) :
    (m.set a v).below size := by
  intro p hp
  rcases mem_set_fst hp with h' | h'
  · omega
  · exact h p h'

theorem get_append (m m' : Memory w) (a : Nat) : Memory.get (m ++ m') a = (m.get a).or (Memory.get m' a) := by
  induction m with
  | nil => simp
  | cons p m ih =>
    obtain ⟨b, v⟩ := p
    simp only [List.cons_append, Memory.get]
    split <;> simp [ih]

theorem get_eq_none {m : Memory w} {a : Nat} (h : ∀ p ∈ m, p.1 ≠ a) : m.get a = none := by
  induction m with
  | nil => rfl
  | cons p m ih =>
    obtain ⟨b, v⟩ := p
    have hb := h (b, v) (by simp)
    simp only [Memory.get]
    rw [if_neg (by simpa [eq_comm] using hb)]
    exact ih fun q hq => h q (by simp [hq])

theorem get_filter_le (m : Memory w) (size a : Nat) :
    Memory.get (m.filter fun p => decide (size ≤ p.1)) a = if size ≤ a then m.get a else none := by
  induction m with
  | nil => simp
  | cons p m ih =>
    obtain ⟨b, v⟩ := p
    by_cases hb : size ≤ b
    · rw [List.filter_cons_of_pos (by simpa using hb)]
      simp only [Memory.get, ih]
      by_cases hab : a = b
      · simp [hab, hb]
      · simp [hab]
    · rw [List.filter_cons_of_neg (by simpa using hb), ih]
      simp only [Memory.get]
      by_cases hab : a = b
      · simp [hab, hb]
      · simp [hab]

theorem get_filterMap_range (size : Nat) (f : Nat → Option (BitVec w)) (a : Nat) :
    Memory.get ((List.range size).filterMap fun b => (f b).map fun v => (b, v)) a =
      if a < size then f a else none := by
  induction size with
  | zero => simp
  | succ n ih =>
    rw [List.range_succ, List.filterMap_append, get_append, ih]
    by_cases h : a < n
    · have h1 : a < n + 1 := by omega
      cases hf : f a with
      | some v => simp [h, h1]
      | none =>
        simp only [h, h1, if_true, Option.none_or]
        apply get_eq_none
        intro p hp
        simp only [List.filterMap_cons, List.filterMap_nil] at hp
        cases hn : f n <;> simp [hn] at hp
        subst hp
        simp only
        omega
    · by_cases h2 : a = n
      · subst h2
        cases hf : f a <;> simp [hf, Memory.get]
      · have h3 : ¬ a < n + 1 := by omega
        simp only [h, h3, if_false, Option.none_or]
        cases hf : f n <;> simp [hf, Memory.get, h2]

/-- What a replaced memory reads as. -/
theorem get_replaceBelow (m : Memory w) (size : Nat) (f : Nat → Option (BitVec w)) (a : Nat) :
    (m.replaceBelow size f).get a = if a < size then f a else m.get a := by
  rw [Memory.replaceBelow, get_append, get_filterMap_range, get_filter_le]
  by_cases h : a < size
  · have h2 : ¬ size ≤ a := by omega
    simp [h, h2]
  · have h2 : size ≤ a := by omega
    simp [h, h2]

theorem mem_replaceBelow_fst {m : Memory w} {size : Nat} {f : Nat → Option (BitVec w)} {p : Nat × BitVec w}
    (h : p ∈ m.replaceBelow size f) : p.1 < size ∨ p ∈ m := by
  rw [Memory.replaceBelow, List.mem_append] at h
  rcases h with h | h
  · left
    obtain ⟨b, hb, hp⟩ := List.mem_filterMap.1 h
    cases hf : f b <;> simp [hf] at hp
    subst hp
    simpa using hb
  · exact .inr (List.mem_filter.1 h).1

/-- Replacing the cells below a bound keeps the canonical form. -/
theorem wf_replaceBelow {m : Memory w} (h : m.wf) (size : Nat) (f : Nat → Option (BitVec w)) :
    (m.replaceBelow size f).wf := by
  have h' : m.Pairwise fun p q => p.1 < q.1 := List.pairwise_map.1 h
  refine List.pairwise_map.2 (List.pairwise_append.2 ⟨?_, h'.filter _, ?_⟩)
  · refine List.Pairwise.filterMap _ (S := fun p q : Nat × BitVec w => p.1 < q.1) ?_ List.pairwise_lt_range
    intro a b hab p hp q hq
    cases ha : f a <;> simp [ha] at hp
    cases hb : f b <;> simp [hb] at hq
    subst hp hq
    exact hab
  · intro p hp q hq
    obtain ⟨b, hb, hp⟩ := List.mem_filterMap.1 hp
    have hq := (List.mem_filter.1 hq).2
    simp only [decide_eq_true_eq] at hq
    cases hf : f b <;> simp [hf] at hp
    subst hp
    simp only [List.mem_range] at hb
    simp only
    omega

theorem below_replaceBelow {m : Memory w} {size bound : Nat} (h : m.below bound) (hs : size ≤ bound)
    (f : Nat → Option (BitVec w)) : (m.replaceBelow size f).below bound := by
  intro p hp
  rcases mem_replaceBelow_fst hp with h' | h'
  · omega
  · exact h p h'

/-! ## Equal memories are equal data -/

theorem head_least {m : Memory w} {a : Nat} {v : BitVec w} (h : Memory.wf ((a, v) :: m)) {b : Nat} (hb : b ≤ a) :
    m.get b = none :=
  get_eq_none fun p hp => by
    have := (List.pairwise_cons.1 h).1 _ (List.mem_map_of_mem hp)
    simp only at this
    omega

/-- Two memories in canonical form that read alike are the same list. -/
theorem eq_of_get {m m' : Memory w} (h : m.wf) (h' : m'.wf) (hg : ∀ a, m.get a = m'.get a) : m = m' := by
  induction m generalizing m' with
  | nil =>
    cases m' with
    | nil => rfl
    | cons p m' =>
      have := hg p.1
      simp [Memory.get] at this
  | cons p m ih =>
    obtain ⟨a, v⟩ := p
    cases m' with
    | nil =>
      have := hg a
      simp [Memory.get] at this
    | cons q m' =>
      obtain ⟨b, u⟩ := q
      have hab : a = b := by
        rcases Nat.lt_trichotomy a b with hlt | heq | hlt
        · have h1 := hg a
          have h2 := head_least h' (Nat.le_of_lt hlt)
          simp [Memory.get, Nat.ne_of_lt hlt, h2] at h1
        · exact heq
        · have h1 := hg b
          have h2 := head_least h (Nat.le_of_lt hlt)
          simp [Memory.get, Nat.ne_of_lt hlt, h2] at h1
      subst hab
      have hv : v = u := by simpa [Memory.get] using hg a
      subst hv
      congr 1
      refine ih (List.pairwise_cons.1 h).2 (List.pairwise_cons.1 h').2 fun c => ?_
      have h1 := hg c
      by_cases hc : c = a
      · subst hc
        rw [head_least h (Nat.le_refl c), head_least h' (Nat.le_refl c)]
      · simpa [Memory.get, hc] using h1

/-- Writes to two addresses give the same memory in either order. -/
theorem set_comm {m : Memory w} (h : m.wf) {a b : Nat} (hab : a ≠ b) (u v : BitVec w) :
    (m.set a u).set b v = (m.set b v).set a u := by
  refine eq_of_get (wf_set (wf_set h _ _) _ _) (wf_set (wf_set h _ _) _ _) fun c => ?_
  simp only [get_set]
  by_cases hca : c = a <;> by_cases hcb : c = b
  · omega
  · simp [hca, hab]
  · simp [hcb, hab.symm]
  · simp [hca, hcb]

/-! ## Reads of the state after a write -/

theorem outEntry_outWrite (s : State) (x : Nat) (e : Entry) (y : Nat) :
    outEntry (outWrite s x e) y = if y = x then e else outEntry s y := by
  unfold outEntry
  rw [outWrite_outMem, get_set]
  split <;> rfl

/-- A host store to an entry of the command in progress. -/
theorem outEntry_contest (x : Nat) (e : Entry) (s : State) (y : Nat) :
    outEntry (contest x e s) y = if y = x then e else outEntry s y := by
  unfold outEntry
  rw [contest_outMem, get_set]
  split <;> rfl

/-- A host store to an entry of the command in progress is its old contents from then on. -/
theorem oldEntry_contest (x : Nat) (e : Entry) (s : State) (y : Nat) :
    oldEntry (contest x e s) y = if y = x then e else oldEntry s y := by
  unfold oldEntry
  rw [contest_outOld, get_set]
  split <;> rfl

/-- The entries that a host store makes the host's. -/
theorem mem_contested_contest (x : Nat) (e : Entry) (s : State) (y : Nat) :
    y ∈ (contest x e s).contested ↔ y ∈ s.contested ∨ (y = x ∧ sourceWord s x < s.n.toNat) := by
  rw [contest_contested]
  split
  · rename_i h
    rw [List.mem_insert_iff]
    tauto
  · rename_i h
    tauto

/-- The reads of a memory depend on that memory alone. -/
theorem outEntry_congr {s t : State} (h : t.outMem = s.outMem) (x : Nat) : outEntry t x = outEntry s x := by
  simp [outEntry, h]

theorem inRead_congr {s t : State} (h : t.inBuf = s.inBuf) (a : Nat) : inRead t a = inRead s a := by
  simp [inRead, inByte, h]

theorem calEntry_congr {s t : State} (h : t.calTable = s.calTable) (hp : t.powerOns = s.powerOns) (x : Nat) :
    calEntry t x = calEntry s x := by
  simp [calEntry, h, hp]

theorem inByte_storeInput (a : Nat) (b : Byte) (s : State) (c : Nat) :
    inByte (storeInput a b s) c = if c = a then b else inByte s c := by
  unfold inByte
  rw [storeInput_inBuf, get_set]
  split <;> rfl

end Sys2Proof.Machine
end

