-- ==== Sys2Proof/Laws/Encoding.lean ====
section
/-! SUPPORT. The fields of encoded words: what each extraction of Decode.lean gives on a word put together by the
encoder, and the two ways round for whole words. -/

namespace Sys2Proof

theorem packetValid_eq (w : Word) : packetValid w = decide (2 ^ 31 ≤ w.toNat) := by
  unfold packetValid
  rw [← BitVec.msb_eq_getLsbD_last (x := w), BitVec.msb_eq_decide]

theorem packetAddr_toNat (w : Word) : (packetAddr w).toNat = w.toNat / 2 ^ 28 % 4 := by
  simp [packetAddr, BitVec.extractLsb'_toNat, Nat.shiftRight_eq_div_pow]

theorem packetCount_toNat (w : Word) : (packetCount w).toNat = w.toNat % 2 ^ 28 := by
  simp [packetCount, BitVec.extractLsb'_toNat]

theorem packetBit30_toNat (w : Word) : (packetBit30 w).toNat = w.toNat / 2 ^ 30 % 2 := by
  simp [packetBit30, BitVec.extractLsb'_toNat, Nat.shiftRight_eq_div_pow]

/-- Concatenation by arithmetic. -/
theorem toNat_append_eq {m n : Nat} (x : BitVec m) (y : BitVec n) :
    (x ++ y).toNat = x.toNat * 2 ^ n + y.toNat := by
  rw [BitVec.toNat_append, ← Nat.shiftLeft_add_eq_or_of_lt y.isLt, Nat.shiftLeft_eq]

/-! ## Packets -/

theorem packet_toNat (v r : BitVec 1) (a : BitVec 2) (count : BitVec 28) :
    BitVec.toNat (w := 32) (v ++ r ++ a ++ count) =
      v.toNat * 2 ^ 31 + r.toNat * 2 ^ 30 + a.toNat * 2 ^ 28 + count.toNat := by
  have h : BitVec.toNat (v ++ r ++ a ++ count) =
      v.toNat * 2 ^ 31 + r.toNat * 2 ^ 30 + a.toNat * 2 ^ 28 + count.toNat := by
    simp only [toNat_append_eq]
    omega
  exact h

theorem packet_fields (v r : BitVec 1) (a : BitVec 2) (count : BitVec 28) :
    packetValid (v ++ r ++ a ++ count) = decide (v = 1) ∧ packetBit30 (v ++ r ++ a ++ count) = r ∧
    packetAddr (v ++ r ++ a ++ count) = a ∧ packetCount (v ++ r ++ a ++ count) = count := by
  have hv := v.isLt
  have hr := r.isLt
  have ha := a.isLt
  have hc := count.isLt
  refine ⟨?_, ?_, ?_, ?_⟩
  · rw [packetValid_eq, packet_toNat, decide_eq_decide, ← BitVec.toNat_inj]
    simp
    omega
  · apply BitVec.eq_of_toNat_eq
    rw [packetBit30_toNat, packet_toNat]
    omega
  · apply BitVec.eq_of_toNat_eq
    rw [packetAddr_toNat, packet_toNat]
    omega
  · apply BitVec.eq_of_toNat_eq
    rw [packetCount_toNat, packet_toNat]
    omega

/-- A packet is its fields put together. -/
theorem packet_of_fields (w : Word) :
    (BitVec.ofBool (packetValid w) ++ packetBit30 w ++ packetAddr w ++ packetCount w : BitVec 32) = w := by
  apply BitVec.eq_of_toNat_eq
  rw [packet_toNat, packetBit30_toNat, packetAddr_toNat, packetCount_toNat, packetValid_eq]
  have := w.isLt
  by_cases h : 2 ^ 31 ≤ w.toNat
  · simp only [h, decide_true, BitVec.ofBool_true]
    simp
    omega
  · simp only [h, decide_false, BitVec.ofBool_false]
    simp
    omega

/-! ## Commands -/

theorem commandIgnored_toNat (d : Word) : (commandIgnored d).toNat = d.toNat / 16 := by
  have := d.isLt
  simp [commandIgnored, BitVec.extractLsb'_toNat, Nat.shiftRight_eq_div_pow]
  omega

theorem and_mask_eq (d c : Word) (k : Nat) (hk : k ≤ 32) :
    d &&& BitVec.ofNat 32 (2 ^ k - 1) = c ↔ d.toNat % 2 ^ k = c.toNat := by
  rw [← BitVec.toNat_inj, BitVec.toNat_and, BitVec.toNat_ofNat, Nat.mod_eq_of_lt (a := 2 ^ k - 1),
    Nat.and_two_pow_sub_one_eq_mod]
  have : 2 ^ k ≤ 2 ^ 32 := Nat.pow_le_pow_right (by omega) hk
  have : 0 < 2 ^ k := Nat.two_pow_pos k
  omega

theorem and_fifteen (d c : Word) : d &&& 0x0000000F#32 = c ↔ d.toNat % 16 = c.toNat :=
  and_mask_eq d c 4 (by omega)

/-- The mask of the row RESERVED_CMD_4_7. -/
theorem nat_and_twelve (x : Nat) : x &&& 12 = x / 4 % 4 * 4 := by
  have h1 : (12 : Nat) = 3 <<< 2 := rfl
  have h2 : x &&& 3 <<< 2 = ((x >>> 2) &&& 3) <<< 2 := by
    apply Nat.eq_of_testBit_eq
    intro i
    simp only [Nat.testBit_and, Nat.testBit_shiftLeft, Nat.testBit_shiftRight]
    by_cases hi : 2 ≤ i <;> simp [hi]
  have h3 := Nat.and_two_pow_sub_one_eq_mod (x / 2 ^ 2) 2
  rw [h1, h2, Nat.shiftRight_eq_div_pow, Nat.shiftLeft_eq]
  simp at h3
  simp [h3]

/-- A mask of one bit. -/
theorem nat_and_two_pow (x k : Nat) : x &&& 2 ^ k = x / 2 ^ k % 2 * 2 ^ k := by
  rw [Nat.and_two_pow, ← Nat.toNat_testBit]

theorem and_twelve (d : Word) : d &&& 0x0000000C#32 = 0x00000004#32 ↔ d.toNat / 4 % 4 = 1 := by
  rw [← BitVec.toNat_inj, BitVec.toNat_and]
  simp [nat_and_twelve]

/-- The choice of R100 by the data's value modulo 16. -/
theorem commandCases_eq {α : Type} (d : Word) (f0 f1 f2 f3 : BitVec 28 → α) (f4 : BitVec 2 → BitVec 28 → α)
    (f8 : BitVec 3 → BitVec 28 → α) :
    commandCases d f0 f1 f2 f3 f4 f8 =
      if d.toNat % 16 = 0 then f0 (commandIgnored d)
      else if d.toNat % 16 = 1 then f1 (commandIgnored d)
      else if d.toNat % 16 = 2 then f2 (commandIgnored d)
      else if d.toNat % 16 = 3 then f3 (commandIgnored d)
      else if d.toNat % 16 < 8 then f4 (d.extractLsb' 0 2) (commandIgnored d)
      else f8 (d.extractLsb' 0 3) (commandIgnored d) := by
  simp only [commandCases, and_fifteen, and_twelve]
  simp only [BitVec.toNat_ofNat, Nat.reducePow, Nat.reduceMod]
  have : d.toNat % 16 < 16 := Nat.mod_lt _ (by omega)
  split
  · rfl
  · split
    · rfl
    · split
      · rfl
      · split
        · rfl
        · have : d.toNat / 4 % 4 = 1 ↔ d.toNat % 16 < 8 := by omega
          simp only [this]

theorem command_toNat (g : BitVec 28) (c : BitVec 4) :
    BitVec.toNat (w := 32) (g ++ c) = g.toNat * 16 + c.toNat := toNat_append_eq g c

theorem command47_toNat (g : BitVec 28) (c low : BitVec 2) :
    BitVec.toNat (w := 32) (g ++ c ++ low) = g.toNat * 16 + c.toNat * 4 + low.toNat := by
  have h : BitVec.toNat (g ++ c ++ low) = g.toNat * 16 + c.toNat * 4 + low.toNat := by
    simp only [toNat_append_eq]
    omega
  exact h

theorem command8F_toNat (g : BitVec 28) (c : BitVec 1) (low : BitVec 3) :
    BitVec.toNat (w := 32) (g ++ c ++ low) = g.toNat * 16 + c.toNat * 8 + low.toNat := by
  have h : BitVec.toNat (g ++ c ++ low) = g.toNat * 16 + c.toNat * 8 + low.toNat := by
    simp only [toNat_append_eq]
    omega
  exact h

theorem commandIgnored_of_toNat {d : Word} {g : BitVec 28} (h : d.toNat / 16 = g.toNat) : commandIgnored d = g :=
  BitVec.eq_of_toNat_eq (by rw [commandIgnored_toNat, h])

theorem extract_low_toNat (d : Word) (k : Nat) : (d.extractLsb' 0 k).toNat = d.toNat % 2 ^ k := by
  simp [BitVec.extractLsb'_toNat]

/-! ## Transactions -/

theorem transaction_toNat (v : BitVec 1) (offset : BitVec 8) (data : BitVec 32) :
    BitVec.toNat (w := 41) (v ++ offset ++ data) = v.toNat * 2 ^ 40 + offset.toNat * 2 ^ 32 + data.toNat := by
  have h : BitVec.toNat (v ++ offset ++ data) = v.toNat * 2 ^ 40 + offset.toNat * 2 ^ 32 + data.toNat := by
    simp only [toNat_append_eq]
    omega
  exact h

theorem transactionWrite_eq (x : Transaction) : x.getLsbD 40 = decide (2 ^ 40 ≤ x.toNat) := by
  rw [← BitVec.msb_eq_getLsbD_last (x := x), BitVec.msb_eq_decide]

theorem transactionOffset_toNat (x : Transaction) : (x.extractLsb' 32 8).toNat = x.toNat / 2 ^ 32 % 256 := by
  simp [BitVec.extractLsb'_toNat, Nat.shiftRight_eq_div_pow]

theorem transactionData_toNat (x : Transaction) : (x.extractLsb' 0 32).toNat = x.toNat % 2 ^ 32 := by
  simp [BitVec.extractLsb'_toNat]

/-- A transaction is its fields put together. -/
theorem transaction_of_fields (x : Transaction) :
    (BitVec.ofBool (x.getLsbD 40) ++ x.extractLsb' 32 8 ++ x.extractLsb' 0 32 : BitVec 41) = x := by
  apply BitVec.eq_of_toNat_eq
  rw [transaction_toNat, transactionOffset_toNat, transactionData_toNat, transactionWrite_eq]
  have := x.isLt
  by_cases h : 2 ^ 40 ≤ x.toNat
  · simp only [h, decide_true, BitVec.ofBool_true]
    simp
    omega
  · simp only [h, decide_false, BitVec.ofBool_false]
    simp
    omega

/-! ## Bytes -/

theorem wordOfBytes_toNat (b0 b1 b2 b3 : Byte) :
    (wordOfBytes b0 b1 b2 b3).toNat =
      b0.toNat + 2 ^ 8 * b1.toNat + 2 ^ 16 * b2.toNat + 2 ^ 24 * b3.toNat := by
  have h : BitVec.toNat (b3 ++ b2 ++ b1 ++ b0) =
      b0.toNat + 2 ^ 8 * b1.toNat + 2 ^ 16 * b2.toNat + 2 ^ 24 * b3.toNat := by
    simp only [toNat_append_eq]
    omega
  exact h

/-- The four low bytes of a number put together. -/
theorem wordOfBytes_ofNat (w : Nat) :
    wordOfBytes (BitVec.ofNat 8 w) (BitVec.ofNat 8 (w / 256)) (BitVec.ofNat 8 (w / 256 / 256))
      (BitVec.ofNat 8 (w / 256 / 256 / 256)) = BitVec.ofNat 32 w := by
  apply BitVec.eq_of_toNat_eq
  rw [wordOfBytes_toNat]
  simp only [BitVec.toNat_ofNat]
  omega

end Sys2Proof
end

