-- ==== Sys2Proof/Laws/Operands.lean ====
section
/-! SUPPORT. Operand forms: the fields and the range of entries (30_encoding.md R95), the register an offset names, and
the arithmetic of the output address (41_cycle_reshaper.md R153). -/

namespace Sys2Proof.Machine

/-! ## Entries -/

theorem mkEntry_toNat (v : Bool) (a : BitVec 2) (x : Int) :
    (mkEntry v a x).toNat = v.toNat * 2 ^ 63 + a.toNat * 2 ^ 61 + (x % 2 ^ 61).toNat := by
  have h : BitVec.toNat (BitVec.ofBool v ++ a ++ BitVec.ofInt 61 x) =
      v.toNat * 2 ^ 63 + a.toNat * 2 ^ 61 + (x % 2 ^ 61).toNat := by
    simp only [toNat_append_eq, BitVec.toNat_ofInt, BitVec.toNat_ofBool]
    have : (x % (2 ^ 61 : Nat)).toNat = (x % 2 ^ 61).toNat := by norm_num
    omega
  exact h

theorem entryValid_eq (e : Entry) : entryValid e = decide (2 ^ 63 ≤ e.toNat) := by
  unfold entryValid
  rw [← BitVec.msb_eq_getLsbD_last (x := e), BitVec.msb_eq_decide]

theorem entryAddr_toNat (e : Entry) : (entryAddr e).toNat = e.toNat / 2 ^ 61 % 4 := by
  simp [entryAddr, BitVec.extractLsb'_toNat, Nat.shiftRight_eq_div_pow]

theorem mod_toNat_lt (x : Int) : (x % 2 ^ 61).toNat < 2 ^ 61 := by omega

@[simp] theorem entryValid_mkEntry (v : Bool) (a : BitVec 2) (x : Int) : entryValid (mkEntry v a x) = v := by
  have h := mod_toNat_lt x
  have ha := a.isLt
  rw [entryValid_eq, mkEntry_toNat]
  cases v
  · simp only [Bool.toNat_false, decide_eq_false_iff_not]
    omega
  · simp only [Bool.toNat_true, decide_eq_true_eq]
    omega

@[simp] theorem entryAddr_mkEntry (v : Bool) (a : BitVec 2) (x : Int) : entryAddr (mkEntry v a x) = a := by
  have h := mod_toNat_lt x
  have ha := a.isLt
  apply BitVec.eq_of_toNat_eq
  rw [entryAddr_toNat, mkEntry_toNat]
  cases v <;> simp only [Bool.toNat_true, Bool.toNat_false] <;> omega

/-- VALUE of an entry is what it was made from, when that fits 61 signed bits. -/
theorem entryValue_mkEntry (v : Bool) (a : BitVec 2) {x : Int} (h1 : -2 ^ 60 ≤ x) (h2 : x < 2 ^ 60) :
    entryValue (mkEntry v a x) = x := by
  have h : (mkEntry v a x).extractLsb' 0 61 = BitVec.ofInt 61 x := by
    apply BitVec.eq_of_toNat_eq
    rw [BitVec.extractLsb'_toNat, mkEntry_toNat, BitVec.toNat_ofInt]
    have h3 := mod_toNat_lt x
    have h4 : (x % (2 ^ 61 : Nat)).toNat = (x % 2 ^ 61).toNat := by norm_num
    have h5 := a.isLt
    rw [h4]
    cases v <;> simp only [Bool.toNat_true, Bool.toNat_false, Nat.shiftRight_zero] <;> omega
  rw [entryValue, h, BitVec.toInt_ofInt_eq_self] <;> omega

theorem entryValue_sentinelEntry (a : BitVec 2) : entryValue (sentinelEntry a) = -1000 :=
  entryValue_mkEntry _ _ (by decide) (by decide)

/-- R128, R131: the scaled VALUE. -/
theorem entryValue_scaledEntry (a : BitVec 2) (count : BitVec 28) :
    entryValue (scaledEntry a count) = count.toNat * 17857 := by
  have := count.isLt
  rw [scaledEntry, entryValue_mkEntry] <;> push_cast <;> omega

theorem toInt_bounds (x : BitVec 32) : -2147483648 ≤ x.toInt ∧ x.toInt ≤ 2147483647 := by
  have h1 := BitVec.le_toInt x
  have h2 := BitVec.toInt_lt (x := x)
  norm_num at h1 h2
  omega

/-- R186, R188: the corrected VALUE. -/
theorem entryValue_correctedEntry (s : State) (i : Nat) (a : BitVec 2) (count : BitVec 28) :
    entryValue (correctedEntry s i a count) =
      ((count.toNat - count.toNat % 140) * 17857 : Int) + (calEntry s (i * 140 + count.toNat % 140)).toInt := by
  have h := count.isLt
  have hb := toInt_bounds (calEntry s (i * 140 + count.toNat % 140))
  have hc : ((coarseOf count * Config.binFs : Nat) : Int) = (count.toNat - count.toNat % 140) * 17857 := by
    simp only [coarseOf, tapOf, Config.binFs, Config.numBins]
    omega
  rw [correctedEntry, entryValue_mkEntry] <;> rw [hc]
  · rfl
  · simp only [calRead, tapOf, Config.numBins]
    omega
  · simp only [calRead, tapOf, Config.numBins]
    omega

/-- R190: the entry of a word in either mode carries the packet's validity and address field. -/
theorem entryOf_fields (s : State) (i : Nat) (w : Word) :
    entryValid (entryOf s i w) = packetValid w ∧ entryAddr (entryOf s i w) = packetAddr w := by
  unfold entryOf decodeScaled correct sentinelEntry scaledEntry correctedEntry
  cases s.mode <;> cases h : packetValid w <;> simp

/-! ## Registers by offset -/

/-- The register with a given word number, the byte offset divided by 4 (R23, R39). -/
def regNumber : Nat → Reg
  | 0 => .id
  | 1 => .cmd
  | 2 => .status
  | 3 => .irqEn
  | 4 => .tReg
  | 5 => .byteLen
  | 6 => .calCtrl
  | 7 => .calIdx
  | 8 => .calData
  | 9 => .wordCnt
  | 10 => .validCnt
  | 11 => .cycles
  | 12 => .rowLen
  | 13 => .param0
  | 14 => .param1
  | _ => .reserved

/-- R40: the register depends on the offset's upper six bits only. -/
theorem regAt_eq (offset : BitVec 8) : regAt offset = regNumber (offset.toNat / 4) := by
  revert offset
  decide

theorem regAt_of_number {offset : BitVec 8} {k : Nat} (h : offset.toNat / 4 = k) : regAt offset = regNumber k := by
  rw [regAt_eq, h]

theorem regAt_reserved {offset : BitVec 8} (h : 15 ≤ offset.toNat / 4) : regAt offset = .reserved := by
  revert offset
  decide

/-- R23: the offset of each register names it. -/
theorem regAt_offset (reg : Reg) : regAt reg.offset = reg := by
  cases reg <;> decide

/-! ## The output address -/

theorem pixelOf_lt (t n : Nat) : pixelOf t n < 256 := Nat.mod_lt _ (by decide)

theorem slotOf_lt {t : Nat} (h : 1 ≤ t) (n : Nat) : slotOf t n < t := Nat.mod_lt _ (by omega)

/-- A word index is its cycle, pixel and slot (R154). -/
theorem index_parts (t n : Nat) : (pixelOf t n + 256 * cycleOf t n) * t + slotOf t n = n := by
  unfold pixelOf cycleOf slotOf Config.numPixels
  rw [Nat.mod_add_div, Nat.mul_comm]
  exact Nat.div_add_mod n t

/-- The parts of a word index put together from a cycle, a pixel and a slot (R154). -/
theorem parts_of_index {t i k u : Nat} (hu : u < t) (hi : i < 256) :
    pixelOf t ((i + 256 * k) * t + u) = i ∧ cycleOf t ((i + 256 * k) * t + u) = k ∧
      slotOf t ((i + 256 * k) * t + u) = u := by
  have ht : 0 < t := by omega
  have hq : ((i + 256 * k) * t + u) / t = i + 256 * k := by
    rw [Nat.mul_comm, Nat.mul_add_div ht, Nat.div_eq_of_lt hu, Nat.add_zero]
  have hr : ((i + 256 * k) * t + u) % t = u := by
    rw [Nat.mul_comm, Nat.mul_add_mod, Nat.mod_eq_of_lt hu]
  unfold pixelOf cycleOf slotOf Config.numPixels
  rw [hq, hr]
  omega

/-- The cycle of a word below N = 256 · T · C (R153). -/
theorem cycleOf_lt {t c n : Nat} (h : n < 256 * t * c) : cycleOf t n < c := by
  unfold cycleOf Config.numPixels
  rw [Nat.div_div_eq_div_mul]
  apply Nat.div_lt_of_lt_mul
  rw [Nat.mul_comm t 256]
  exact h

/-- The column of a word below N (R153). -/
theorem columnOf_lt {t c n : Nat} (ht : 1 ≤ t) (h : n < 256 * t * c) : columnOf t n < t * c := by
  have h1 := cycleOf_lt h
  have h2 := slotOf_lt ht n
  unfold columnOf
  calc cycleOf t n * t + slotOf t n < cycleOf t n * t + t := by omega
    _ = (cycleOf t n + 1) * t := by ring
    _ ≤ c * t := Nat.mul_le_mul_right t h1
    _ = t * c := Nat.mul_comm c t

end Sys2Proof.Machine
end

