-- ==== Sys2Proof/Laws/Meanings.lean ====
section
/-! SUPPORT. One spec lemma per shared operation of the meanings: the register lock (10_state.md R41), the start of a
command (43_operations.md R215), the choice of a command, and the processing of a word (41_cycle_reshaper.md R160). -/

namespace Sys2Proof.Machine

theorem whileIdle_idle {s : State} (t : State) (h : s.phase = .idle) : whileIdle s t = t := by
  simp [whileIdle, h]

theorem whileIdle_busy {s : State} (t : State) (h : s.phase = .busy) : whileIdle s t = setWwb s := by
  simp [whileIdle, h]

/-- All that a locked write can do. -/
theorem whileIdle_cases (s t : State) :
    (s.phase = .idle ∧ whileIdle s t = t) ∨ (s.phase = .busy ∧ whileIdle s t = setWwb s) := by
  rcases hp : s.phase with _ | _
  · exact .inl ⟨rfl, whileIdle_idle t hp⟩
  · exact .inr ⟨rfl, whileIdle_busy t hp⟩

theorem lengthOk_iff (s : State) : lengthOk s = true ↔ s.byteLen.toNat % 4 = 0 := by simp [lengthOk]

theorem geometryOk_iff (s : State) :
    geometryOk s = true ↔ 1 ≤ s.tReg.toNat ∧ s.byteLen.toNat / 4 % (s.tReg.toNat * 256) = 0 := by
  simp only [geometryOk, wordTotal, Config.numPixels, Bool.and_eq_true, bne_iff_ne, ne_eq, beq_iff_eq]
  omega

/-- The checks pass exactly when the command may start. -/
theorem startError_none_iff (m : Mode) (s : State) :
    startError m s = none ↔ s.byteLen.toNat % 4 = 0 ∧ 1 ≤ s.tReg.toNat ∧
      s.byteLen.toNat / 4 % (s.tReg.toNat * 256) = 0 ∧ (m = .cal → s.loaded = true) := by
  rw [← lengthOk_iff, ← and_assoc (a := 1 ≤ _), ← geometryOk_iff]
  unfold startError
  cases lengthOk s <;> cases geometryOk s <;> cases m <;> cases s.loaded <;> simp

/-- All that the start of a command can do. -/
theorem start_cases (m : Mode) (s : State) :
    (∃ e, startError m s = some e ∧ start m s = fail e (clearProgress (clearCompletion s))) ∨
    (startError m s = none ∧ start m s = beginWords m (clearProgress (clearCompletion s))) := by
  unfold start
  cases h : startError m s with
  | none => exact .inr ⟨rfl, rfl⟩
  | some e => exact .inl ⟨e, rfl, rfl⟩

/-- The command that a write to CMD issues is the instruction its data decodes to (R210). -/
theorem issueCommand_eq (d : Word) (s : State) : issueCommand d s = exec (decodeCommand d) s := by
  unfold issueCommand decodeCommand commandCases
  split
  · rfl
  · split
    · rfl
    · split
      · rfl
      · split
        · rfl
        · split <;> rfl

/-- All that a command row can do in one step (R212 to R219). -/
theorem exec_command_cases {i : Instr} {s t : State} (hi : isCommand i = true) (h : exec i s = .next t) :
    (s.phase = .busy ∧ t = setWwb s) ∨
    (s.phase = .idle ∧ (t = s ∨ (∃ m, t = start m s) ∨ t = illegal s)) := by
  have key : ∀ t', exec i s = .next (whileIdle s t') → t' = s ∨ (∃ m, t' = start m s) ∨ t' = illegal s →
      (s.phase = .busy ∧ t = setWwb s) ∨
      (s.phase = .idle ∧ (t = s ∨ (∃ m, t = start m s) ∨ t = illegal s)) := by
    intro t' h' hc
    rw [h'] at h
    injection h with ht
    subst ht
    rcases whileIdle_cases s t' with ⟨hp, hw⟩ | ⟨hp, hw⟩
    · exact .inr ⟨hp, by rw [hw]; exact hc⟩
    · exact .inl ⟨hp, hw⟩
  cases i with
  | nop g => exact key s rfl (.inl rfl)
  | unpack g => exact key _ rfl (.inr (.inl ⟨.scaled, rfl⟩))
  | unpackCal g => exact key _ rfl (.inr (.inl ⟨.cal, rfl⟩))
  | reservedCmd3 g => exact key _ rfl (.inr (.inr rfl))
  | reservedCmd47 low g => exact key _ rfl (.inr (.inr rfl))
  | reservedCmd8F low g => exact key _ rfl (.inr (.inr rfl))
  | pktInvalid r a count => cases hi
  | pktValidScaled r a count => cases hi
  | pktValidCal r a count => cases hi
  | hostRd offset data => cases hi
  | hostWr offset data => cases hi

theorem isCommand_decodeCommand (d : Word) : isCommand (decodeCommand d) = true := by
  unfold decodeCommand commandCases
  split
  · rfl
  · split
    · rfl
    · split
      · rfl
      · split
        · rfl
        · split <;> rfl

/-- All that a write transaction can do (R221). -/
theorem execHostWr_cases (offset : BitVec 8) (d : Word) (s : State) :
    (∃ i, isCommand i = true ∧ regAt offset = .cmd ∧ execHostWr offset d s = exec i s) ∨
    execHostWr offset d s = .next s ∨
    execHostWr offset d s = .next (acknowledge d s) ∨
    execHostWr offset d s = .next (setIe (d.getLsbD 0) s) ∨
    (s.phase = .busy ∧ execHostWr offset d s = .next (setWwb s)) ∨
    (s.phase = .idle ∧
      (execHostWr offset d s = .next (setT d s) ∨
       execHostWr offset d s = .next (setByteLen d s) ∨
       execHostWr offset d s = .next (setLoaded (d.getLsbD 0) s) ∨
       execHostWr offset d s = .next (setCalIdx (d.extractLsb' 0 16) s) ∨
       (s.calIdx.toNat < Config.calEntries ∧ regAt offset = .calData ∧ execHostWr offset d s = .next (storeCal d s)))) := by
  unfold execHostWr
  cases hr : regAt offset with
  | cmd => exact .inl ⟨decodeCommand d, isCommand_decodeCommand d, rfl, issueCommand_eq d s⟩
  | status => exact .inr (.inr (.inl rfl))
  | irqEn => exact .inr (.inr (.inr (.inl rfl)))
  | tReg =>
    rcases whileIdle_cases s (setT d s) with ⟨hp, hw⟩ | ⟨hp, hw⟩ <;> simp only [hw, hp] <;> tauto
  | byteLen =>
    rcases whileIdle_cases s (setByteLen d s) with ⟨hp, hw⟩ | ⟨hp, hw⟩ <;> simp only [hw, hp] <;> tauto
  | calCtrl =>
    rcases whileIdle_cases s (setLoaded (d.getLsbD 0) s) with ⟨hp, hw⟩ | ⟨hp, hw⟩ <;> simp only [hw, hp] <;> tauto
  | calIdx =>
    rcases whileIdle_cases s (setCalIdx (d.extractLsb' 0 16) s) with ⟨hp, hw⟩ | ⟨hp, hw⟩ <;> simp only [hw, hp] <;> tauto
  | calData =>
    rcases whileIdle_cases s (writeCalData d s) with ⟨hp, hw⟩ | ⟨hp, hw⟩
    · simp only [hw]
      simp only [hp, writeCalData]
      by_cases hx : s.calIdx.toNat < Config.calEntries
      · simp only [if_pos hx]
        tauto
      · simp only [if_neg hx]
        tauto
    · simp only [hw, hp]
      tauto
  | id => exact .inr (.inl rfl)
  | wordCnt => exact .inr (.inl rfl)
  | validCnt => exact .inr (.inl rfl)
  | cycles => exact .inr (.inl rfl)
  | rowLen => exact .inr (.inl rfl)
  | param0 => exact .inr (.inl rfl)
  | param1 => exact .inr (.inl rfl)
  | reserved => exact .inr (.inl rfl)

/-- All that a read does to the state besides the host's variable (R40, R46). -/
theorem noteRead_cases (s : State) (reg : Reg) :
    noteRead s reg = s ∨
    (s.phase = .busy ∧ reg = .wordCnt ∧ noteRead s reg = noteWord s) ∨
    (s.phase = .busy ∧ reg = .validCnt ∧ noteRead s reg = noteValid s) := by
  cases h : s.phase <;> cases reg <;> simp [noteRead, h]

/-- The processing of a word (R160): the packet decoded from `w` writes the entry of `w` at the word's index and counts
it. -/
theorem exec_decodePacket (w : Word) (s : State) :
    exec (decodePacket s.mode w) s =
      .next (retire (packetValid w) (packetAddr w) (entryOf s (wordPixel s s.n.toNat) w) s) := by
  unfold decodePacket entryOf decodeScaled correct
  cases s.mode <;> cases packetValid w <;> rfl

/-- What the processing of a word changes. -/
theorem retire_eq (v : Bool) (a : BitVec 2) (e : Entry) (s : State) :
    retire v a e s =
      { s with
        outMem := s.outMem.set (wordIndex s s.n.toNat) e
        validCnt := if v then s.validCnt + 1 else s.validCnt
        addrNz := s.addrNz || a != 0
        wordCnt := s.wordCnt + 1
        n := s.n + 1 } := rfl

theorem outEntry_retire (v : Bool) (a : BitVec 2) (e : Entry) (s : State) (y : Nat) :
    outEntry (retire v a e s) y = if y = wordIndex s s.n.toNat then e else outEntry s y :=
  outEntry_outWrite s _ e y

end Sys2Proof.Machine
end

