-- ==== Sys2Proof/Laws/Step.lean ====
section
/-! SUPPORT. Inversion: all that an instruction, an agent's step and a step of the machine can do. Invariants are proved
from these, never by unfolding the step. -/

namespace Sys2Proof.Machine

/-- Whether an instruction issues a command: it is one, or it is a write to CMD (R210). -/
def issuesCommand (i : Instr) : Prop := isCommand i = true ∨ ∃ offset d, i = .hostWr offset d ∧ regAt offset = .cmd

/-- All that an instruction can do to the state when it completes. -/
inductive InstrEffect (i : Instr) (s : State) : State → Prop
  | word (v : Bool) (a : BitVec 2) (e : Entry) (hi : isPacket i = true) : InstrEffect i s (retire v a e s)
  | locked (hp : s.phase = .busy) : InstrEffect i s (setWwb s)
  | nothing : InstrEffect i s s
  | start (m : Mode) (hi : issuesCommand i) (hp : s.phase = .idle) : InstrEffect i s (start m s)
  | illegal (hi : issuesCommand i) (hp : s.phase = .idle) : InstrEffect i s (illegal s)
  | acknowledge (d : Word) : InstrEffect i s (acknowledge d s)
  | setIe (b : Bool) : InstrEffect i s (setIe b s)
  | setT (d : Word) (hp : s.phase = .idle) : InstrEffect i s (setT d s)
  | setByteLen (d : Word) (hp : s.phase = .idle) : InstrEffect i s (setByteLen d s)
  | setLoaded (b : Bool) (hp : s.phase = .idle) : InstrEffect i s (setLoaded b s)
  | setCalIdx (x : BitVec 16) (hp : s.phase = .idle) : InstrEffect i s (setCalIdx x s)
  | storeCal (offset : BitVec 8) (d : Word) (hi : i = .hostWr offset d) (hr : regAt offset = .calData)
      (hp : s.phase = .idle) (hx : s.calIdx.toNat < Config.calEntries) : InstrEffect i s (storeCal d s)
  | read (offset : BitVec 8) (d v : Word) (hi : i = .hostRd offset d) :
      InstrEffect i s (setHostR v (noteRead s (regAt offset)))

/-- Every instruction completes, and does one of these. -/
theorem exec_effect (i : Instr) (s : State) : ∃ t, exec i s = .next t ∧ InstrEffect i s t := by
  have command : ∀ {i' : Instr}, isCommand i' = true → issuesCommand i →
      ∃ t, exec i' s = .next t ∧ InstrEffect i s t := by
    intro i' hi hc
    have hn : ∃ t, exec i' s = .next t := by
      cases i' <;> first | exact ⟨_, rfl⟩ | cases hi
    obtain ⟨t, ht⟩ := hn
    refine ⟨t, ht, ?_⟩
    rcases exec_command_cases hi ht with ⟨hp, rfl⟩ | ⟨hp, rfl | ⟨m, rfl⟩ | rfl⟩
    · exact .locked hp
    · exact .nothing
    · exact .start m hc hp
    · exact .illegal hc hp
  cases i with
  | pktInvalid r a count => exact ⟨_, rfl, .word _ _ _ rfl⟩
  | pktValidScaled r a count => exact ⟨_, rfl, .word _ _ _ rfl⟩
  | pktValidCal r a count => exact ⟨_, rfl, .word _ _ _ rfl⟩
  | nop g => exact command rfl (.inl rfl)
  | unpack g => exact command rfl (.inl rfl)
  | unpackCal g => exact command rfl (.inl rfl)
  | reservedCmd3 g => exact command rfl (.inl rfl)
  | reservedCmd47 low g => exact command rfl (.inl rfl)
  | reservedCmd8F low g => exact command rfl (.inl rfl)
  | hostRd offset d => exact ⟨_, rfl, .read offset d _ rfl⟩
  | hostWr offset d =>
    have he : exec (.hostWr offset d) s = execHostWr offset d s := rfl
    rw [he]
    rcases execHostWr_cases offset d s with ⟨i', hi, hr, h⟩ | h | h | h | ⟨hp, h⟩ | ⟨hp, h | h | h | h | ⟨hx, hr, h⟩⟩ <;>
      rw [h]
    · exact command hi (.inr ⟨offset, d, rfl, hr⟩)
    · exact ⟨_, rfl, .nothing⟩
    · exact ⟨_, rfl, .acknowledge d⟩
    · exact ⟨_, rfl, .setIe _⟩
    · exact ⟨_, rfl, .locked hp⟩
    · exact ⟨_, rfl, .setT d hp⟩
    · exact ⟨_, rfl, .setByteLen d hp⟩
    · exact ⟨_, rfl, .setLoaded _ hp⟩
    · exact ⟨_, rfl, .setCalIdx _ hp⟩
    · exact ⟨_, rfl, .storeCal offset d rfl hr hp hx⟩

theorem exec_effect_of_next {i : Instr} {s t : State} (h : exec i s = .next t) : InstrEffect i s t := by
  obtain ⟨t', h', he⟩ := exec_effect i s
  rw [h'] at h
  injection h with h
  exact h ▸ he

/-! ## Turns -/

theorem afterTurn_of_nil {s : State} (h : s.turns = []) : afterTurn s = s := by
  cases s
  simp only at h
  subst h
  rfl

@[simp] theorem afterTurn_turns (s : State) : (afterTurn s).turns = s.turns.tail := rfl

theorem turn_cases (s : State) : SequencerTurn s ∨ HostTurn s := by
  unfold SequencerTurn HostTurn
  cases s.turns with
  | nil => cases s.phase <;> simp
  | cons a rest => cases a <;> simp

theorem step_of_sequencerTurn {s : State} (h : SequencerTurn s) : step s = sequencerStep (afterTurn s) := by
  rcases h with h | ⟨h, hp⟩
  · obtain ⟨rest, hr⟩ : ∃ rest, s.turns = .block :: rest := by
      cases ht : s.turns with
      | nil => simp [ht] at h
      | cons a rest => simp [ht] at h; exact ⟨rest, by rw [h]⟩
    simp only [step, hr, afterTurn, List.tail_cons]
  · rw [afterTurn_of_nil h]
    simp only [step, h, hp]

theorem step_of_hostTurn {s : State} (h : HostTurn s) : step s = hostStep (afterTurn s) := by
  rcases h with h | ⟨h, hp⟩
  · obtain ⟨rest, hr⟩ : ∃ rest, s.turns = .host :: rest := by
      cases ht : s.turns with
      | nil => simp [ht] at h
      | cons a rest => simp [ht] at h; exact ⟨rest, by rw [h]⟩
    simp only [step, hr, afterTurn, List.tail_cons]
  · rw [afterTurn_of_nil h]
    simp only [step, h, hp]

/-- The host's statement at its turn. -/
theorem step_of_stmt {s : State} {stmt : HostStmt} (h : HostTurn s) (hs : s.hostProg[s.hostPc]? = some stmt) :
    step s = hostStmtStep stmt (atStatement s) := by
  rw [step_of_hostTurn h]
  have h1 : (afterTurn s).hostProg[(afterTurn s).hostPc]? = some stmt := hs
  unfold hostStep
  rw [h1]
  rfl

/-- All that the sequencer's step can do. -/
theorem sequencerStep_cases (s : State) :
    (s.phase = .idle ∧ sequencerStep s = .next s) ∨
    (s.phase = .busy ∧ s.n.toNat < wordTotal s ∧
      sequencerStep s = .next (retire (packetValid (streamWord s s.n.toNat)) (packetAddr (streamWord s s.n.toNat))
        (entryOf s (wordPixel s s.n.toNat) (streamWord s s.n.toNat)) (noteStream s))) ∨
    (s.phase = .busy ∧ s.n.toNat = wordTotal s ∧ sequencerStep s = .next (complete s)) ∨
    (s.phase = .busy ∧ wordTotal s < s.n.toNat ∧ sequencerStep s = .next s) := by
  unfold sequencerStep
  rcases hp : s.phase with _ | _
  · simp
  · have hn : exec (fetchedPacket s) (noteStream s) =
        .next (retire (packetValid (streamWord s s.n.toNat)) (packetAddr (streamWord s s.n.toNat))
          (entryOf s (wordPixel s s.n.toNat) (streamWord s s.n.toNat)) (noteStream s)) := by
      have h := exec_decodePacket (streamWord s s.n.toNat) (noteStream s)
      unfold fetchedPacket noteStream
      unfold noteStream at h
      cases hd : s.inputDirty <;> simp only [hd] at h ⊢ <;> exact h
    simp only [hn]
    rcases Nat.lt_trichotomy s.n.toNat (wordTotal s) with h | h | h
    · simp only [if_pos h]
      tauto
    · simp only [h, if_true, Nat.lt_irrefl, if_false]
      tauto
    · simp only [if_neg (Nat.lt_asymm h), if_neg (Nat.ne_of_gt h)]
      tauto

/-- All that a statement of the host can do when it completes, `s` being the state that finds it. -/
inductive HostEffect (stmt : HostStmt) (s : State) : State → Prop
  | instr (x : Transaction) (t : State) (hi : stmt = .bus x) (h : InstrEffect (decodeTransaction x) s t) : HostEffect stmt s t
  | nothing : HostEffect stmt s s
  | jump (k : Nat) : HostEffect stmt s (jump k s)
  | storeInput (a : BitVec 32) (b : Byte) (hi : stmt = .storeInput a b) : HostEffect stmt s (storeInput a.toNat b s)
  | storeOutput (x : BitVec 30) (e : Entry) (hi : stmt = .storeOutput x e) (h : ¬(s.phase = .busy ∧ x.toNat < wordTotal s)) :
      HostEffect stmt s (outWrite s x.toNat e)
  | contest (x : BitVec 30) (e : Entry) (hi : stmt = .storeOutput x e) (hp : s.phase = .busy) (hx : x.toNat < wordTotal s) :
      HostEffect stmt s (contest x.toNat e s)
  | loadOutput (x : BitVec 30) (hi : stmt = .loadOutput x) : HostEffect stmt s (setHostEntry (shownEntry s x.toNat) (draw s))
  | reset (hi : stmt = .reset) : HostEffect stmt s (resetBlock s)
  | powerCycle (hi : stmt = .powerCycle) : HostEffect stmt s (powerOnBlock s)

/-- All that a host store to the output memory can do. -/
theorem storeOutput_cases (x : Nat) (e : Entry) (s : State) :
    (s.phase = .busy ∧ x < wordTotal s ∧ storeOutput x e s = contest x e s) ∨
    (¬(s.phase = .busy ∧ x < wordTotal s) ∧ storeOutput x e s = outWrite s x e) := by
  unfold storeOutput
  by_cases h : s.phase = .busy ∧ x < wordTotal s
  · exact .inl ⟨h.1, h.2, if_pos h⟩
  · exact .inr ⟨h, if_neg h⟩

theorem isPacket_decodeTransaction (x : Transaction) : isPacket (decodeTransaction x) = false := by
  unfold decodeTransaction
  split <;> rfl

/-- The transaction that issues a command is a write to CMD. -/
theorem issuesCommand_decodeTransaction {x : Transaction} (h : issuesCommand (decodeTransaction x)) :
    ∃ offset d, decodeTransaction x = .hostWr offset d ∧ regAt offset = .cmd := by
  rcases h with h | h
  · unfold decodeTransaction at h
    split at h <;> cases h
  · exact h

theorem hostStmtStep_effect {stmt : HostStmt} {s t : State} (h : hostStmtStep stmt s = .next t) : HostEffect stmt s t := by
  cases stmt with
  | bus x => exact .instr x _ rfl (exec_effect_of_next h)
  | branchIfClear bit target =>
    simp only [hostStmtStep] at h
    injection h with h
    subst h
    split
    · exact .nothing
    · exact .jump target
  | storeInput a b =>
    simp only [hostStmtStep] at h
    injection h with h
    exact h ▸ .storeInput a b rfl
  | storeOutput x e =>
    simp only [hostStmtStep] at h
    injection h with h
    subst h
    rcases storeOutput_cases x.toNat e s with ⟨hp, hx, h⟩ | ⟨hx, h⟩ <;> rw [h]
    · exact .contest x e rfl hp hx
    · exact .storeOutput x e rfl hx
  | loadOutput x =>
    simp only [hostStmtStep] at h
    injection h with h
    exact h ▸ .loadOutput x rfl
  | reset =>
    simp only [hostStmtStep] at h
    injection h with h
    exact h ▸ .reset rfl
  | powerCycle =>
    simp only [hostStmtStep] at h
    injection h with h
    exact h ▸ .powerCycle rfl
  | portFailure => cases h

/-- All that a step of the machine can do when it completes. -/
theorem step_cases {s t : State} (h : step s = .next t) :
    (SequencerTurn s ∧ sequencerStep (afterTurn s) = .next t) ∨
    (HostTurn s ∧ s.hostProg[s.hostPc]? = none ∧ t = afterTurn s) ∨
    (HostTurn s ∧ ∃ stmt, s.hostProg[s.hostPc]? = some stmt ∧ hostStmtStep stmt (atStatement s) = .next t ∧
      HostEffect stmt (atStatement s) t) := by
  rcases turn_cases s with ht | ht
  · rw [step_of_sequencerTurn ht] at h
    exact .inl ⟨ht, h⟩
  · right
    rcases hs : s.hostProg[s.hostPc]? with _ | stmt
    · rw [step_of_hostTurn ht] at h
      have h1 : (afterTurn s).hostProg[(afterTurn s).hostPc]? = none := hs
      unfold hostStep at h
      rw [h1] at h
      injection h with h
      exact .inl ⟨ht, rfl, h.symm⟩
    · rw [step_of_stmt ht hs] at h
      exact .inr ⟨ht, stmt, rfl, h, hostStmtStep_effect h⟩

end Sys2Proof.Machine
end

