-- ==== Sys2Proof/Laws/Invariant.lean ====
section
/-! SUPPORT. The geometry of a command in progress and the parts of the invariant of Safety.lean: what does not touch it,
and that the operations that do touch it keep it. -/

namespace Sys2Proof.Machine

/-! ## Geometry -/

/-- A word count that passes the check of R151, by cycles and by rows (R152). -/
theorem whole_parts {t total : Nat} (h : total % (t * 256) = 0) :
    total = 256 * t * (total / (t * 256)) ∧ total / 256 = t * (total / (t * 256)) := by
  have h1 : t * 256 * (total / (t * 256)) = total := by
    have := Nat.div_add_mod total (t * 256)
    omega
  have h2 : 256 * (t * (total / (t * 256))) = total := by rw [← Nat.mul_assoc, Nat.mul_comm 256 t, h1]
  refine ⟨by rw [Nat.mul_comm 256 t, h1], ?_⟩
  conv_lhs => rw [← h2]
  rw [Nat.mul_div_cancel_left _ (by omega)]

/-- R155, one direction. -/
theorem flatten_parts {t : Nat} (ht : 1 ≤ t) (n : Nat) : flatten t (pixelOf t n) (columnOf t n) = n := by
  have hs := slotOf_lt ht n
  have h1 : columnOf t n / t = cycleOf t n := by
    unfold columnOf
    rw [Nat.mul_comm, Nat.mul_add_div (by omega), Nat.div_eq_of_lt hs, Nat.add_zero]
  have h2 : columnOf t n % t = slotOf t n := by
    unfold columnOf
    rw [Nat.mul_comm, Nat.mul_add_mod, Nat.mod_eq_of_lt hs]
  unfold flatten
  rw [h1, h2]
  exact index_parts t n

/-- The row and the column of an output index (R153). -/
theorem outIndexOf_parts {t c n : Nat} (ht : 1 ≤ t) (hn : n < 256 * t * c) :
    outIndexOf t (t * c) n / (t * c) = pixelOf t n ∧ outIndexOf t (t * c) n % (t * c) = columnOf t n := by
  have hj := columnOf_lt ht hn
  unfold outIndexOf
  rw [Nat.mul_comm (pixelOf t n)]
  refine ⟨?_, by rw [Nat.mul_add_mod, Nat.mod_eq_of_lt hj]⟩
  rw [Nat.mul_add_div (by omega), Nat.div_eq_of_lt hj, Nat.add_zero]

/-- An output index lies in the matrix (R69). -/
theorem outIndexOf_lt {t c n : Nat} (ht : 1 ≤ t) (hn : n < 256 * t * c) : outIndexOf t (t * c) n < 256 * t * c := by
  have hi := pixelOf_lt t n
  have hj := columnOf_lt ht hn
  unfold outIndexOf
  calc pixelOf t n * (t * c) + columnOf t n < pixelOf t n * (t * c) + t * c := by omega
    _ = (pixelOf t n + 1) * (t * c) := by ring
    _ ≤ 256 * (t * c) := Nat.mul_le_mul_right _ hi
    _ = 256 * t * c := by ring

theorem wordTotal_lt (s : State) : wordTotal s < 2 ^ 30 := by
  unfold wordTotal
  have := s.byteLen.isLt
  omega

/-- The geometry recorded for a command in progress (R152). -/
theorem BusyInv.geometry {s : State} (h : BusyInv s) :
    s.rowLen.toNat = s.tReg.toNat * s.cycles.toNat ∧ wordTotal s = 256 * s.tReg.toNat * s.cycles.toNat := by
  obtain ⟨h1, h2⟩ := whole_parts h.whole
  rw [h.cycles, h.rowLen]
  exact ⟨h2, h1⟩

/-- The word, the pixel and the bound of an output index of a command in progress. -/
theorem BusyInv.source_index {s : State} (h : BusyInv s) {k : Nat} (hk : k < wordTotal s) :
    sourceWord s (wordIndex s k) = k ∧ wordIndex s k / s.rowLen.toNat = wordPixel s k ∧
      wordIndex s k < wordTotal s := by
  obtain ⟨hr, hn⟩ := h.geometry
  rw [hn] at hk
  obtain ⟨h1, h2⟩ := outIndexOf_parts h.slots hk
  unfold sourceWord wordIndex wordPixel
  rw [hr, hn, h1, h2]
  exact ⟨flatten_parts h.slots k, rfl, outIndexOf_lt h.slots hk⟩

/-- Two words of a command in progress have two output indices (R69). -/
theorem BusyInv.wordIndex_ne {s : State} (h : BusyInv s) {j k : Nat} (hj : j < wordTotal s) (hk : k < wordTotal s)
    (hne : j ≠ k) : wordIndex s j ≠ wordIndex s k := by
  intro he
  apply hne
  rw [← (h.source_index hj).1, ← (h.source_index hk).1, he]

theorem validBelow_succ (s : State) (k : Nat) :
    validBelow s (k + 1) = validBelow s k + if packetValid (inRead s (4 * k)) then 1 else 0 := by
  unfold validBelow
  rw [List.range_succ, List.filter_append, List.length_append]
  congr 1
  by_cases h : packetValid (inRead s (4 * k)) <;> simp [h]

/-! ## What does not touch the invariant -/

/-- The fields that the facts about a command in progress do not mention. -/
theorem BusyInv.other {s : State} (h : BusyInv s) (phase : Phase) (done err : Bool) (errCode : BitVec 4)
    (addrNz wwb ie : Bool) (calIdx : BitVec 16) (hostProg : List HostStmt) (hostPc : Nat) (hostR : Word)
    (hostEntry : Entry) (turns : List Turn) (draws : Nat) :
    BusyInv { s with
      phase := phase, done := done, err := err, errCode := errCode, addrNz := addrNz, wwb := wwb, ie := ie,
      calIdx := calIdx, hostProg := hostProg, hostPc := hostPc, hostR := hostR, hostEntry := hostEntry,
      turns := turns, draws := draws } :=
  ⟨h.length, h.slots, h.whole, h.loaded, h.cycles, h.rowLen, h.index, h.counted, h.valid, h.validExact, h.seen,
    h.seenExact, h.unwritten, h.written, h.contested⟩

/-- The fields that the invariant does not mention. -/
theorem Inv.other {s : State} (h : Inv s) (addrNz wwb ie : Bool) (calIdx : BitVec 16) (hostProg : List HostStmt)
    (hostPc : Nat) (hostR : Word) (hostEntry : Entry) (turns : List Turn) (draws : Nat) :
    Inv { s with
      addrNz := addrNz, wwb := wwb, ie := ie, calIdx := calIdx, hostProg := hostProg, hostPc := hostPc,
      hostR := hostR, hostEntry := hostEntry, turns := turns, draws := draws } :=
  ⟨⟨h.memory.calTable, h.memory.inBuf, h.memory.outMem, h.memory.outOld⟩,
    ⟨h.status.busy_not_done, h.status.err_iff_code, h.status.code_le⟩, fun hb => (h.busy hb).other ..⟩

theorem of_idle {s : State} (h : s.phase = .idle) {P : Prop} : s.phase = .busy → P := by
  intro h'
  rw [h] at h'
  cases h'

/-- A state that is IDLE needs the memories of a state of the invariant and the laws of ERRCODE. -/
theorem Inv.of_idle {s t : State} (h : Inv s)
    (hm : t.calTable = s.calTable ∧ t.inBuf = s.inBuf ∧ t.outMem = s.outMem ∧ t.outOld = s.outOld)
    (hs : t.err = false ↔ t.errCode = 0) (hc : t.errCode.toNat ≤ 4) (hp : t.phase = .idle) : Inv t := by
  obtain ⟨h1, h2, h3, h4⟩ := hm
  refine ⟨⟨?_, ?_, ?_, ?_⟩, ⟨Machine.of_idle hp, hs, hc⟩, Machine.of_idle hp⟩
  · rw [h1]
    exact h.memory.calTable
  · rw [h2]
    exact h.memory.inBuf
  · rw [h3]
    exact h.memory.outMem
  · rw [h4]
    exact h.memory.outOld

/-! ## The operations that touch it -/

/-- The start of a command establishes the facts about it (R215). -/
theorem busyInv_beginWords {m : Mode} {s : State} (h : startError m s = none) :
    BusyInv (beginWords m (clearProgress (clearCompletion s))) := by
  obtain ⟨h1, h2, h3, h4⟩ := (startError_none_iff m s).1 h
  have hl := wordTotal_lt s
  refine ⟨h1, h2, h3, h4, ?_, ?_, Nat.zero_le _, rfl, Nat.le_refl _, fun _ => rfl, ⟨Nat.zero_le _, Nat.zero_le _⟩,
    fun _ => ⟨Nat.le_refl _, Nat.le_refl _⟩, fun _ _ _ => rfl, fun _ k hk => absurd hk (Nat.not_lt_zero k),
    List.nodup_nil, fun _ h => nomatch h⟩
  · show (BitVec.ofNat 32 (wordTotal s / (s.tReg.toNat * Config.numPixels))).toNat =
      wordTotal s / (s.tReg.toNat * Config.numPixels)
    have := Nat.div_le_self (wordTotal s) (s.tReg.toNat * Config.numPixels)
    rw [BitVec.toNat_ofNat, Nat.mod_eq_of_lt]
    omega
  · show (BitVec.ofNat 32 (wordTotal s / Config.numPixels)).toNat = wordTotal s / Config.numPixels
    have := Nat.div_le_self (wordTotal s) Config.numPixels
    rw [BitVec.toNat_ofNat, Nat.mod_eq_of_lt]
    omega

/-- The processing of a word keeps them (R160), its entry being the word's own unless the input buffer was changed. -/
theorem busyInv_retire {s : State} (h : BusyInv s) (hn : s.n.toNat < wordTotal s) (v : Bool) (a : BitVec 2) (e : Entry)
    (hve : s.inputDirty = false → v = packetValid (inRead s (4 * s.n.toNat)) ∧
      e = entryOf s (wordPixel s s.n.toNat) (inRead s (4 * s.n.toNat))) :
    BusyInv (retire v a e s) := by
  have hl := wordTotal_lt s
  have hc := h.counted
  have hv := h.valid
  have e1 : (s.n + 1).toNat = s.n.toNat + 1 := by
    rw [BitVec.toNat_add]
    simp
    omega
  have e2 : (s.wordCnt + 1).toNat = s.wordCnt.toNat + 1 := by
    rw [BitVec.toNat_add]
    simp
    omega
  have e3 : (s.validCnt + 1).toNat = s.validCnt.toNat + 1 := by
    rw [BitVec.toNat_add]
    simp
    omega
  refine ⟨h.length, h.slots, h.whole, h.loaded, h.cycles, h.rowLen, ?_, ?_, ?_, ?_, h.seen, ?_, ?_, ?_, h.contested.1, ?_⟩
  · show (s.n + 1).toNat ≤ wordTotal s
    omega
  · show (s.wordCnt + 1).toNat = (s.n + 1).toNat
    rw [e1, e2, hc]
  · show (if v then s.validCnt + 1 else s.validCnt).toNat ≤ (s.n + 1).toNat
    split <;> omega
  · intro hd
    have hd : s.inputDirty = false := hd
    show (if v then s.validCnt + 1 else s.validCnt).toNat = validBelow s (s.n + 1).toNat
    rw [e1, validBelow_succ, ← h.validExact hd, ← (hve hd).1]
    split
    · exact e3
    · rfl
  · intro hone
    obtain ⟨h1, h2⟩ := h.seenExact hone
    refine ⟨?_, ?_⟩
    · show s.seenWord.toNat ≤ (s.wordCnt + 1).toNat
      omega
    · show s.seenValid.toNat ≤ (if v then s.validCnt + 1 else s.validCnt).toNat
      split <;> omega
  · intro k h1 h2
    have h1 : (s.n + 1).toNat ≤ k := h1
    have h2 : k < wordTotal s := h2
    refine Eq.trans ?_ (h.unwritten k (by omega) h2)
    exact get_set_ne _ _ (h.wordIndex_ne h2 hn (by omega))
  · intro hd k hk hx
    have hd : s.inputDirty = false := hd
    have hk : k < (s.n + 1).toNat := hk
    rw [outEntry_retire]
    show (if wordIndex s k = wordIndex s s.n.toNat then e else outEntry s (wordIndex s k)) =
      entryOf s (wordPixel s k) (inRead s (4 * k))
    by_cases hkn : k = s.n.toNat
    · subst hkn
      rw [if_pos rfl]
      exact (hve hd).2
    · rw [if_neg (h.wordIndex_ne (by omega) hn hkn)]
      exact h.written hd k (by omega) hx
  · intro x hx
    obtain ⟨h1, h2, h3⟩ := h.contested.2 x hx
    refine ⟨h1, ?_, ?_⟩
    · show sourceWord s x < (s.n + 1).toNat
      omega
    · refine Eq.trans (get_set_ne _ _ ?_) h3
      rintro rfl
      rw [(h.source_index hn).1] at h2
      exact Nat.lt_irrefl _ h2

/-- A host store to an entry of the command in progress keeps them. -/
theorem busyInv_contest {s : State} (h : BusyInv s) {x : Nat} (hx : x < wordTotal s) (e : Entry) :
    BusyInv (contest x e s) := by
  have hi := h.index
  refine ⟨h.length, h.slots, h.whole, h.loaded, h.cycles, h.rowLen, h.index, h.counted, h.valid, h.validExact, h.seen,
    h.seenExact, fun k h1 h2 => ?_, fun hd k hk hc => ?_, ?_, fun y hy => ?_⟩
  · show (s.outMem.set x e).get (wordIndex s k) = (s.outOld.set x e).get (wordIndex s k)
    rw [get_set, get_set, h.unwritten k h1 h2]
  · have hk : k < s.n.toNat := hk
    have hc := mt (mem_contested_contest x e s (wordIndex s k)).2 hc
    rw [not_or, not_and] at hc
    have hs := (h.source_index (Nat.lt_of_lt_of_le hk hi)).1
    refine Eq.trans ((outEntry_contest x e s _).trans (if_neg ?_)) (h.written hd k hk hc.1)
    intro he
    refine hc.2 he ?_
    rw [← (show wordIndex s k = x from he), hs]
    exact hk
  · rw [contest_contested]
    split
    · exact h.contested.1.insert
    · exact h.contested.1
  · show y < wordTotal s ∧ sourceWord s y < s.n.toNat ∧ (s.outMem.set x e).get y = (s.outOld.set x e).get y
    rw [get_set, get_set]
    rcases (mem_contested_contest x e s y).1 hy with hy | ⟨rfl, hs⟩
    · obtain ⟨h1, h2, h3⟩ := h.contested.2 y hy
      exact ⟨h1, h2, by rw [h3]⟩
    · exact ⟨hx, hs, by rw [if_pos rfl, if_pos rfl]⟩

/-- A host store to an entry of the command in progress keeps the invariant. -/
theorem inv_contest {s : State} (h : Inv s) (hp : s.phase = .busy) {x : Nat} (hx : x < wordTotal s) (e : Entry) :
    Inv (contest x e s) := by
  have hl := wordTotal_lt s
  exact ⟨⟨h.memory.calTable, h.memory.inBuf,
      ⟨wf_set h.memory.outMem.1 _ _, below_set h.memory.outMem.2 (by omega) _⟩,
      ⟨wf_set h.memory.outOld.1 _ _, below_set h.memory.outOld.2 (by omega) _⟩⟩,
    ⟨h.status.busy_not_done, h.status.err_iff_code, h.status.code_le⟩, fun _ => busyInv_contest (h.busy hp) hx e⟩

/-- The bounds of a progress count that is read during a command (R46, U8). -/
theorem shownCount_bounds {s : State} {exact seen : Word} (hp : s.phase = .busy) (hs : seen.toNat ≤ wordTotal s)
    (he : exact.toNat ≤ wordTotal s) (hx : Config.lanes = 1 → seen.toNat ≤ exact.toNat) :
    seen.toNat ≤ (shownCount s exact seen).toNat ∧ (shownCount s exact seen).toNat ≤ wordTotal s := by
  have hl := wordTotal_lt s
  simp only [shownCount, hp]
  split
  · rename_i hone
    exact ⟨hx hone, he⟩
  · have := Nat.mod_lt (Config.freeCount s.draws) (by omega : 0 < wordTotal s - seen.toNat + 1)
    rw [BitVec.toNat_add, BitVec.toNat_ofNat]
    omega

/-! ## Runs -/

/-- A run one step further. -/
theorem run_next (M : Host.Core) {u v : M.State} (h : M.step u = .next v) (k : Nat) : M.run (k + 1) u = M.run k v := by
  rw [Host.Core.run, h]

end Sys2Proof.Machine
end

