-- ==== Sys2Proof/Laws/PerInstr.lean ====
section
/-! SUPPORT. The family RowMatch, per instruction: the row of the opcode table that carries an instruction's mnemonic
accepts the instruction's code word (30_encoding.md R93, R100, R104). -/

namespace Sys2Proof.Laws.RowMatch

/-- The instruction's own row accepts its encoding. -/
def Statement (i : Instr) : Prop := ∃ row ∈ opcodeTable, row.mnemonic = i.mnemonic ∧ row.accepts (encode i) = true

/-- A row accepts a code word of its space whose masked bits are its pattern. -/
theorem accepts_of {row : Row} {u : CodeWord} (hs : row.space = u.space) (hb : u.bits &&& row.mask = row.pattern) :
    row.accepts u = true := by
  simp [Row.accepts, hs, hb]

/-- Bit 31 of a packet, as the table masks it. -/
theorem packet_mask (v r : BitVec 1) (a : BitVec 2) (count : BitVec 28) :
    BitVec.toNat (w := 32) (v ++ r ++ a ++ count) &&& 0x80000000 = v.toNat * 0x80000000 := by
  have h := nat_and_two_pow (BitVec.toNat (w := 32) (v ++ r ++ a ++ count)) 31
  have hr := r.isLt
  have ha := a.isLt
  have hc := count.isLt
  have hv := v.isLt
  rw [packet_toNat] at h ⊢
  rw [show (0x80000000 : Nat) = 2 ^ 31 from rfl, h]
  omega

/-- The low four bits of a command, as the table masks them. -/
theorem command_mask (g : BitVec 28) (c : BitVec 4) : BitVec.toNat (w := 32) (g ++ c) &&& 0xF = c.toNat := by
  have hc := c.isLt
  rw [show (0xF : Nat) = 2 ^ 4 - 1 from rfl, Nat.and_two_pow_sub_one_eq_mod, command_toNat]
  omega

/-- Bit 40 of a transaction, as the table masks it. -/
theorem transaction_mask (v : BitVec 1) (offset : BitVec 8) (data : BitVec 32) :
    BitVec.toNat (w := 41) (v ++ offset ++ data) &&& 0x10000000000 = v.toNat * 0x10000000000 := by
  have h := nat_and_two_pow (BitVec.toNat (w := 41) (v ++ offset ++ data)) 40
  have ho := offset.isLt
  have hd := data.isLt
  have hv := v.isLt
  rw [transaction_toNat] at h ⊢
  rw [show (0x10000000000 : Nat) = 2 ^ 40 from rfl, h]
  omega

theorem pktInvalid (r : BitVec 1) (a : BitVec 2) (count : BitVec 28) : Statement (.pktInvalid r a count) :=
  ⟨⟨"PKT_INVALID", .packet, 0x80000000, 0x00000000⟩, by decide, rfl, accepts_of rfl (packet_mask 0 r a count)⟩

theorem pktValidScaled (r : BitVec 1) (a : BitVec 2) (count : BitVec 28) : Statement (.pktValidScaled r a count) :=
  ⟨⟨"PKT_VALID_SCALED", .packet, 0x80000000, 0x80000000⟩, by decide, rfl, accepts_of rfl (packet_mask 1 r a count)⟩

theorem pktValidCal (r : BitVec 1) (a : BitVec 2) (count : BitVec 28) : Statement (.pktValidCal r a count) :=
  ⟨⟨"PKT_VALID_CAL", .packet, 0x80000000, 0x80000000⟩, by decide, rfl, accepts_of rfl (packet_mask 1 r a count)⟩

theorem nop (ignored : BitVec 28) : Statement (.nop ignored) :=
  ⟨⟨"NOP", .command, 0x0000000F, 0x00000000⟩, by decide, rfl, accepts_of rfl (command_mask ignored 0)⟩

theorem unpack (ignored : BitVec 28) : Statement (.unpack ignored) :=
  ⟨⟨"UNPACK", .command, 0x0000000F, 0x00000001⟩, by decide, rfl, accepts_of rfl (command_mask ignored 1)⟩

theorem unpackCal (ignored : BitVec 28) : Statement (.unpackCal ignored) :=
  ⟨⟨"UNPACK_CAL", .command, 0x0000000F, 0x00000002⟩, by decide, rfl, accepts_of rfl (command_mask ignored 2)⟩

theorem reservedCmd3 (ignored : BitVec 28) : Statement (.reservedCmd3 ignored) :=
  ⟨⟨"RESERVED_CMD_3", .command, 0x0000000F, 0x00000003⟩, by decide, rfl, accepts_of rfl (command_mask ignored 3)⟩

theorem reservedCmd47 (low : BitVec 2) (ignored : BitVec 28) : Statement (.reservedCmd47 low ignored) := by
  refine ⟨⟨"RESERVED_CMD_4_7", .command, 0x0000000C, 0x00000004⟩, by decide, rfl, accepts_of rfl ?_⟩
  show BitVec.toNat (w := 32) (ignored ++ 1#2 ++ low) &&& 12 = 4
  have hl := low.isLt
  rw [nat_and_twelve, command47_toNat]
  simp
  omega

theorem reservedCmd8F (low : BitVec 3) (ignored : BitVec 28) : Statement (.reservedCmd8F low ignored) := by
  refine ⟨⟨"RESERVED_CMD_8_F", .command, 0x00000008, 0x00000008⟩, by decide, rfl, accepts_of rfl ?_⟩
  show BitVec.toNat (w := 32) (ignored ++ 1#1 ++ low) &&& 2 ^ 3 = 8
  have hl := low.isLt
  rw [nat_and_two_pow, command8F_toNat]
  simp
  omega

theorem hostRd (offset : BitVec 8) (data : BitVec 32) : Statement (.hostRd offset data) :=
  ⟨⟨"HOST_RD", .host, 0x10000000000, 0x00000000000⟩, by decide, rfl,
    accepts_of rfl ((transaction_mask 0 offset data).trans (by decide))⟩

theorem hostWr (offset : BitVec 8) (data : BitVec 32) : Statement (.hostWr offset data) :=
  ⟨⟨"HOST_WR", .host, 0x10000000000, 0x10000000000⟩, by decide, rfl,
    accepts_of rfl ((transaction_mask 1 offset data).trans (by decide))⟩

end Sys2Proof.Laws.RowMatch
end

