-- ==== Sys2Proof/Laws/Program.lean ====
section
/-! SUPPORT. Loading a host program (30_encoding.md R105): what the set-up lines leave in the input buffer, and that they
and the load change nothing else. -/

namespace Sys2Proof.Machine

/-- What a store of one byte leaves while no command runs. -/
theorem storeInput_idle {s : State} (h : s.phase = .idle) (a : Nat) (b : Byte) :
    storeInput a b s = { s with inBuf := s.inBuf.set a b } := by
  cases s
  simp only at h
  subst h
  simp [storeInput]

/-- A store of bytes while no command runs changes the input buffer only. -/
theorem storeBytes_frame {s : State} (h : s.phase = .idle) (a : BitVec 32) (bs : List Byte) :
    storeBytes a bs s = { s with inBuf := (storeBytes a bs s).inBuf } := by
  induction bs generalizing a s with
  | nil => rfl
  | cons b bs ih =>
    rw [storeBytes, ih (s := storeInput a.toNat b s) (by simpa using h), storeInput_idle h]

/-- The bytes that a store of bytes leaves: its own from `a` on, and every other as before. -/
theorem inByte_storeBytes (a : BitVec 32) (bs : List Byte) (s : State) (h : a.toNat + bs.length ≤ 2 ^ 32) (c : Nat) :
    inByte (storeBytes a bs s) c =
      if a.toNat ≤ c then (bs[c - a.toNat]?).getD (inByte s c) else inByte s c := by
  induction bs generalizing a s with
  | nil => simp [storeBytes]
  | cons b bs ih =>
    rw [storeBytes]
    simp only [List.length_cons] at h
    cases bs with
    | nil =>
      rw [storeBytes, inByte_storeInput]
      by_cases hc : c = a.toNat
      · simp [hc]
      · rw [if_neg hc]
        split
        · rw [List.getElem?_eq_none (by simp; omega)]
          rfl
        · rfl
    | cons b' bs =>
      simp only [List.length_cons] at h ih
      have ha : (a + 1).toNat = a.toNat + 1 := by
        rw [BitVec.toNat_add]
        simp
        omega
      rw [ih _ _ (by omega), ha, inByte_storeInput]
      by_cases hc : c = a.toNat
      · simp [hc]
      · rw [if_neg hc]
        by_cases hlt : a.toNat ≤ c
        · obtain ⟨k, rfl⟩ : ∃ k, c = a.toNat + 1 + k := ⟨c - (a.toNat + 1), by omega⟩
          rw [if_pos (by omega), if_pos hlt, show a.toNat + 1 + k - a.toNat = k + 1 by omega, List.getElem?_cons_succ,
            Nat.add_sub_cancel_left]
        · rw [if_neg (by omega), if_neg hlt]

/-- The set-up lines of a program change the input buffer only, while no command runs. -/
theorem setUp_frame {s : State} (h : s.phase = .idle) (program : List Line) :
    setUp program s = { s with inBuf := (setUp program s).inBuf } := by
  induction program generalizing s with
  | nil => rfl
  | cons line lines ih =>
    have hf : setUpLine line.stmt s = { s with inBuf := (setUpLine line.stmt s).inBuf } := by
      cases line.stmt with
      | inbuf a bytes => exact storeBytes_frame h a bytes
      | wr reg imm => rfl
      | rd reg => rfl
      | bit0 k name => rfl
    have hp : (setUpLine line.stmt s).phase = .idle := by
      rw [hf]
      exact h
    rw [setUp, ih hp]
    generalize (setUp lines (setUpLine line.stmt s)).inBuf = m
    rw [hf]

/-- A loaded program: the bytes of its set-up lines in the input buffer, its statements in the host, which stands at the
first, and nothing else changed. -/
theorem loadProgram_eq {s t : State} {program : List Line} (hp : s.phase = .idle) (h : loadProgram program s = some t) :
    ∃ stmts, assemble program = some stmts ∧
      t = { s with inBuf := (setUp program s).inBuf, hostProg := stmts, hostPc := 0 } := by
  unfold loadProgram at h
  cases ha : assemble program with
  | none => simp [ha] at h
  | some stmts =>
    simp only [ha, Option.map_some, Option.some.injEq] at h
    refine ⟨stmts, rfl, ?_⟩
    rw [← h, placeProgram, setUp_frame hp]

end Sys2Proof.Machine
end

