-- ==== Sys2Proof/Laws/Result.lean ====
section
/-! SUPPORT. The result of a call (30_encoding.md R106, 43_operations.md R223): when there is one, its shape and its
cells. -/

namespace Sys2Proof.Machine

@[simp] theorem matrixRows_length (s : State) : (matrixRows s).length = 256 := by
  simp [matrixRows]

/-- The shape law of R159. -/
theorem matrixRows_row_length {s : State} {row : List (Option Int)} (h : row ∈ matrixRows s) :
    row.length = s.rowLen.toNat := by
  obtain ⟨i, -, rfl⟩ := List.mem_map.1 h
  simp

theorem callResult_error {s : State} (hd : s.done = true) (he : s.err = true) :
    callResult s = some (.error s.errCode) := by
  simp [callResult, hd, he]

theorem callResult_matrix {s : State} (hd : s.done = true) (he : s.err = false) :
    callResult s = some (.matrix s.cycles s.rowLen (matrixRows s)) := by
  simp [callResult, hd, he]

/-- No call has ended. -/
theorem callResult_none {s : State} (hd : s.done = false) : callResult s = none := by
  simp [callResult, hd]

/-- All that a cell of a result can be. -/
theorem matrixCell_eq (s : State) (i j : Nat) :
    matrixCell s i j =
      if s.done = true ∧ s.err = false ∧ i < 256 ∧ j < s.rowLen.toNat then
        some (entryTime (outEntry s (i * s.rowLen.toNat + j)))
      else none := by
  unfold matrixCell
  cases hd : s.done with
  | false => simp [callResult_none hd]
  | true =>
    cases he : s.err with
    | true => simp [callResult_error hd he, CallResult.cell]
    | false =>
      rw [callResult_matrix hd he]
      by_cases hi : i < 256 <;> by_cases hj : j < s.rowLen.toNat <;>
        simp [CallResult.cell, matrixRows, hi, hj]

end Sys2Proof.Machine
end

