-- ==== Sys2Proof/Tests/Slice0.lean ====
section
/-! SUPPORT. Tests. Expected results are taken from 95_test_vectors.md (rows S, K, E, G and programs P1 to P5), from the
encodings of 30_encoding.md, or worked out by hand from the rule named. Each is one decision or one step on a small
state. The last part holds, for each statement that has hypotheses, a witness that meets them. -/

namespace Sys2Proof.Machine.Test

/-- Whether an outcome is a next state with a property. -/
def answers (o : Host.Outcome State Fault Refusal) (p : State → Bool) : Bool :=
  match o with
  | .next t => p t
  | .fault _ => false
  | .refused _ => false

/-- IDLE, with T and L set and a table present. -/
def ready (t l : Word) : State := { State.reset with tReg := t, byteLen := l, loaded := true }

/-- A command of mode `m` just started there. -/
def started (m : Mode) (t l : Word) : State := beginWords m (clearProgress (clearCompletion (ready t l)))

/-! ## Well-formedness and decoding -/

/-- The one ill-formed case (R104): a read with DATA. -/
theorem test_read_with_data_refused : (Instr.hostRd 0x08 1).wellFormed = false := by decide

theorem test_read_without_data_accepted : (Instr.hostRd 0x08 0).wellFormed = true := by decide

/-- Row K10: V 0, R 0, A 3, COUNT 5. -/
theorem test_decode_pktInvalid :
    decode .cal (.packet 0b00110000000000000000000000000101) = .pktInvalid 0 3 5 := by decide

/-- Row S6: V 1, R 0, A 1, COUNT 140. -/
theorem test_decode_pktValidScaled :
    decode .scaled (.packet 0b10010000000000000000000010001100) = .pktValidScaled 0 1 140 := by decide

/-- Row K11 with bit 30 set: V 1, R 1, A 3, COUNT 5. -/
theorem test_decode_pktValidCal :
    decode .cal (.packet 0b11110000000000000000000000000101) = .pktValidCal 1 3 5 := by decide

/-- Row E19: OPC is bits 3:0. -/
theorem test_decode_nop : decode .scaled (.command 0b00000000000000000000000000010000) = .nop 1 := by decide

theorem test_decode_unpack : decode .scaled (.command 0b00000000000000000000000000000001) = .unpack 0 := by decide

theorem test_decode_unpackCal : decode .scaled (.command 0b00000000000000000000000000000010) = .unpackCal 0 := by decide

/-- Row E18. -/
theorem test_decode_reservedCmd3 :
    decode .scaled (.command 0b00000000000000000000000000010011) = .reservedCmd3 1 := by decide

theorem test_decode_reservedCmd47 :
    decode .scaled (.command 0b11111111111111111111111111110110) = .reservedCmd47 2 0xFFFFFFF := by decide

/-- Row E17. -/
theorem test_decode_reservedCmd8F :
    decode .scaled (.command 0b00000000000000000000000000001111) = .reservedCmd8F 7 0 := by decide

/-- P1: `rd STATUS`. -/
theorem test_decode_hostRd : decode .scaled (.host 0x00800000000) = .hostRd 0x08 0 := by decide

/-- P1: `wr BYTE_LEN, 1024`. -/
theorem test_decode_hostWr : decode .scaled (.host 0x11400000400) = .hostWr 0x14 0x400 := by decide

/-- Section 2.1, byte order: `8C 00 00 90` is the word 0x9000008C. -/
theorem test_packet_bytes : decodeBytes .scaled .packet [0x8C, 0x00, 0x00, 0x90] = .ok (.pktValidScaled 0 1 140, []) := by
  decide

/-- Three bytes are no packet. -/
theorem test_truncated_bytes : decodeBytes .scaled .packet [0x8C, 0x00, 0x00] = .error .truncated := by decide

/-- The transactions of P1 to P3, as the host-program forms of R105 make them. -/
theorem test_statement_words :
    wr .tReg 1 = .bus 0x11000000001 ∧ wr .cmd 1 = .bus 0x10400000001 ∧ rd .rowLen = .bus 0x03000000000 ∧
    wr .calData 0xFFD9D68C = .bus 0x120FFD9D68C ∧ wr .irqEn 1 = .bus 0x10C00000001 := by decide

/-- The opcode table's numbering: the first words of a packet row, a command row and a transaction row. -/
theorem test_table_words :
    decodeTableWord 32 0x80000000 = some (.pktValidScaled 0 0 0) ∧ decodeTableWord 32 1 = some (.unpack 0) ∧
    decodeTableWord 48 0x10000000000 = some (.hostWr 0 0) ∧ decodeTableWord 48 0 = some (.hostRd 0 0) := by decide

/-! ## Placing and stepping -/

/-- A placed packet is run by the next step: row S1 gives entry 0. -/
theorem test_placed_packet_runs :
    answers (step (State.reset.withFetchWord 32 0x80000001)) (fun t => outEntry t 0 == 0x80000000000045C1) = true := by
  decide

/-- A placed command is run by the next step: row E6, T = 0 after reset. -/
theorem test_placed_command_runs :
    answers (step (State.reset.withFetchWord 32 1)) (fun t => statusWord t == 0x26) = true := by decide

/-- A placed transaction is run by the next step: row G1. -/
theorem test_placed_transaction_runs :
    answers (step (State.reset.withFetchWord 41 0)) (fun t => t.hostR == 0x54430100) = true := by decide

/-- A step with nothing to do. -/
theorem test_idle_waits : answers (step State.reset) (fun t => t == State.reset) = true := by decide

/-- P1: `bit0 r, 1, L1` goes back while DONE is 0. -/
theorem test_branch_back :
    answers (step { State.reset with hostProg := waitDone 0, hostPc := 1, hostR := 1 }) (fun t => t.hostPc == 0) = true := by
  decide

/-- P1: and goes on once it is 1. -/
theorem test_branch_on :
    answers (step { State.reset with hostProg := waitDone 0, hostPc := 1, hostR := 2 }) (fun t => t.hostPc == 2) = true := by
  decide

/-- U7. -/
theorem test_port_failure_stops :
    step { State.reset with hostProg := [.portFailure] } = .fault .platformPort := rfl

/-! ## Programs -/

/-- Program P2's input at P1's UNPACK: two set-up lines, then the statements of P1 with the label L1 (here 1). -/
def programP1 : List Line :=
  [⟨none, .inbuf 0 [0x01, 0x00, 0x00, 0x80]⟩, ⟨none, .inbuf 4 [0x00, 0x00, 0x00, 0x00]⟩,
    ⟨none, .wr .tReg 1⟩, ⟨none, .wr .byteLen 1024⟩, ⟨none, .wr .cmd 1⟩, ⟨some 1, .rd .status⟩, ⟨none, .bit0 1 1⟩,
    ⟨none, .rd .validCnt⟩, ⟨none, .rd .rowLen⟩]

/-- The transactions that P1 writes out, the branch to the statement of L1; an unknown label is no program. -/
theorem test_assemble :
    assemble programP1 = some
      [.bus 0x11000000001, .bus 0x11400000400, .bus 0x10400000001, .bus 0x00800000000, .branchIfClear 1 3,
        .bus 0x02800000000, .bus 0x03000000000] ∧
    assemble [⟨some 1, .rd .status⟩, ⟨none, .bit0 1 2⟩] = none := by decide

/-- `inbuf` is done before the first statement, wherever its line stands: the first word is P2's, and no stream is dirty. -/
theorem test_load_program :
    (loadProgram (programP1 ++ [⟨none, .inbuf 1 [0x02]⟩]) State.reset).map
      (fun t => (t.inBuf.take 4, t.hostPc, t.inputDirty, inRead t 0)) =
      some ([(0, 0x01), (1, 0x02), (2, 0x00), (3, 0x80)], 0, false, 0x80000201) := by decide

/-! ## Packets -/

/-- Rows S1 to S11. -/
theorem test_decodeScaled :
    decodeScaled 0x80000001 = 0x80000000000045C1 ∧ decodeScaled 0x00000000 = 0x1FFFFFFFFFFFFC18 ∧
    decodeScaled 0x7FFFFFFF = 0x7FFFFFFFFFFFFC18 ∧ decodeScaled 0x80000000 = 0x8000000000000000 ∧
    decodeScaled 0xC0000000 = 0x8000000000000000 ∧ decodeScaled 0x9000008C = 0xA00000000026258C ∧
    decodeScaled 0xA000008B = 0xC00000000025DFCB ∧ decodeScaled 0xFFFFFFFF = 0xE000045C0FFFBA3F ∧
    decodeScaled 0x0FFFFFFF = 0x1FFFFFFFFFFFFC18 ∧ decodeScaled 0x8000008D = 0x8000000000266B4D ∧
    decodeScaled 0x80000118 = 0x80000000004C4B18 := by decide

/-- Rows K2 to K6, K10, K11: the entry a word gets at a pixel from one table entry. -/
theorem test_correct :
    correct { State.reset with calTable := [(140, 500)] } 1 0x9000008C = 0xA000000000262780 ∧
    correct { State.reset with calTable := [(139, 0xFFFFFC18)] } 0 0x8000008B = 0x9FFFFFFFFFFFFC18 ∧
    correct { State.reset with calTable := [(995, 123456)] } 7 0x8FFFFFFF = 0x8000045C0FFD8630 ∧
    correct { State.reset with calTable := [(420, 0x80000000)] } 3 0x80000000 = 0x9FFFFFFF80000000 ∧
    correct { State.reset with calTable := [(35839, 0x7FFFFFFF)] } 255 0x8000008B = 0x800000007FFFFFFF ∧
    correct State.reset 9 0x30000005 = 0x7FFFFFFFFFFFFC18 ∧
    correct { State.reset with calTable := [(285, 0)] } 2 0xB0000005 = 0xE000000000000000 := by decide

/-- Row S3 at word 1 of T = 1, C = 2: index 2 (section 2.2), ADDR_NZ set, not counted valid. -/
theorem test_pktInvalid :
    answers (exec (.pktInvalid 1 3 0xFFFFFFF) { started .scaled 1 2048 with n := 1, wordCnt := 1 })
      (fun t => outEntry t 2 == 0x7FFFFFFFFFFFFC18 && t.addrNz && t.validCnt == 0 && t.wordCnt == 2 && t.n == 2) =
      true := by decide

/-- Row S1 at word 700 of T = 2, C = 2: index 378 (section 2.2). -/
theorem test_pktValidScaled :
    answers (exec (.pktValidScaled 0 0 1) { started .scaled 2 4096 with n := 700 })
      (fun t => outEntry t 378 == 0x80000000000045C1 && t.validCnt == 1 && !t.addrNz) = true := by decide

/-- P3, word 513: row 0, index 3, table entry 139. -/
theorem test_pktValidCal :
    answers (exec (.pktValidCal 0 0 139) { started .cal 2 4096 with n := 513, calTable := [(139, 123456)] })
      (fun t => outEntry t 3 == 0x800000000001E240 && t.validCnt == 1) = true := by decide

/-- P3, word 2: row 1, index 4, table entry 140, VALUE −1000 with V = 1. -/
theorem test_pktValidCal_minus_one :
    answers (exec (.pktValidCal 0 1 140) { started .cal 2 4096 with n := 2, calTable := [(140, 0xFFD9D68C)] })
      (fun t => outEntry t 4 == 0xBFFFFFFFFFFFFC18 && t.addrNz) = true := by decide

/-- Section 2.2, T = 2, C = 2. -/
theorem test_address_calculator :
    outIndexOf 2 4 513 = 3 ∧ outIndexOf 2 4 700 = 378 ∧ outIndexOf 2 4 1022 = 1022 ∧ pixelOf 2 700 = 94 ∧
    columnOf 2 513 = 3 ∧ flatten 2 0 3 = 513 ∧ flatten 2 94 2 = 700 ∧ flatten 2 255 3 = 1023 := by decide

/-! ## Commands -/

/-- NOP clears nothing: STATUS 0x16 stays (section 2.3). -/
theorem test_nop :
    answers (exec (.nop 0) { State.reset with done := true, err := true, errCode := 1 })
      (fun t => statusWord t == 0x16) = true := by decide

/-- Row E1: CYCLES 1, ROW_LEN 1, BUSY. -/
theorem test_unpack :
    answers (exec (.unpack 0) { ready 1 1024 with loaded := false })
      (fun t => statusWord t == 0x01 && t.cycles == 1 && t.rowLen == 1 && t.mode == .scaled) = true := by decide

/-- Row E7: FormatError before GeometryError. -/
theorem test_unpack_format :
    answers (exec (.unpack 0) (ready 0 6)) (fun t => statusWord t == 0x16) = true := by decide

/-- Row E12: GeometryError before CalibrationUnavailable. -/
theorem test_unpackCal_geometry :
    answers (exec (.unpackCal 0) { ready 2 1024 with loaded := false }) (fun t => statusWord t == 0x26) = true := by
  decide

/-- Row E14: the table is checked whatever N is, and the counters are cleared. -/
theorem test_unpackCal_unavailable :
    answers (exec (.unpackCal 0) { ready 1 0 with loaded := false, wordCnt := 9, addrNz := true })
      (fun t => statusWord t == 0x36 && t.wordCnt == 0) = true := by decide

/-- Row E18: the counters and ADDR_NZ stay. -/
theorem test_reservedCmd3 :
    answers (exec (.reservedCmd3 1) { State.reset with addrNz := true, wordCnt := 9 })
      (fun t => statusWord t == 0x146 && t.wordCnt == 9) = true := by decide

theorem test_reservedCmd47 :
    answers (exec (.reservedCmd47 2 0) State.reset) (fun t => statusWord t == 0x46) = true := by decide

/-- Row E17. -/
theorem test_reservedCmd8F :
    answers (exec (.reservedCmd8F 7 0) State.reset) (fun t => statusWord t == 0x46) = true := by decide

/-- Row E9: an empty stream is complete at the first step after its start. -/
theorem test_empty_stream_completes :
    answers (step (started .scaled 1 0)) (fun t => statusWord t == 0x02 && t.rowLen == 0) = true := by decide

/-! ## Host transactions -/

/-- Row G8: CAL_DATA past the table. -/
theorem test_rd_cal_data_past_end :
    answers (exec (.hostRd 0x20 0) { State.reset with calIdx := 35840 }) (fun t => t.hostR == 0) = true := by decide

/-- Row G9: CAL_DATA reads the entry and does not advance CAL_IDX. -/
theorem test_rd_cal_data :
    answers (exec (.hostRd 0x20 0) { State.reset with calIdx := 140, calTable := [(140, 0xFFD9D68C)] })
      (fun t => t.hostR == 0xFFD9D68C && t.calIdx == 140) = true := by decide

/-- Row G7: the last entry, after which CAL_IDX is 35840. -/
theorem test_wr_cal_data :
    answers (exec (.hostWr 0x20 5) { State.reset with calIdx := 35839 })
      (fun t => t.calTable == [(35839, 5)] && t.calIdx == 0x8C00) = true := by decide

/-- Rows G12 to G14 and G16: a locked write sets WWB, a write to a reserved offset does not. -/
theorem test_wr_while_busy :
    answers (exec (.hostWr 0x10 5) (started .scaled 1 1024)) (fun t => t.tReg == 1 && t.wwb) = true ∧
    answers (exec (.hostWr 0x04 2) (started .scaled 1 1024)) (fun t => t.mode == .scaled && t.wwb) = true ∧
    answers (exec (.hostWr 0x40 1) (started .scaled 1 1024)) (fun t => !t.wwb) = true := by decide

/-- Section 2.3: STATUS 0x46 with 0x4 and 0x2 written, and 0x302 with 0x306. -/
theorem test_wr_status :
    statusWord (acknowledge 0x4 { State.reset with done := true, err := true, errCode := 4 }) = 0x02 ∧
    statusWord (acknowledge 0x2 { State.reset with done := true, err := true, errCode := 4 }) = 0x44 ∧
    statusWord (acknowledge 0x306 { State.reset with done := true, addrNz := true, wwb := true }) = 0 := by decide

/-- Row G17. -/
theorem test_irq :
    irq { State.reset with done := true, ie := true } = true ∧
    irq (acknowledge 2 { State.reset with done := true, ie := true }) = false := by decide

/-! ## The result of a call -/

/-- R106: a failed call has its error only, and while no call has ended there is no result. -/
theorem test_result_error :
    callResult { State.reset with done := true, err := true, errCode := 2, rowLen := 4 } = some (.error 2) ∧
    matrixCell { State.reset with done := true, err := true, errCode := 2, rowLen := 4 } 0 0 = none ∧
    callResult (started .scaled 1 1024) = none := by decide

/-- Section 2.2, T = 2, C = 2: entry 378 is row 94, column 2; the matrix has no column 4 and no row 256. -/
theorem test_result_cell :
    let t := { State.reset with done := true, rowLen := 4, outMem := [(378, 0x80000000000045C1)] }
    matrixCell t 94 2 = some (some 17857) ∧ matrixCell t 94 4 = none ∧ matrixCell t 256 0 = none := by
  simp only [matrixCell_eq]
  decide

/-! ## Reset -/

/-- Section 2.6: reset while IDLE clears LOADED and keeps the table and the output memory. -/
theorem test_reset_idle :
    answers (step { ready 1 1024 with calTable := [(0, 5)], outMem := [(0, 7)], hostProg := [.reset] })
      (fun t => !t.loaded && t.tReg == 0 && t.calTable == [(0, 5)] && t.outMem == [(0, 7)]) = true := by decide

/-! ## Witnesses: states of the invariant -/

theorem inv_of_empty (s : State) (h1 : s.calTable = []) (h2 : s.inBuf = []) (h3 : s.outMem = []) (h4 : s.outOld = [])
    (hs : s.done = false ∧ s.err = false ∧ s.errCode = 0) (hb : s.phase = .busy → BusyInv s) : Inv s := by
  obtain ⟨hd, he, hc⟩ := hs
  refine ⟨⟨?_, ?_, ?_, ?_⟩, ⟨fun _ => ⟨hd, he⟩, by simp [he, hc], by simp [hc]⟩, hb⟩
  · rw [h1]
    exact ⟨List.Pairwise.nil, fun _ h => nomatch h⟩
  · rw [h2]
    exact ⟨List.Pairwise.nil, fun _ h => nomatch h⟩
  · rw [h3]
    exact ⟨List.Pairwise.nil, fun _ h => nomatch h⟩
  · rw [h4]
    exact ⟨List.Pairwise.nil, fun _ h => nomatch h⟩

/-- An UNPACK of 256 words that has just started. -/
theorem inv_started : Inv (started .scaled 1 1024) :=
  inv_of_empty _ rfl rfl rfl rfl ⟨rfl, rfl, rfl⟩ fun _ => busyInv_beginWords (by decide)

/-- The same at the host's turn, its next statement `x`. -/
def startedAt (x : HostStmt) : State := { started .scaled 1 1024 with hostProg := [x], turns := [.host] }

theorem inv_startedAt (x : HostStmt) : Inv (startedAt x) := inv_started.other ..

/-- The same after a host store to entry 255, the last of the command. -/
def contestedAt (x : HostStmt) : State := contest 255 5 (startedAt x)

theorem inv_contestedAt (x : HostStmt) : Inv (contestedAt x) :=
  inv_contest (inv_startedAt x) rfl (show 255 < (1024 : Word).toNat / 4 by decide) 5

/-- A command of 256 words whose words are all processed. -/
theorem finished_exists : ∃ s, Inv s ∧ SequencerTurn s ∧ s.phase = .busy ∧ s.inputDirty = false ∧ wordTotal s = 256 ∧
    s.n.toNat = wordTotal s := by
  have key : ∀ k, k ≤ 256 → ∃ s, BusyInv s ∧ MemoryInv s ∧ StatusInv s ∧ s.turns = [] ∧ s.phase = .busy ∧
      s.inputDirty = false ∧ wordTotal s = 256 ∧ s.n.toNat = k := by
    intro k
    induction k with
    | zero => exact fun _ => ⟨_, inv_started.busy rfl, inv_started.memory, inv_started.status, rfl, rfl, rfl, rfl, rfl⟩
    | succ k ih =>
      intro hk
      obtain ⟨s, hb, hm, hs, ht, hp, hd, hw, hn⟩ := ih (by omega)
      have hlt : s.n.toNat < wordTotal s := by omega
      have hx := (hb.source_index hlt).2.2
      refine ⟨retire _ 0 _ s, busyInv_retire hb hlt _ 0 _ fun _ => ⟨rfl, rfl⟩,
        ⟨hm.calTable, hm.inBuf, ⟨wf_set hm.outMem.1 _ _, below_set hm.outMem.2 (by omega) _⟩, hm.outOld⟩,
        ⟨hs.busy_not_done, hs.err_iff_code, hs.code_le⟩, ht, hp, hd, hw, ?_⟩
      show (s.n + 1).toNat = k + 1
      rw [BitVec.toNat_add]
      simp
      omega
  obtain ⟨s, hb, hm, hs, ht, hp, hd, hw, hn⟩ := key 256 (by omega)
  exact ⟨s, ⟨hm, hs, fun _ => hb⟩, .inr ⟨ht, hp⟩, hp, hd, hw, by omega⟩

/-! ## Witnesses: one per statement with hypotheses, under its name -/

theorem witness_DecodeOfEncodeIsIdentity :
    (Instr.pktValidCal 1 2 140).wellFormed = true ∧ (Instr.pktValidCal 1 2 140).readIn .cal = true ∧
    (Instr.hostRd 0xFF 0).wellFormed = true ∧ (Instr.hostRd 0xFF 0).readIn .scaled = true := by decide

theorem witness_OpcodeRowsMatchDecoder :
    (⟨"RESERVED_CMD_4_7", .command, 0x0000000C, 0x00000004⟩ : Row) ∈ opcodeTable := by decide

/-- The boundary between the two classes. -/
theorem witness_PacketFieldsByArithmetic :
    (0x7FFFFFFF : Word).toNat < 2 ^ 31 ∧ 2 ^ 31 ≤ (0x80000000 : Word).toNat := by decide

/-- Each opcode clause, at its boundaries, and two data that agree. -/
theorem witness_CommandChosenByOpcodeAlone :
    (0xFFFFFFF0 : Word).toNat % 16 = 0 ∧ (0x11 : Word).toNat % 16 = 1 ∧ (0x12 : Word).toNat % 16 = 2 ∧
    3 ≤ (0x13 : Word).toNat % 16 ∧ 3 ≤ (0xF : Word).toNat % 16 ∧
    (0x07 : BitVec 8).toNat / 4 = 1 ∧ (0x12 : Word).toNat % 16 = (0xFFFFFFF2 : Word).toNat % 16 := by decide

theorem witness_BytesDecodeOrAreRejected :
    (Instr.hostWr 0x14 0x400).wellFormed = true ∧ (Instr.hostWr 0x14 0x400).readIn .cal = true ∧
    ([0x8C, 0x00, 0x00] : List Byte).length < 4 ∧ ([0, 0, 0, 0, 0] : List Byte).length < 6 ∧
    2 ≤ (2 : Byte).toNat := by decide

/-- The first word of a command, and its last word with the input buffer changed. -/
theorem witness_SequencerStepRunsPacketAtIndex :
    (SequencerTurn (started .scaled 1 1024) ∧ (started .scaled 1 1024).phase = .busy ∧
      (started .scaled 1 1024).n.toNat < (started .scaled 1 1024).byteLen.toNat / 4 ∧
      (started .scaled 1 1024).inputDirty = false) ∧
    (SequencerTurn { started .scaled 1 1024 with n := 255, inputDirty := true, turns := [.block] } ∧
      (255 : BitVec 30).toNat < (1024 : Word).toNat / 4) :=
  ⟨⟨.inr ⟨rfl, rfl⟩, rfl, by decide, rfl⟩, .inl rfl, by decide⟩

theorem witness_HostStepRunsTransaction :
    HostTurn (startedAt (rd .status)) ∧
    (startedAt (rd .status)).hostProg[(startedAt (rd .status)).hostPc]? = some (.bus 0x00800000000) :=
  ⟨.inl rfl, by decide⟩

theorem witness_CompletionSetsDone :
    SequencerTurn (started .cal 1 0) ∧ (started .cal 1 0).phase = .busy ∧
    (started .cal 1 0).n.toNat = (started .cal 1 0).byteLen.toNat / 4 :=
  ⟨.inr ⟨rfl, rfl⟩, rfl, by decide⟩

theorem witness_StepStopsOnlyOnHostFault :
    (HostTurn (startedAt .portFailure) ∧
      (startedAt .portFailure).hostProg[(startedAt .portFailure).hostPc]? = some .portFailure) ∧
    ¬((startedAt .reset).hostProg[(startedAt .reset).hostPc]? = some .portFailure) :=
  ⟨⟨.inl rfl, rfl⟩, by decide⟩

theorem witness_IdleMachineWaits :
    State.reset.phase = .idle ∧ State.reset.hostProg.length ≤ State.reset.hostPc := by decide

theorem witness_PacketFrame :
    isPacket (.pktInvalid 0 3 5) = true ∧
    answers (exec (.pktInvalid 0 3 5) (started .cal 1 1024)) (fun _ => true) = true := by decide

theorem witness_InvalidEntryIgnoresOtherBits :
    (0x30000005 : Word).toNat < 2 ^ 31 ∧ (0x7FFFFFFF : Word).toNat < 2 ^ 31 ∧
    (0x30000005 : Word).toNat / 2 ^ 28 % 4 = (0x7FFFFFFF : Word).toNat / 2 ^ 28 % 4 := by decide

theorem witness_ScaledEntryDeterminesCount :
    2 ^ 31 ≤ (0x80000000 : Word).toNat ∧ 2 ^ 31 ≤ (0xFFFFFFFF : Word).toNat := by decide

theorem witness_CalibrationKeepsValidity : packetValid 0x7FFFFFFF = false := by decide

theorem witness_CoarseCountsWholePeriods :
    2 ^ 31 ≤ (0x8000008D : Word).toNat ∧
    calEntry { State.reset with calTable := [(1, 0)] } (0 * 140 + (0x8000008D : Word).toNat % 2 ^ 28 % 140) = 0 := by
  decide

/-- Row K3, program P3's word 2, and row K5 for a negative VALUE. -/
theorem witness_CorrectedMinusOneIsNotSentinel :
    (2 ^ 31 ≤ (0x8000008B : Word).toNat ∧
      ((0x8000008B : Word).toNat % 2 ^ 28 / 140 : Nat) * 2499980 +
        (calEntry { State.reset with calTable := [(139, 0xFFFFFC18)] }
          (0 * 140 + (0x8000008B : Word).toNat % 2 ^ 28 % 140)).toInt = -1000) ∧
    (2 ^ 31 ≤ (0x9000008C : Word).toNat ∧
      ((0x9000008C : Word).toNat % 2 ^ 28 / 140 : Nat) * 2499980 +
        (calEntry { State.reset with calTable := [(140, 0xFFD9D68C)] }
          (1 * 140 + (0x9000008C : Word).toNat % 2 ^ 28 % 140)).toInt = -1000) ∧
    (2 ^ 31 ≤ (0x80000000 : Word).toNat ∧
      ((0x80000000 : Word).toNat % 2 ^ 28 / 140 : Nat) * 2499980 +
        (calEntry { State.reset with calTable := [(420, 0x80000000)] }
          (3 * 140 + (0x80000000 : Word).toNat % 2 ^ 28 % 140)).toInt < 0) := by decide

/-- The first and the last word of a command of 256 words. -/
theorem witness_WordOrderDoesNotMatter :
    (started .scaled 1 1024).outMem.wf ∧ 1 ≤ (started .scaled 1 1024).tReg.toNat ∧
    (started .scaled 1 1024).rowLen.toNat = (started .scaled 1 1024).byteLen.toNat / 4 / 256 ∧
    (started .scaled 1 1024).byteLen.toNat / 4 % ((started .scaled 1 1024).tReg.toNat * 256) = 0 ∧
    0 < (started .scaled 1 1024).byteLen.toNat / 4 ∧ 255 < (started .scaled 1 1024).byteLen.toNat / 4 ∧ 0 ≠ 255 := by
  decide

theorem witness_SourceOrderPlacesWord : 2 < 3 ∧ 255 < 256 := by decide

/-- T = 2, C = 2: the last word, the last cell, the last index, and two words with one index. -/
theorem witness_AddrCalcIsBijection :
    1 ≤ 2 ∧ 1023 < 256 * 2 * 2 ∧ 255 < 256 ∧ 3 < 2 * 2 ∧
    outIndexOf 2 (2 * 2) 513 = outIndexOf 2 (2 * 2) (flatten 2 0 3) := by decide

theorem witness_NopChangesNothing : State.reset.phase = .idle := rfl

/-- A calibrated command, the empty one, and the longest stream that one slot per cycle allows. -/
theorem witness_CommandStarts :
    StartsIn .cal (ready 1 1024) ∧ StartsIn .scaled (ready 1 0) ∧ StartsIn .scaled (ready 1 0xFFFFFC00) :=
  ⟨⟨rfl, by decide, by decide, by decide, fun _ => rfl⟩, ⟨rfl, by decide, by decide, by decide, fun _ => rfl⟩,
    ⟨rfl, by decide, by decide, by decide, fun _ => rfl⟩⟩

/-- Row E7. -/
theorem witness_FormatErrorReported : (ready 0 6).phase = .idle ∧ (ready 0 6).byteLen.toNat % 4 ≠ 0 := by decide

/-- Rows E8 and E5: each of the two causes alone. -/
theorem witness_GeometryErrorReported :
    ((ready 0 0).phase = .idle ∧ (ready 0 0).byteLen.toNat % 4 = 0 ∧ (ready 0 0).tReg.toNat = 0) ∧
    ((ready 2 1024).byteLen.toNat % 4 = 0 ∧
      (ready 2 1024).byteLen.toNat / 4 % ((ready 2 1024).tReg.toNat * 256) ≠ 0) := by decide

/-- Row E10. -/
theorem witness_MissingTableReported :
    StartsIn .scaled { ready 1 1024 with loaded := false } ∧ { ready 1 1024 with loaded := false }.loaded = false :=
  ⟨⟨rfl, by decide, by decide, by decide, fun h => nomatch h⟩, rfl⟩

theorem witness_ReservedCommandIsIllegal :
    isReservedCommand (.reservedCmd3 0) = true ∧ isReservedCommand (.reservedCmd47 3 0) = true ∧
    isReservedCommand (.reservedCmd8F 0 0) = true ∧ State.reset.phase = .idle := by decide

theorem witness_CommandWhileBusyIgnored :
    isCommand (.nop 0) = true ∧ isCommand (.unpackCal 0) = true ∧ (started .scaled 1 1024).phase = .busy := by decide

/-- Both ways to meet the premise, and an offset of each register: the last of its word, or the first and the last of
the reserved range. -/
theorem witness_ReadReturnsRegister :
    State.reset.phase = .idle ∧
    ((started .scaled 1 1024).phase = .busy ∧ (0x23 : BitVec 8).toNat / 4 ≠ 9 ∧ (0x2C : BitVec 8).toNat / 4 ≠ 10) ∧
    ([0x03, 0x07, 0x0B, 0x0F, 0x13, 0x17, 0x1B, 0x1F, 0x23, 0x27, 0x2B, 0x2F, 0x33, 0x37, 0x3B] : List (BitVec 8)).map
      (fun o => o.toNat / 4) = List.range 15 ∧
    15 ≤ (0x3C : BitVec 8).toNat / 4 ∧ 15 ≤ (0xFF : BitVec 8).toNat / 4 ∧
    (35839 : BitVec 16).toNat ≤ 35839 ∧ 35840 ≤ (35840 : BitVec 16).toNat := by decide

theorem witness_BusyProgressReadIsBounded :
    Inv (started .scaled 1 1024) ∧ (started .scaled 1 1024).phase = .busy ∧ (0x24 : BitVec 8).toNat / 4 = 9 ∧
    (0x2B : BitVec 8).toNat / 4 = 10 :=
  ⟨inv_started, rfl, by decide, by decide⟩

theorem witness_OffsetLowBitsIgnored : (0x24 : BitVec 8).toNat / 4 = (0x27 : BitVec 8).toNat / 4 := by decide

/-- Each field written with a 0 and with a 1. -/
theorem witness_StatusWriteClearsByOnes :
    (0x0B : BitVec 8).toNat / 4 = 2 ∧ (0x306 : Word).toNat / 2 % 2 = 1 ∧ (0x306 : Word).toNat / 4 % 2 = 1 ∧
    (0x306 : Word).toNat / 256 % 2 = 1 ∧ (0x306 : Word).toNat / 512 % 2 = 1 ∧ (0xFFFFFCF9 : Word).toNat / 2 % 2 = 0 ∧
    (0xFFFFFCF9 : Word).toNat / 4 % 2 = 0 ∧ (0xFFFFFCF9 : Word).toNat / 256 % 2 = 0 ∧
    (0xFFFFFCF9 : Word).toNat / 512 % 2 = 0 := by decide

theorem witness_ConfigurationWriteStores :
    State.reset.phase = .idle ∧ (0x0F : BitVec 8).toNat / 4 = 3 ∧ (0x10 : BitVec 8).toNat / 4 = 4 ∧
    (0x17 : BitVec 8).toNat / 4 = 5 ∧ (0x18 : BitVec 8).toNat / 4 = 6 ∧ (0x1F : BitVec 8).toNat / 4 = 7 := by decide

/-- Rows G7 and G8: the last legal index and the first illegal one. -/
theorem witness_CalDataWriteStoresAndAdvances :
    (0x20 : BitVec 8).toNat / 4 = 8 ∧ { State.reset with calIdx := 35839 }.phase = .idle ∧
    { State.reset with calIdx := 35839 }.calIdx.toNat ≤ 35839 ∧
    35840 ≤ { State.reset with calIdx := 35840 }.calIdx.toNat := by decide

theorem witness_LockedWriteSetsWwb :
    (started .scaled 1 1024).phase = .busy ∧ (0x07 : BitVec 8).toNat / 4 = 1 ∧ 4 ≤ (0x10 : BitVec 8).toNat / 4 ∧
    (0x23 : BitVec 8).toNat / 4 ≤ 8 := by decide

theorem witness_ReadOnlyWriteIgnored :
    (0x03 : BitVec 8).toNat / 4 = 0 ∧ 9 ≤ (0x24 : BitVec 8).toNat / 4 ∧ 9 ≤ (0xFF : BitVec 8).toNat / 4 := by decide

theorem witness_CmdWriteIssuesCommand : (0x07 : BitVec 8).toNat / 4 = 1 := by decide

/-- An instruction of each kind that a clause speaks of. -/
theorem witness_MemoriesChangeOnlyByTheirWriters :
    answers (exec (.pktInvalid 0 0 0) (started .scaled 1 1024)) (fun t => t.outMem != []) = true ∧
    answers (exec (.hostWr 0x20 5) State.reset) (fun t => t.calTable != []) = true ∧
    answers (exec (.hostRd 0x00 0) State.reset) (fun t => t.hostR != 0) = true := by decide

/-- A step that sets DONE by completion, and one that sets DONE and ERR at the start. -/
theorem witness_DoneSetOnlyByCommandEnd :
    (started .scaled 1 0).done = false ∧ answers (step (started .scaled 1 0)) (fun t => t.done && !t.err) = true ∧
    State.reset.err = false ∧
    answers (step { State.reset with hostProg := [wr .cmd 1] }) (fun t => t.done && t.err) = true := by decide

/-- The second step is a write to CMD. -/
theorem witness_WritesCmd : WritesCmd { State.reset with hostProg := [wr .cmd 1] } :=
  ⟨_, 0x04, 1, rfl, by decide, by decide⟩

/-- A step that stays BUSY, one that completes, and a reset. -/
theorem witness_ConfigurationFrozenWhileBusy :
    (started .scaled 1 1024).phase = .busy ∧
    answers (step (startedAt (wr .tReg 5))) (fun t => t.phase == .busy) = true ∧
    answers (step (started .scaled 1 0)) (fun t => t.phase == .idle) = true ∧
    ∃ t, step (startedAt .reset) = .next t ∧ t.phase = .idle :=
  ⟨rfl, by decide, by decide, _, rfl, rfl⟩

theorem witness_ResetInputRestoresBlock :
    (HostTurn (startedAt .reset) ∧ (startedAt .reset).hostProg[(startedAt .reset).hostPc]? = some .reset) ∧
    HostTurn { State.reset with hostProg := [.reset] } ∧ { State.reset with hostProg := [.reset] }.phase = .idle :=
  ⟨⟨.inl rfl, rfl⟩, .inr ⟨rfl, rfl⟩, rfl⟩

/-- The last entry, which the host has stored to, and the first one past the command. -/
theorem witness_ResetWhileBusyMixesEntries :
    Inv (contestedAt .reset) ∧ HostTurn (contestedAt .reset) ∧ (contestedAt .reset).phase = .busy ∧
    (contestedAt .reset).hostProg[(contestedAt .reset).hostPc]? = some .reset ∧
    255 < (contestedAt .reset).byteLen.toNat / 4 ∧ wordIndex (contestedAt .reset) 255 = 255 ∧
    (contestedAt .reset).byteLen.toNat / 4 ≤ 256 :=
  ⟨inv_contestedAt _, .inl rfl, rfl, rfl, by decide⟩

/-- The last entry of a command in progress and the first one past it. -/
theorem witness_OutputReadIsExactOnceIdle :
    (Inv (startedAt (.loadOutput 255)) ∧ HostTurn (startedAt (.loadOutput 255)) ∧
      (startedAt (.loadOutput 255)).phase = .busy ∧ 255 < (startedAt (.loadOutput 255)).byteLen.toNat / 4 ∧
      (255 : BitVec 30).toNat = wordIndex (startedAt (.loadOutput 255)) 255) ∧
    (startedAt (.loadOutput 256)).byteLen.toNat / 4 ≤ (256 : BitVec 30).toNat ∧
    (startedAt (.loadOutput 256)).hostProg[(startedAt (.loadOutput 256)).hostPc]? = some (.loadOutput 256) :=
  ⟨⟨inv_startedAt _, .inl rfl, rfl, by decide⟩, by decide, rfl⟩

/-- The last byte of the stream of a command in progress, and the first one past it; its last output entry, whose
word is still to come, its first, whose word is processed, and the first one past it. -/
theorem witness_HostStoreDuringCommand :
    HostTurn (startedAt (.storeInput 1023 5)) ∧
    (startedAt (.storeInput 1023 5)).hostProg[(startedAt (.storeInput 1023 5)).hostPc]? =
      some (.storeInput 1023 5) ∧
    answers (step (startedAt (.storeInput 1023 5))) (fun t => t.inputDirty) = true ∧
    answers (step (startedAt (.storeInput 1024 5))) (fun t => !t.inputDirty) = true ∧
    answers (step (startedAt (.storeOutput 255 5)))
      (fun t => outEntry t 255 == 5 && t.contested == [] && t.phase == .busy) = true ∧
    answers (step { startedAt (.storeOutput 0 5) with n := 1 })
      (fun t => outEntry t 0 == 5 && t.contested == [0] && t.phase == .busy) = true ∧
    answers (step (startedAt (.storeOutput 256 5))) (fun t => outEntry t 256 == 5 && t.contested == []) = true :=
  ⟨.inl rfl, rfl, by decide⟩

theorem witness_PowerCycleForgetsTable :
    HostTurn (startedAt .powerCycle) ∧
    (startedAt .powerCycle).hostProg[(startedAt .powerCycle).hostPc]? = some .powerCycle :=
  ⟨.inl rfl, rfl⟩

/-- Both ways to be just after reset. -/
theorem witness_FirstCommandAfterResetFails :
    (State.reset = State.reset ∨ False) ∧
    HostTurn (startedAt .reset) ∧ (startedAt .reset).hostProg[(startedAt .reset).hostPc]? = some .reset ∧
    ∃ t, step (startedAt .reset) = .next t :=
  ⟨.inl rfl, .inl rfl, rfl, _, rfl⟩

theorem witness_InvariantKeptByEveryStep :
    Inv (startedAt (wr .tReg 5)) ∧ (∃ t, step (startedAt (wr .tReg 5)) = .next t) ∧
    Inv (startedAt .reset) ∧ ∃ t, step (startedAt .reset) = .next t :=
  ⟨inv_startedAt _, ⟨_, rfl⟩, inv_startedAt _, _, rfl⟩

theorem witness_StatusReadsConsistent : Inv (started .scaled 1 1024) ∧ (statusWord (started .scaled 1 1024)).getLsbD 0 = true :=
  ⟨inv_started, by decide⟩

/-- A command completes although the host stored to an entry of it, which the host then still finds (R217). -/
theorem test_host_store_after_write_stays :
    answers (step (contest 0 7 { started .scaled 1 1024 with n := 256 }))
      (fun t => t.done && t.phase == .idle && outEntry t 0 == 7) = true := by decide

/-- R74: a host store made before the word's OutWrite is replaced by the command's entry, row S1. -/
theorem test_host_store_before_write_replaced :
    answers (exec (.pktValidScaled 0 0 1) (contest 0 7 (started .scaled 1 1024)))
      (fun t => outEntry t 0 == 0x80000000000045C1 && t.contested == []) = true := by decide

/-- 256 words, one column: row 255 and column 0 are the last of the matrix, row 256 and column 1 the first beyond it;
the host has stored to the entry of the last word. -/
theorem witness_CompletionDeliversMatrix : ∃ s, Inv s ∧ SequencerTurn s ∧ s.phase = .busy ∧ s.inputDirty = false ∧
    s.n.toNat = s.byteLen.toNat / 4 ∧ s.n.toNat = 256 ∧ s.rowLen.toNat = 1 ∧ wordIndex s 255 ∈ s.contested := by
  obtain ⟨s, h1, h2, h3, h4, h5, h6⟩ := finished_exists
  have hb := h1.busy h3
  have hr := hb.rowLen
  rw [h5] at hr
  obtain ⟨hs, -, hx⟩ := hb.source_index (k := 255) (by omega)
  refine ⟨contest (wordIndex s 255) 5 s, inv_contest h1 h3 hx 5, h2, h3, h4, h6, h6.trans h5, hr,
    (mem_contested_contest _ _ _ _).2 (.inr ⟨rfl, ?_⟩)⟩
  rw [hs]
  omega

theorem witness_CommandProducesMatrix :
    StartsIn .cal (ready 2 4096) ∧ (ready 2 4096).turns = [] ∧ StartsIn .scaled (ready 1 0) :=
  ⟨⟨rfl, by decide, by decide, by decide, fun _ => rfl⟩, rfl, ⟨rfl, by decide, by decide, by decide, fun _ => rfl⟩⟩

end Sys2Proof.Machine.Test
end

section
/-! The scope of the model (00_scope.md): which steps of the two agents complete, and what the host's stores into the two
memories do in either phase. -/

namespace Sys2Proof.Machine

/-! ## Which steps complete -/

theorem hostStmtStep_next {stmt : HostStmt} (h : stmt ≠ .portFailure) (s : State) :
    ∃ t, hostStmtStep stmt s = .next t := by
  cases stmt with
  | bus x =>
    obtain ⟨t, ht, -⟩ := exec_effect (decodeTransaction x) s
    exact ⟨t, ht⟩
  | branchIfClear bit target => exact ⟨_, rfl⟩
  | storeInput a b => exact ⟨_, rfl⟩
  | storeOutput x e => exact ⟨_, rfl⟩
  | loadOutput x => exact ⟨_, rfl⟩
  | reset => exact ⟨_, rfl⟩
  | powerCycle => exact ⟨_, rfl⟩
  | portFailure => exact absurd rfl h

theorem hostStep_next {s : State} (h : s.hostProg[s.hostPc]? ≠ some .portFailure) : ∃ t, hostStep s = .next t := by
  unfold hostStep
  split
  · exact ⟨s, rfl⟩
  · rename_i stmt hs
    exact hostStmtStep_next (fun hf => h (hf ▸ hs)) _

theorem sequencerStep_next (s : State) : ∃ t, sequencerStep s = .next t := by
  rcases sequencerStep_cases s with ⟨-, h⟩ | ⟨-, -, h⟩ | ⟨-, -, h⟩ | ⟨-, -, h⟩ <;> exact ⟨_, h⟩

/-- Settles O13: the sequencer's step always completes, and the host's completes at every statement but `portFailure`. -/
theorem stepStopsOnlyOnHostFault : Obligations.StepStopsOnlyOnHostFault := by
  refine fun s => ⟨fun ⟨ht, hs⟩ => step_of_stmt ht hs, fun h => ?_⟩
  unfold StepsOn
  rcases turn_cases s with ht | ht
  · rw [step_of_sequencerTurn ht]
    exact sequencerStep_next _
  · rw [step_of_hostTurn ht]
    exact hostStep_next fun hs => h ⟨ht, hs⟩

/-! ## The host's stores -/

theorem inputDirty_storeInput_iff (a : Nat) (b : Byte) (s : State) :
    (storeInput a b s).inputDirty = true ↔ s.inputDirty = true ∨ (s.phase = .busy ∧ a < s.byteLen.toNat) := by
  simp

theorem streamWord_dirty {s : State} (h : s.inputDirty = true) (n : Nat) : streamWord s n = Config.freeWord s.draws n :=
  if_pos h

theorem streamWord_clean {s : State} (h : s.inputDirty = false) (n : Nat) : streamWord s n = inRead s (4 * n) :=
  if_neg (by simp [h])

theorem storeOutput_inside {x : Nat} {s : State} (hp : s.phase = .busy) (hx : x < wordTotal s) (e : Entry) :
    storeOutput x e s = contest x e s :=
  if_pos ⟨hp, hx⟩

theorem storeOutput_outside {x : Nat} {s : State} (h : s.phase = .idle ∨ wordTotal s ≤ x) (e : Entry) :
    storeOutput x e s = outWrite s x e := by
  rcases storeOutput_cases x e s with ⟨hp, hx, -⟩ | ⟨-, h⟩
  · rcases h with hi | hle
    · cases hi.symm.trans hp
    · exact absurd hx (Nat.not_lt.2 hle)
  · exact h

/-- Settles O53: the state after the store is `storeInput`, `contest` or `outWrite` of the state that finds the
statement, and what each leaves in the memories is read off its law. -/
theorem hostStoreDuringCommand : Obligations.HostStoreDuringCommand := by
  refine fun s ht => ⟨fun a b hs => ?input, fun x e hs =>
    ⟨_, step_of_stmt ht hs, fun hout => ?outside, fun hp hx => ?inside⟩⟩
  case input =>
    exact ⟨_, step_of_stmt ht hs, rfl, (inByte_storeInput ..).trans (if_pos rfl),
      fun c hc => (inByte_storeInput ..).trans (if_neg hc), inputDirty_storeInput_iff .., streamWord_dirty,
      streamWord_clean⟩
  case outside =>
    rw [storeOutput_outside (s := atStatement s) hout e]
    exact ⟨rfl, (outEntry_outWrite ..).trans (if_pos rfl), fun y hy => (outEntry_outWrite ..).trans (if_neg hy)⟩
  case inside =>
    rw [storeOutput_inside (s := atStatement s) hp hx e]
    exact ⟨rfl, (outEntry_contest ..).trans (if_pos rfl), fun y hy => (outEntry_contest ..).trans (if_neg hy),
      (oldEntry_contest ..).trans (if_pos rfl), fun y hy => (oldEntry_contest ..).trans (if_neg hy),
      mem_contested_contest _ _ _⟩

end Sys2Proof.Machine
end

section
/-! The machine's invariant (10_state.md): it holds at reset, each operation keeps it, and so does every step. -/

namespace Sys2Proof.Machine

/-! ## States that are IDLE -/

theorem canonical_nil {w : Nat} (size : Nat) : Memory.wf ([] : Memory w) ∧ Memory.below ([] : Memory w) size :=
  ⟨List.Pairwise.nil, fun _ h => nomatch h⟩

/-- While IDLE the invariant speaks of the memories and of ERR. -/
theorem inv_of_memory {s : State} (hm : MemoryInv s) (he : s.err = false ↔ s.errCode = 0)
    (hc : s.errCode.toNat ≤ 4) (hp : s.phase = .idle) : Inv s :=
  ⟨hm, ⟨of_idle hp, he, hc⟩, of_idle hp⟩

/-- Settles O57: at reset no memory lists a cell, no command runs and no error stands. -/
theorem invariantHoldsAtReset : Obligations.InvariantHoldsAtReset :=
  inv_of_memory ⟨canonical_nil _, canonical_nil _, canonical_nil _, canonical_nil _⟩ (by decide) (by decide) rfl

/-- R250: an error entered while IDLE has a code, and a code of the table. -/
theorem inv_fail {s u : State} (h : Inv s)
    (hm : u.calTable = s.calTable ∧ u.inBuf = s.inBuf ∧ u.outMem = s.outMem ∧ u.outOld = s.outOld)
    (hp : u.phase = .idle) (e : Error) : Inv (fail e u) := by
  refine h.of_idle hm ?_ ?_ hp
  · cases e <;> simp [Error.code]
  · cases e <;> simp [Error.code]

theorem inv_complete {s : State} (h : Inv s) : Inv (complete s) :=
  inv_of_memory ⟨h.memory.calTable, h.memory.inBuf, h.memory.outMem, canonical_nil _⟩ h.status.err_iff_code
    h.status.code_le rfl

theorem canonical_outAfterReset {s : State} (h : MemoryInv s) :
    (outAfterReset s).wf ∧ (outAfterReset s).below (2 ^ 30) := by
  unfold outAfterReset
  split
  · exact h.outMem
  · exact ⟨wf_replaceBelow h.outMem.1 _ _, below_replaceBelow h.outMem.2 (wordTotal_lt s).le _⟩

theorem inv_resetBlock {s : State} (h : MemoryInv s) : Inv (resetBlock s) :=
  inv_of_memory ⟨h.calTable, h.inBuf, canonical_outAfterReset h, canonical_nil _⟩ (by simp) (by simp) rfl

theorem inv_powerOnBlock {s : State} (h : MemoryInv s) : Inv (powerOnBlock s) :=
  inv_of_memory ⟨canonical_nil _, h.inBuf, canonical_outAfterReset h, canonical_nil _⟩
    (inv_resetBlock h).status.err_iff_code (inv_resetBlock h).status.code_le rfl

/-! ## The start of a command and the registers -/

theorem inv_start {s : State} (h : Inv s) (hp : s.phase = .idle) (m : Mode) : Inv (start m s) := by
  rcases start_cases m s with ⟨e, -, hs⟩ | ⟨he, hs⟩ <;> rw [hs]
  · exact inv_fail h (u := clearProgress (clearCompletion s)) ⟨rfl, rfl, rfl, rfl⟩ hp e
  · exact ⟨⟨h.memory.calTable, h.memory.inBuf, h.memory.outMem, h.memory.outMem⟩,
      ⟨fun _ => ⟨rfl, rfl⟩, by simp, by simp⟩, fun _ => busyInv_beginWords he⟩

theorem inv_acknowledge {s : State} (h : Inv s) (d : Word) : Inv (acknowledge d s) := by
  refine ⟨⟨h.memory.calTable, h.memory.inBuf, h.memory.outMem, h.memory.outOld⟩, ⟨fun hb => ?_, ?_, ?_⟩,
    fun hb => (h.busy hb).other ..⟩
  · obtain ⟨hd, he⟩ := h.status.busy_not_done hb
    simp [hd, he]
  · rw [acknowledge_err, acknowledge_errCode]
    cases d.getLsbD 2
    · simpa using h.status.err_iff_code
    · simp
  · rw [acknowledge_errCode]
    split
    · decide
    · exact h.status.code_le

theorem inv_storeCal {s : State} (h : Inv s) (hp : s.phase = .idle) (hx : s.calIdx.toNat < Config.calEntries)
    (d : Word) : Inv (storeCal d s) :=
  inv_of_memory ⟨⟨wf_set h.memory.calTable.1 _ _, below_set h.memory.calTable.2 hx _⟩, h.memory.inBuf,
    h.memory.outMem, h.memory.outOld⟩ h.status.err_iff_code h.status.code_le hp

/-! ## The progress counts that a read shows -/

theorem shownCount_oneLane {s : State} {exact seen : Word} (h : Config.lanes = 1) :
    shownCount s exact seen = exact := by
  unfold shownCount
  rw [if_pos h]
  cases s.phase <;> rfl

theorem BusyInv.shownWordCnt_bounds {s : State} (h : BusyInv s) (hp : s.phase = .busy) :
    s.seenWord.toNat ≤ (shownWordCnt s).toNat ∧ (shownWordCnt s).toNat ≤ wordTotal s :=
  shownCount_bounds hp h.seen.1 (h.counted ▸ h.index) fun hone => (h.seenExact hone).1

theorem BusyInv.shownValidCnt_bounds {s : State} (h : BusyInv s) (hp : s.phase = .busy) :
    s.seenValid.toNat ≤ (shownValidCnt s).toNat ∧ (shownValidCnt s).toNat ≤ wordTotal s :=
  shownCount_bounds hp h.seen.2 (h.valid.trans h.index) fun hone => (h.seenExact hone).2

/-- The model's note of the counts that the host was shown. -/
theorem BusyInv.withSeen {s : State} (h : BusyInv s) {word valid : Word} (draws : Nat)
    (hb : word.toNat ≤ wordTotal s ∧ valid.toNat ≤ wordTotal s)
    (he : Config.lanes = 1 → word.toNat ≤ s.wordCnt.toNat ∧ valid.toNat ≤ s.validCnt.toNat) :
    BusyInv { s with seenWord := word, seenValid := valid, draws := draws } :=
  ⟨h.length, h.slots, h.whole, h.loaded, h.cycles, h.rowLen, h.index, h.counted, h.valid, h.validExact, hb, he,
    h.unwritten, h.written, h.contested⟩

theorem busyInv_noteWord {s : State} (h : BusyInv s) (hp : s.phase = .busy) : BusyInv (noteWord s) :=
  h.withSeen _ ⟨(h.shownWordCnt_bounds hp).2, h.seen.2⟩ fun hone =>
    ⟨(congrArg BitVec.toNat (shownCount_oneLane hone)).le, (h.seenExact hone).2⟩

theorem busyInv_noteValid {s : State} (h : BusyInv s) (hp : s.phase = .busy) : BusyInv (noteValid s) :=
  h.withSeen _ ⟨h.seen.1, (h.shownValidCnt_bounds hp).2⟩ fun hone =>
    ⟨(h.seenExact hone).1, (congrArg BitVec.toNat (shownCount_oneLane hone)).le⟩

theorem inv_noteRead {s : State} (h : Inv s) (reg : Reg) : Inv (noteRead s reg) := by
  have hm := h.memory
  have hs := h.status
  rcases noteRead_cases s reg with he | ⟨hp, -, he⟩ | ⟨hp, -, he⟩ <;> rw [he]
  · exact h
  · exact ⟨⟨hm.calTable, hm.inBuf, hm.outMem, hm.outOld⟩, ⟨hs.busy_not_done, hs.err_iff_code, hs.code_le⟩,
      fun _ => busyInv_noteWord (h.busy hp) hp⟩
  · exact ⟨⟨hm.calTable, hm.inBuf, hm.outMem, hm.outOld⟩, ⟨hs.busy_not_done, hs.err_iff_code, hs.code_le⟩,
      fun _ => busyInv_noteValid (h.busy hp) hp⟩

/-! ## The host's stores -/

/-- R65: after a store that does not mark the input buffer as changed, a word of the command reads as before. -/
theorem inRead_storeInput_clean {s : State} {a : Nat} {b : Byte} (hp : s.phase = .busy)
    (hd : (storeInput a b s).inputDirty = false) {k : Nat} (hk : k < wordTotal s) :
    inRead (storeInput a b s) (4 * k) = inRead s (4 * k) := by
  have ha : s.byteLen.toNat ≤ a := by
    simp only [storeInput_inputDirty, hp] at hd
    simpa using (Bool.or_eq_false_iff.1 hd).2
  unfold wordTotal at hk
  unfold inRead
  simp only [inByte_storeInput]
  rw [if_neg (by omega), if_neg (by omega), if_neg (by omega), if_neg (by omega)]

theorem validBelow_congr {s t : State} {k : Nat} (h : ∀ j, j < k → inRead t (4 * j) = inRead s (4 * j)) :
    validBelow t k = validBelow s k :=
  congrArg List.length (List.filter_congr fun j hj => by rw [h j (List.mem_range.1 hj)])

theorem busyInv_storeInput {s : State} (h : BusyInv s) (hp : s.phase = .busy) (a : Nat) (b : Byte) :
    BusyInv (storeInput a b s) := by
  have clean : (storeInput a b s).inputDirty = false → s.inputDirty = false := by
    intro hd
    rw [storeInput_inputDirty] at hd
    exact (Bool.or_eq_false_iff.1 hd).1
  have kept : (storeInput a b s).inputDirty = false → ∀ k, k < s.n.toNat →
      inRead (storeInput a b s) (4 * k) = inRead s (4 * k) :=
    fun hd k hk => inRead_storeInput_clean hp hd (hk.trans_le h.index)
  refine ⟨h.length, h.slots, h.whole, h.loaded, h.cycles, h.rowLen, h.index, h.counted, h.valid, fun hd => ?_, h.seen,
    h.seenExact, h.unwritten, fun hd k hk hc => ?_, h.contested⟩
  · exact (h.validExact (clean hd)).trans (validBelow_congr (kept hd)).symm
  · rw [kept hd k hk]
    exact h.written (clean hd) k hk hc

theorem inv_storeInput {s : State} (h : Inv s) (a : BitVec 32) (b : Byte) : Inv (storeInput a.toNat b s) :=
  ⟨⟨h.memory.calTable, ⟨wf_set h.memory.inBuf.1 _ _, below_set h.memory.inBuf.2 a.isLt _⟩, h.memory.outMem,
      h.memory.outOld⟩,
    ⟨h.status.busy_not_done, h.status.err_iff_code, h.status.code_le⟩,
    fun hb => busyInv_storeInput (h.busy hb) hb _ _⟩

/-- A store beyond the entries of the command in progress. -/
theorem busyInv_outWrite {s : State} (h : BusyInv s) {x : Nat} (hx : wordTotal s ≤ x) (e : Entry) :
    BusyInv (outWrite s x e) := by
  have hne : ∀ k, k < wordTotal s → wordIndex s k ≠ x := fun k hk =>
    ((h.source_index hk).2.2.trans_le hx).ne
  refine ⟨h.length, h.slots, h.whole, h.loaded, h.cycles, h.rowLen, h.index, h.counted, h.valid, h.validExact, h.seen,
    h.seenExact, fun k h1 h2 => ?_, fun hd k hk hc => ?_, h.contested.1, fun y hy => ?_⟩
  · exact (get_set_ne _ _ (hne k h2)).trans (h.unwritten k h1 h2)
  · exact ((outEntry_outWrite ..).trans (if_neg (hne k (Nat.lt_of_lt_of_le hk h.index)))).trans (h.written hd k hk hc)
  · obtain ⟨h1, h2, h3⟩ := h.contested.2 y hy
    exact ⟨h1, h2, (get_set_ne _ _ (h1.trans_le hx).ne).trans h3⟩

theorem inv_outWrite {s : State} (h : Inv s) (x : BitVec 30) (hx : ¬(s.phase = .busy ∧ x.toNat < wordTotal s))
    (e : Entry) : Inv (outWrite s x.toNat e) :=
  ⟨⟨h.memory.calTable, h.memory.inBuf, ⟨wf_set h.memory.outMem.1 _ _, below_set h.memory.outMem.2 x.isLt _⟩,
      h.memory.outOld⟩,
    ⟨h.status.busy_not_done, h.status.err_iff_code, h.status.code_le⟩,
    fun hb => busyInv_outWrite (h.busy hb) (Nat.not_lt.1 fun hlt => hx ⟨hb, hlt⟩) e⟩

/-! ## The steps of the two agents -/

/-- The processing of a word (R160). -/
theorem inv_retire {s : State} (h : Inv s) (hp : s.phase = .busy) (hn : s.n.toNat < wordTotal s) (v : Bool)
    (a : BitVec 2) (e : Entry)
    (hve : s.inputDirty = false → v = packetValid (inRead s (4 * s.n.toNat)) ∧
      e = entryOf s (wordPixel s s.n.toNat) (inRead s (4 * s.n.toNat))) :
    Inv (retire v a e s) := by
  have hb := h.busy hp
  have hx : wordIndex s s.n.toNat < 2 ^ 30 := (hb.source_index hn).2.2.trans (wordTotal_lt s)
  exact ⟨⟨h.memory.calTable, h.memory.inBuf, ⟨wf_set h.memory.outMem.1 _ _, below_set h.memory.outMem.2 hx _⟩,
      h.memory.outOld⟩,
    ⟨h.status.busy_not_done, h.status.err_iff_code, h.status.code_le⟩, fun _ => busyInv_retire hb hn v a e hve⟩

theorem noteStream_eq (s : State) : noteStream s = { s with draws := (noteStream s).draws } := by
  unfold noteStream
  split <;> rfl

/-- The state that the sequencer's step leaves: as it was, a word processed, or the command complete. -/
theorem sequencerStep_effect {s t : State} (h : sequencerStep s = .next t) :
    t = s ∨
    (s.phase = .busy ∧ s.n.toNat < wordTotal s ∧
      t = retire (packetValid (streamWord s s.n.toNat)) (packetAddr (streamWord s s.n.toNat))
        (entryOf s (wordPixel s s.n.toNat) (streamWord s s.n.toNat)) (noteStream s)) ∨
    (s.phase = .busy ∧ s.n.toNat = wordTotal s ∧ t = complete s) := by
  rcases sequencerStep_cases s with ⟨-, he⟩ | ⟨hp, hn, he⟩ | ⟨hp, hn, he⟩ | ⟨-, -, he⟩ <;>
    cases he.symm.trans h
  · exact .inl rfl
  · exact .inr (.inl ⟨hp, hn, rfl⟩)
  · exact .inr (.inr ⟨hp, hn, rfl⟩)
  · exact .inl rfl

theorem inv_sequencerStep {s t : State} (h : Inv s) (ht : sequencerStep s = .next t) : Inv t := by
  rcases sequencerStep_effect ht with rfl | ⟨hp, hn, rfl⟩ | ⟨-, -, rfl⟩
  · exact h
  · rw [noteStream_eq]
    refine inv_retire (s := { s with draws := (noteStream s).draws }) (h.other ..) hp hn _ _ _ fun hd => ?_
    rw [streamWord_clean (s := s) hd]
    exact ⟨rfl, rfl⟩
  · exact inv_complete h

/-- An instruction other than a packet keeps the invariant in every state. -/
theorem inv_instrEffect {i : Instr} {s t : State} (h : Inv s) (hi : isPacket i = false) (ht : InstrEffect i s t) :
    Inv t := by
  have herr := h.status.err_iff_code
  have hcode := h.status.code_le
  cases ht with
  | word v a e hk => cases hi.symm.trans hk
  | locked hp => exact h.other ..
  | nothing => exact h
  | start m hc hp => exact inv_start h hp m
  | illegal hc hp => exact inv_fail h (u := clearCompletion s) ⟨rfl, rfl, rfl, rfl⟩ hp _
  | acknowledge d => exact inv_acknowledge h d
  | setIe b => exact h.other ..
  | setT d hp => exact h.of_idle ⟨rfl, rfl, rfl, rfl⟩ herr hcode hp
  | setByteLen d hp => exact h.of_idle ⟨rfl, rfl, rfl, rfl⟩ herr hcode hp
  | setLoaded b hp => exact h.of_idle ⟨rfl, rfl, rfl, rfl⟩ herr hcode hp
  | setCalIdx x hp => exact h.other ..
  | storeCal offset d hc hr hp hx => exact inv_storeCal h hp hx d
  | read offset d v hc => exact (inv_noteRead h _).other ..

theorem inv_hostEffect {stmt : HostStmt} {s t : State} (h : Inv s) (ht : HostEffect stmt s t) : Inv t := by
  cases ht with
  | instr x t hi he => exact inv_instrEffect h (isPacket_decodeTransaction x) he
  | nothing => exact h
  | jump k => exact h.other ..
  | storeInput a b hi => exact inv_storeInput h a b
  | storeOutput x e hi hx => exact inv_outWrite h x hx e
  | contest x e hi hp hx => exact inv_contest h hp hx e
  | loadOutput x hi => exact h.other ..
  | reset hi => exact inv_resetBlock h.memory
  | powerCycle hi => exact inv_powerOnBlock h.memory

/-- Settles O56: the turn and the host's place are no part of the invariant, and each agent's step keeps it. -/
theorem invariantKeptByEveryStep : Obligations.InvariantKeptByEveryStep := by
  intro s t h hs
  rcases step_cases hs with ⟨-, ht⟩ | ⟨-, -, rfl⟩ | ⟨-, stmt, -, -, he⟩
  · exact inv_sequencerStep (h.other ..) ht
  · exact h.other ..
  · exact inv_hostEffect (h.other ..) he

end Sys2Proof.Machine
end

section
/-! What the host reads and writes of the block's state (10_state.md): STATUS, the progress counters, CAL_DATA, the
output memory, and which bits of an offset count. -/

namespace Sys2Proof.Machine

/-! ## Offsets -/

/-- Settles O39: a transaction reaches the register by the offset's upper six bits. -/
theorem offsetLowBitsIgnored : Obligations.OffsetLowBitsIgnored := by
  intro offset offset' d s h
  have hr : regAt offset = regAt offset' := by rw [regAt_eq, regAt_eq, h]
  simp only [exec, execHostRd, execHostWr, hr, and_self]

theorem exec_hostRd_wordCnt {offset : BitVec 8} (h : offset.toNat / 4 = 9) (d : Word) {s : State}
    (hp : s.phase = .busy) : exec (.hostRd offset d) s = .next (setHostR (shownWordCnt s) (noteWord s)) := by
  have hr : regAt offset = .wordCnt := regAt_of_number h
  simp only [exec, execHostRd, hr, regValue, noteRead, hp]

theorem exec_hostRd_validCnt {offset : BitVec 8} (h : offset.toNat / 4 = 10) (d : Word) {s : State}
    (hp : s.phase = .busy) : exec (.hostRd offset d) s = .next (setHostR (shownValidCnt s) (noteValid s)) := by
  have hr : regAt offset = .validCnt := regAt_of_number h
  simp only [exec, execHostRd, hr, regValue, noteRead, hp]

theorem exec_hostWr_status {offset : BitVec 8} (h : offset.toNat / 4 = 2) (d : Word) (s : State) :
    exec (.hostWr offset d) s = .next (acknowledge d s) := by
  have hr : regAt offset = .status := regAt_of_number h
  simp only [exec, execHostWr, hr]

theorem exec_hostWr_calData {offset : BitVec 8} (h : offset.toNat / 4 = 8) (d : Word) (s : State) :
    exec (.hostWr offset d) s = .next (whileIdle s (writeCalData d s)) := by
  have hr : regAt offset = .calData := regAt_of_number h
  simp only [exec, execHostWr, hr]

/-! ## STATUS -/

theorem getLsbD_eq_decide {w : Nat} (d : BitVec w) (k : Nat) : d.getLsbD k = decide (d.toNat / 2 ^ k % 2 = 1) := by
  rw [← BitVec.testBit_toNat, Nat.testBit_eq_decide_div_mod_eq]

/-- STATUS by its fields (R26). -/
theorem statusWord_toNat (s : State) :
    (statusWord s).toNat = (s.phase == .busy).toNat + 2 * s.done.toNat + 4 * s.err.toNat + 16 * s.errCode.toNat +
      256 * s.addrNz.toNat + 512 * s.wwb.toNat := by
  show BitVec.toNat (0#22 ++ BitVec.ofBool s.wwb ++ BitVec.ofBool s.addrNz ++ s.errCode ++ 0#1 ++
    BitVec.ofBool s.err ++ BitVec.ofBool s.done ++ BitVec.ofBool (s.phase == .busy)) = _
  simp only [toNat_append_eq, BitVec.toNat_ofBool, BitVec.toNat_ofNat]
  omega

/-- Settles O58: STATUS is the sum of its fields, which the laws of the invariant bound. -/
theorem statusReadsConsistent : Obligations.StatusReadsConsistent := by
  intro s h
  have hw := statusWord_toNat s
  have hcode := h.status.code_le
  have hiff : s.err = false ↔ s.errCode.toNat = 0 := by
    rw [h.status.err_iff_code, ← BitVec.toNat_inj]
    rfl
  have hbusy : (s.phase == .busy) = true → s.done = false ∧ s.err = false :=
    fun hb => h.status.busy_not_done (beq_iff_eq.1 hb)
  have hb := Bool.toNat_lt (s.phase == .busy)
  have hd := Bool.toNat_lt s.done
  have he := Bool.toNat_lt s.err
  have ha := Bool.toNat_lt s.addrNz
  have hwwb := Bool.toNat_lt s.wwb
  simp only [getLsbD_eq_decide, decide_eq_true_eq, decide_eq_false_iff_not]
  refine ⟨fun hb1 => ?_, ?_, ?_, ?_, ?_⟩
  · obtain ⟨h1, h2⟩ := hbusy (Bool.toNat_eq_one.1 (by omega))
    simp only [h1, h2, Bool.toNat_false] at hw
    omega
  · rw [← Bool.toNat_eq_zero] at hiff
    omega
  · omega
  · omega
  · omega

/-- Settles O40: the write is `acknowledge`, field by field. -/
theorem statusWriteClearsByOnes : Obligations.StatusWriteClearsByOnes := by
  intro offset d s h
  have keeps : ∀ (b : Bool) (k : Nat), (b && !d.getLsbD k) = true ↔ b = true ∧ d.toNat / 2 ^ k % 2 = 0 := by
    intro b k
    rw [getLsbD_eq_decide, Bool.and_eq_true, Bool.not_eq_true', decide_eq_false_iff_not, Nat.mod_two_not_eq_one]
  refine ⟨_, exec_hostWr_status h d s, rfl, keeps s.done 1, ?_, keeps s.err 2, fun h1 => ?_, fun h0 => ?_,
    keeps s.addrNz 8, keeps s.wwb 9⟩
  · rw [irq, Bool.and_eq_true]
    exact and_congr_right fun _ => keeps s.done 1
  · exact if_pos ((getLsbD_eq_decide d 2).trans (decide_eq_true h1))
  · exact if_neg (by rw [getLsbD_eq_decide, decide_eq_true_eq]; omega)

/-! ## The progress counters -/

/-- Settles O38: the value shown is within `shownCount_bounds`, and the model's note is of that value. -/
theorem busyProgressReadIsBounded : Obligations.BusyProgressReadIsBounded := by
  intro offset d s h hp
  have hb := h.busy hp
  obtain ⟨hw1, hw2⟩ := hb.shownWordCnt_bounds hp
  obtain ⟨hv1, hv2⟩ := hb.shownValidCnt_bounds hp
  exact ⟨fun ho => ⟨_, exec_hostRd_wordCnt ho d hp, hw1, hw2, rfl, shownCount_oneLane, rfl⟩,
    fun ho => ⟨_, exec_hostRd_validCnt ho d hp, hv1, hv2, rfl, shownCount_oneLane, rfl⟩⟩

/-! ## The calibration table -/

theorem calEntry_storeCal (d : Word) (s : State) (x : Nat) :
    calEntry (storeCal d s) x = if x = s.calIdx.toNat then d else calEntry s x := by
  unfold calEntry
  rw [storeCal_calTable, get_set]
  split <;> rfl

/-- Settles O42: the write is `storeCal` below the table's end, and nothing from there on. -/
theorem calDataWriteStoresAndAdvances : Obligations.CalDataWriteStoresAndAdvances := by
  intro offset d s ho hp
  have hw : exec (.hostWr offset d) s = .next (writeCalData d s) := by
    rw [exec_hostWr_calData ho, whileIdle_idle _ hp]
  rw [hw]
  refine ⟨fun hx => ?_, fun hx => ?_⟩
  · have hs : writeCalData d s = storeCal d s := if_pos (Nat.lt_succ_of_le hx)
    rw [hs]
    refine ⟨_, rfl, (calEntry_storeCal ..).trans (if_pos rfl), ?_,
      fun x hne => (calEntry_storeCal ..).trans (if_neg hne), rfl⟩
    rw [storeCal_calIdx, BitVec.toNat_add_of_lt]
    · rfl
    · simp
      omega
  · rw [writeCalData, if_neg (Nat.not_lt.2 hx)]

/-! ## The output memory -/

/-- What the host sees of an entry that no command in progress owns. -/
theorem shownEntry_outside {s : State} {x : Nat} (h : s.phase = .idle ∨ wordTotal s ≤ x) :
    shownEntry s x = outEntry s x := by
  refine if_neg fun ⟨hp, hx⟩ => ?_
  rcases h with h | h
  · cases h.symm.trans hp
  · omega

/-- What a command in progress computes for a word's entry. -/
theorem BusyInv.computedEntry_eq {s : State} (h : BusyInv s) {k : Nat} (hk : k < wordTotal s) :
    computedEntry s (wordIndex s k) =
      if k < s.n.toNat then outEntry s (wordIndex s k) else entryOf s (wordPixel s k) (streamWord s k) := by
  obtain ⟨hs, hr, -⟩ := h.source_index hk
  rw [computedEntry, hs, hr]

/-- R46, U2: what the host sees of a word's entry while the command runs. -/
theorem BusyInv.shownEntry_cases {s : State} (h : BusyInv s) (hp : s.phase = .busy) {k : Nat} (hk : k < wordTotal s) :
    shownEntry s (wordIndex s k) = oldEntry s (wordIndex s k) ∨
    shownEntry s (wordIndex s k) =
      if k < s.n.toNat then outEntry s (wordIndex s k) else entryOf s (wordPixel s k) (streamWord s k) := by
  rw [shownEntry, if_pos ⟨hp, (h.source_index hk).2.2⟩, h.computedEntry_eq hk]
  split
  · exact .inl rfl
  · exact .inr rfl

/-- Settles O52: the host's variable takes `shownEntry`, which the turn and the host's place do not touch. -/
theorem outputReadIsExactOnceIdle : Obligations.OutputReadIsExactOnceIdle := by
  intro s x ht hs
  have hshown : shownEntry (atStatement s) x.toNat = shownEntry s x.toNat := rfl
  refine ⟨_, step_of_stmt ht hs, rfl, fun hout => ?_, fun hi hp k hk hx => ?_⟩
  · exact hshown.trans (shownEntry_outside hout)
  · rw [hx] at hshown ⊢
    exact ((hi.busy hp).shownEntry_cases hp hk).imp hshown.trans hshown.trans

end Sys2Proof.Machine
end

section
/-! A command in progress from one step to the next (10_state.md R41, 43_operations.md R217), and what a reset and a
power cycle leave (10_state.md R43, R47). -/

namespace Sys2Proof.Machine

/-! ## A command in progress -/

/-- What the lock of R41 and the command's start keep fixed: the configuration registers, the calibration table with its
power-on, the mode and the geometry. -/
def configuration (s : State) : Word × Word × Bool × BitVec 16 × Memory 32 × Nat × Mode × Word × Word :=
  (s.tReg, s.byteLen, s.loaded, s.calIdx, s.calTable, s.powerOns, s.mode, s.cycles, s.rowLen)

/-- The command in progress in `s` goes on in `t`. -/
structure Continues (s t : State) : Prop where
  busy : t.phase = .busy
  configuration : configuration t = configuration s
  index : t.n = s.n ∨ t.n = s.n + 1

theorem continues_of_instrEffect {i : Instr} {s t : State} (hp : s.phase = .busy) (hi : isPacket i = false)
    (ht : InstrEffect i s t) : Continues s t := by
  cases ht with
  | word v a e hk => cases hi.symm.trans hk
  | locked _ => exact ⟨hp, rfl, .inl rfl⟩
  | nothing => exact ⟨hp, rfl, .inl rfl⟩
  | acknowledge d => exact ⟨hp, rfl, .inl rfl⟩
  | setIe b => exact ⟨hp, rfl, .inl rfl⟩
  | read offset d v hc =>
    rcases noteRead_cases s (regAt offset) with he | ⟨-, -, he⟩ | ⟨-, -, he⟩ <;> rw [he] <;>
      exact ⟨hp, rfl, .inl rfl⟩
  | start m hc hq => exact of_idle hq hp
  | illegal hc hq => exact of_idle hq hp
  | setT d hq => exact of_idle hq hp
  | setByteLen d hq => exact of_idle hq hp
  | setLoaded b hq => exact of_idle hq hp
  | setCalIdx x hq => exact of_idle hq hp
  | storeCal offset d hc hr hq hx => exact of_idle hq hp

/-- R16, R217: the host ends a command by a reset or a power cycle only. -/
theorem hostEffect_busy_cases {stmt : HostStmt} {s t : State} (hp : s.phase = .busy) (ht : HostEffect stmt s t) :
    Continues s t ∨ (t.phase = .idle ∧ (stmt = .reset ∨ stmt = .powerCycle)) := by
  cases ht with
  | instr x t hi he => exact .inl (continues_of_instrEffect hp (isPacket_decodeTransaction x) he)
  | nothing => exact .inl ⟨hp, rfl, .inl rfl⟩
  | jump k => exact .inl ⟨hp, rfl, .inl rfl⟩
  | storeInput a b hi => exact .inl ⟨hp, rfl, .inl rfl⟩
  | storeOutput x e hi hx => exact .inl ⟨hp, rfl, .inl rfl⟩
  | contest x e hi hq hx => exact .inl ⟨hp, rfl, .inl rfl⟩
  | loadOutput x hi => exact .inl ⟨hp, rfl, .inl rfl⟩
  | reset hi => exact .inr ⟨rfl, .inl hi⟩
  | powerCycle hi => exact .inr ⟨rfl, .inr hi⟩

/-- R160, R216: the sequencer ends a command once its words are processed. -/
theorem sequencerStep_busy_cases {s t : State} (hp : s.phase = .busy) (ht : sequencerStep s = .next t) :
    Continues s t ∨ (t.phase = .idle ∧ s.n.toNat = wordTotal s) := by
  rcases sequencerStep_effect ht with rfl | ⟨-, -, rfl⟩ | ⟨-, hn, rfl⟩
  · exact .inl ⟨hp, rfl, .inl rfl⟩
  · rw [noteStream_eq]
    exact .inl ⟨hp, rfl, .inr rfl⟩
  · exact .inr ⟨rfl, hn⟩

/-- All that a step can do to a command in progress. -/
theorem step_busy_cases {s t : State} (hs : step s = .next t) (hp : s.phase = .busy) :
    Continues s t ∨
    (t.phase = .idle ∧
      ((SequencerTurn s ∧ s.n.toNat = wordTotal s) ∨
        (HostTurn s ∧ (s.hostProg[s.hostPc]? = some .reset ∨ s.hostProg[s.hostPc]? = some .powerCycle)))) := by
  rcases step_cases hs with ⟨hturn, ht⟩ | ⟨-, -, rfl⟩ | ⟨hturn, stmt, hstmt, -, he⟩
  · rcases sequencerStep_busy_cases (s := afterTurn s) hp ht with hc | ⟨hi, hn⟩
    · exact .inl ⟨hc.busy, hc.configuration, hc.index⟩
    · exact .inr ⟨hi, .inl ⟨hturn, hn⟩⟩
  · exact .inl ⟨hp, rfl, .inl rfl⟩
  · rcases hostEffect_busy_cases (s := atStatement s) hp he with hc | ⟨hi, hc⟩
    · exact .inl ⟨hc.busy, hc.configuration, hc.index⟩
    · exact .inr ⟨hi, .inr ⟨hturn, hc.imp (hstmt.trans <| congrArg some ·) (hstmt.trans <| congrArg some ·)⟩⟩

/-- Settles O48: a step from BUSY continues the command, or ends it in one of the two ways. -/
theorem configurationFrozenWhileBusy : Obligations.ConfigurationFrozenWhileBusy := by
  intro s t hs hp
  rcases step_busy_cases hs hp with hc | ⟨hi, hend⟩
  · have hconf := hc.configuration
    simp only [configuration, Prod.mk.injEq] at hconf
    obtain ⟨h1, h2, h3, h4, h5, h6, h7, h8, h9⟩ := hconf
    exact ⟨fun _ => ⟨h1, h2, h3, h4, h5, h6, h7, h8, h9, hc.index⟩, fun hi => of_idle hi hc.busy⟩
  · exact ⟨of_idle hi, fun _ => hend⟩

/-! ## Reset and power cycle -/

theorem calEntry_unwritten {s : State} (h : s.calTable = []) (x : Nat) :
    calEntry s x = Config.calPowerOn s.powerOns x := by
  rw [calEntry, h]
  rfl

/-- Settles O49: each field is R47's by definition, and the table of a first power-on has no entry written. -/
theorem resetStateValues : Obligations.ResetStateValues := by
  refine ⟨rfl, rfl, rfl, rfl, rfl, rfl, rfl, rfl, rfl, rfl, rfl, rfl, ?status, rfl, rfl, rfl, ?param0, rfl, rfl,
    calEntry_unwritten rfl⟩
  case status => decide
  case param0 => decide

/-- Settles O54: a power cycle lists no entry of the table, so each is the free value of the new power-on. -/
theorem powerCycleForgetsTable : Obligations.PowerCycleForgetsTable := by
  intro s ht hs
  exact ⟨_, step_of_stmt ht hs, rfl, rfl, rfl, calEntry_unwritten (s := powerOnBlock (atStatement s)) rfl⟩

end Sys2Proof.Machine
end

section
/-! Code words (30_encoding.md): the decoder reads back what the encoder has put together, from a word and from its
bytes. -/

namespace Sys2Proof

/-! ## Decoding what the encoder has put together -/

/-- The row of a valid packet (R93). -/
def validPacket : Mode → BitVec 1 → BitVec 2 → BitVec 28 → Instr
  | .scaled => .pktValidScaled
  | .cal => .pktValidCal

theorem decodePacket_encoded (m : Mode) (v r : BitVec 1) (a : BitVec 2) (count : BitVec 28) :
    decodePacket m (v ++ r ++ a ++ count) = if v = 1 then validPacket m r a count else .pktInvalid r a count := by
  obtain ⟨hv, hr, ha, hc⟩ := packet_fields v r a count
  cases m <;> simp only [decodePacket, validPacket, hv, hr, ha, hc, decide_eq_true_eq]

/-- R100 on a word whose OPC is `c` and whose ignored bits are `g`. -/
theorem decodeCommand_of_toNat {d : Word} {g : BitVec 28} {c : Nat} (hc : c < 16) (h : d.toNat = g.toNat * 16 + c) :
    decodeCommand d =
      if c = 0 then .nop g
      else if c = 1 then .unpack g
      else if c = 2 then .unpackCal g
      else if c = 3 then .reservedCmd3 g
      else if c < 8 then .reservedCmd47 (BitVec.ofNat 2 c) g
      else .reservedCmd8F (BitVec.ofNat 3 c) g := by
  have hopc : d.toNat % 16 = c := by omega
  have hignored : commandIgnored d = g := commandIgnored_of_toNat (by omega)
  have hlow2 : d.extractLsb' 0 2 = BitVec.ofNat 2 c :=
    BitVec.eq_of_toNat_eq (by rw [extract_low_toNat, BitVec.toNat_ofNat]; omega)
  have hlow3 : d.extractLsb' 0 3 = BitVec.ofNat 3 c :=
    BitVec.eq_of_toNat_eq (by rw [extract_low_toNat, BitVec.toNat_ofNat]; omega)
  rw [decodeCommand, commandCases_eq, hopc, hignored, hlow2, hlow3]

theorem decodeCommand_encoded47 (low : BitVec 2) (g : BitVec 28) :
    decodeCommand (g ++ 1#2 ++ low) = .reservedCmd47 low g := by
  have hd : BitVec.toNat (w := 32) (g ++ 1#2 ++ low) = g.toNat * 16 + (4 + low.toNat) := by
    rw [command47_toNat, BitVec.toNat_ofNat]
    omega
  have hlow : BitVec.ofNat 2 (4 + low.toNat) = low := BitVec.eq_of_toNat_eq (by rw [BitVec.toNat_ofNat]; omega)
  rw [decodeCommand_of_toNat (by omega) hd, hlow, if_neg (by omega), if_neg (by omega), if_neg (by omega),
    if_neg (by omega), if_pos (by omega)]

theorem decodeCommand_encoded8F (low : BitVec 3) (g : BitVec 28) :
    decodeCommand (g ++ 1#1 ++ low) = .reservedCmd8F low g := by
  have hd : BitVec.toNat (w := 32) (g ++ 1#1 ++ low) = g.toNat * 16 + (8 + low.toNat) := by
    rw [command8F_toNat, BitVec.toNat_ofNat]
    omega
  have hlow : BitVec.ofNat 3 (8 + low.toNat) = low := BitVec.eq_of_toNat_eq (by rw [BitVec.toNat_ofNat]; omega)
  rw [decodeCommand_of_toNat (by omega) hd, hlow, if_neg (by omega), if_neg (by omega), if_neg (by omega),
    if_neg (by omega), if_neg (by omega)]

theorem decodeTransaction_encoded (v : BitVec 1) (offset : BitVec 8) (data : BitVec 32) :
    decodeTransaction (v ++ offset ++ data) = if v = 1#1 then .hostWr offset data else .hostRd offset data := by
  have hx := transaction_toNat v offset data
  have hwrite : (v ++ offset ++ data : BitVec 41).getLsbD 40 = decide (v = 1#1) := by
    rw [transactionWrite_eq, hx, decide_eq_decide, ← BitVec.toNat_inj, BitVec.toNat_ofNat]
    omega
  have hoffset : (v ++ offset ++ data : BitVec 41).extractLsb' 32 8 = offset :=
    BitVec.eq_of_toNat_eq (by rw [transactionOffset_toNat, hx]; omega)
  have hdata : (v ++ offset ++ data : BitVec 41).extractLsb' 0 32 = data :=
    BitVec.eq_of_toNat_eq (by rw [transactionData_toNat, hx]; omega)
  rw [decodeTransaction, hwrite, hoffset, hdata]
  simp only [decide_eq_true_eq]

/-- The encoder keeps every operand of an instruction that the mode can read; a read keeps its DATA too. -/
theorem decode_encode {m : Mode} {i : Instr} (h : i.readIn m = true) : decode m (encode i) = i := by
  cases i with
  | pktInvalid r a count => exact decodePacket_encoded m 0 r a count
  | pktValidScaled r a count => exact beq_iff_eq.1 h ▸ decodePacket_encoded .scaled 1 r a count
  | pktValidCal r a count => exact beq_iff_eq.1 h ▸ decodePacket_encoded .cal 1 r a count
  | nop g => exact decodeCommand_of_toNat (by decide) (command_toNat g 0)
  | unpack g => exact decodeCommand_of_toNat (by decide) (command_toNat g 1)
  | unpackCal g => exact decodeCommand_of_toNat (by decide) (command_toNat g 2)
  | reservedCmd3 g => exact decodeCommand_of_toNat (by decide) (command_toNat g 3)
  | reservedCmd47 low g => exact decodeCommand_encoded47 low g
  | reservedCmd8F low g => exact decodeCommand_encoded8F low g
  | hostRd offset data => exact decodeTransaction_encoded 0 offset data
  | hostWr offset data => exact decodeTransaction_encoded 1 offset data

/-! ## Bytes -/

/-- A word is its four bytes put together (R61). -/
theorem wordOfBytes_digits (w : Word) :
    wordOfBytes (BitVec.ofNat 8 w.toNat) (BitVec.ofNat 8 (w.toNat / 256)) (BitVec.ofNat 8 (w.toNat / 256 / 256))
      (BitVec.ofNat 8 (w.toNat / 256 / 256 / 256)) = w := by
  rw [wordOfBytes_ofNat, BitVec.ofNat_toNat, BitVec.setWidth_eq]

/-- A transaction is its six bytes put together (assumption 21). -/
theorem transactionOfBytes_digits (x : Transaction) :
    ((BitVec.ofNat 8 (x.toNat / 256 / 256 / 256 / 256 / 256)).extractLsb' 0 1 ++
      BitVec.ofNat 8 (x.toNat / 256 / 256 / 256 / 256) ++
      wordOfBytes (BitVec.ofNat 8 x.toNat) (BitVec.ofNat 8 (x.toNat / 256)) (BitVec.ofNat 8 (x.toNat / 256 / 256))
        (BitVec.ofNat 8 (x.toNat / 256 / 256 / 256)) : BitVec 41) = x := by
  apply BitVec.eq_of_toNat_eq
  rw [wordOfBytes_ofNat, transaction_toNat, BitVec.extractLsb'_toNat, Nat.shiftRight_zero]
  simp only [BitVec.toNat_ofNat]
  omega

/-- The bytes of a code word decode to what the word decodes to, and the bytes after it are left. -/
theorem decodeBytes_bytes (m : Mode) (u : CodeWord) (rest : List Byte) :
    decodeBytes m u.space (u.bytes ++ rest) = .ok (decode m u, rest) := by
  cases u with
  | packet w => exact congrArg (fun w => Except.ok (decodePacket m w, rest)) (wordOfBytes_digits w)
  | command d => exact congrArg (fun d => Except.ok (decodeCommand d, rest)) (wordOfBytes_digits d)
  | host x =>
    have htop : (BitVec.ofNat 8 (x.toNat / 256 / 256 / 256 / 256 / 256)).toNat < 2 := by
      rw [BitVec.toNat_ofNat]
      omega
    exact (if_pos htop).trans (congrArg (fun x => Except.ok (decodeTransaction x, rest)) (transactionOfBytes_digits x))

/-- Settles O8: a code word's bytes decode as the word does, and `decode_encode` reads the instruction back. -/
theorem bytesDecodeOrAreRejected : Obligations.BytesDecodeOrAreRejected := by
  refine ⟨fun m i rest _ hr => ?_, fun m bs hlt => ?_, fun m bs hlt => ?_, fun m b0 b1 b2 b3 b4 b5 rest h => ?_⟩
  · rw [decodeBytes_bytes, decode_encode hr]
  · match bs, hlt with
    | [], _ => exact ⟨rfl, rfl⟩
    | [_], _ => exact ⟨rfl, rfl⟩
    | [_, _], _ => exact ⟨rfl, rfl⟩
    | [_, _, _], _ => exact ⟨rfl, rfl⟩
  · match bs, hlt with
    | [], _ => rfl
    | [_], _ => rfl
    | [_, _], _ => rfl
    | [_, _, _], _ => rfl
    | [_, _, _, _], _ => rfl
    | [_, _, _, _, _], _ => rfl
  · exact if_neg (Nat.not_lt.2 h)

end Sys2Proof
end

section
/-! The memories (20_memory.md): the bytes of an input word and of an output entry, the order of two words' output writes,
and which instruction changes which memory; and the host's register transactions. -/

namespace Sys2Proof.Machine

/-! ## The input buffer -/

/-- Settles O7, by the concatenation that `wordOfBytes` is. -/
theorem inputWordIsLittleEndian : Obligations.InputWordIsLittleEndian := fun _ _ => wordOfBytes_toNat ..

/-! ## The output memory -/

/-- R69: under the recorded geometry two words have two output indices. -/
theorem wordIndex_ne_of_geometry {s : State} (ht : 1 ≤ s.tReg.toNat) (hr : s.rowLen.toNat = wordTotal s / 256)
    (hw : wordTotal s % (s.tReg.toNat * 256) = 0) {j k : Nat} (hj : j < wordTotal s) (hk : k < wordTotal s)
    (hne : j ≠ k) : wordIndex s j ≠ wordIndex s k := by
  obtain ⟨hn, hrow⟩ := whole_parts hw
  rw [hn] at hj hk
  obtain ⟨hpj, hcj⟩ := outIndexOf_parts ht hj
  obtain ⟨hpk, hck⟩ := outIndexOf_parts ht hk
  intro he
  rw [wordIndex, wordIndex, hr, hrow] at he
  apply hne
  rw [← flatten_parts ht j, ← flatten_parts ht k, ← hpj, ← hcj, he, hpk, hck]

theorem outWrite_comm {s : State} (h : s.outMem.wf) {x y : Nat} (hne : x ≠ y) (e f : Entry) :
    outWrite (outWrite s x e) y f = outWrite (outWrite s y f) x e :=
  congrArg (fun m => { s with outMem := m }) (set_comm h hne e f)

/-- Settles O26: two words have two output indices, and writes to two indices commute. -/
theorem wordOrderDoesNotMatter : Obligations.WordOrderDoesNotMatter := by
  intro s j k e f hwf ht hr hw hj hk hne
  exact outWrite_comm hwf (wordIndex_ne_of_geometry ht hr hw hj hk hne) e f

theorem outByte_toNat (s : State) (x : Nat) {k : Nat} (hk : k < 8) :
    (outByte s (8 * x + k)).toNat = (outEntry s x).toNat / 2 ^ (8 * k) % 256 := by
  have hentry : (8 * x + k) / 8 = x := by omega
  have hbyte : (8 * x + k) % 8 = k := by omega
  rw [outByte, hentry, hbyte, BitVec.extractLsb'_toNat, Nat.shiftRight_eq_div_pow]

theorem outEntry_eq_bytes (s : State) (x : Nat) : (outEntry s x).toNat =
    (outByte s (8 * x)).toNat + 2 ^ 8 * (outByte s (8 * x + 1)).toNat + 2 ^ 16 * (outByte s (8 * x + 2)).toNat +
      2 ^ 24 * (outByte s (8 * x + 3)).toNat + 2 ^ 32 * (outByte s (8 * x + 4)).toNat +
      2 ^ 40 * (outByte s (8 * x + 5)).toNat + 2 ^ 48 * (outByte s (8 * x + 6)).toNat +
      2 ^ 56 * (outByte s (8 * x + 7)).toNat := by
  have h0 := outByte_toNat s x (k := 0) (by decide)
  rw [Nat.add_zero] at h0
  simp (disch := decide) only [h0, outByte_toNat]
  omega

/-- VALUE modulo 2^61 is the entry's low 61 bits. -/
theorem entryValue_emod (e : Entry) : entryValue e % 2 ^ 61 = (e.toNat % 2 ^ 61 : Nat) := by
  have hcast : (2 : Int) ^ 61 = (2 ^ 61 : Nat) := by norm_num
  rw [entryValue, BitVec.toInt_eq_toNat_bmod, BitVec.extractLsb'_toNat, Nat.shiftRight_zero, hcast, Int.bmod_emod]
  omega

theorem entry_eq_fields (e : Entry) : (e.toNat : Int) =
    (entryValid e).toNat * 2 ^ 63 + (entryAddr e).toNat * 2 ^ 61 + entryValue e % 2 ^ 61 := by
  have hv : (entryValid e).toNat = e.toNat / 2 ^ 63 % 2 := by
    rw [entryValid, ← BitVec.testBit_toNat, Nat.toNat_testBit]
  rw [hv, entryAddr_toNat, entryValue_emod]
  omega

/-- Settles O29: the byte view is the entry's base-256 digits, and the fields are its bits 63, 62:61 and 60:0. -/
theorem outputEntryLayout : Obligations.OutputEntryLayout := ⟨outEntry_eq_bytes, entry_eq_fields⟩

/-! ## Who changes which memory -/

/-- What no instruction changes: the input buffer, the host's program and place, the turns and the last entry read. -/
def unmoved (s : State) : Memory 8 × List HostStmt × Nat × List Turn × Entry :=
  (s.inBuf, s.hostProg, s.hostPc, s.turns, s.hostEntry)

/-- What some instruction changes besides the block's registers: the output memory, the calibration table and the host's
variable. -/
def writable (s : State) : Memory 64 × Memory 32 × Word := (s.outMem, s.calTable, s.hostR)

theorem start_frame (m : Mode) (s : State) : unmoved (start m s) = unmoved s ∧ writable (start m s) = writable s := by
  rcases start_cases m s with ⟨e, -, h⟩ | ⟨-, h⟩ <;> rw [h] <;> exact ⟨rfl, rfl⟩

theorem noteRead_frame (s : State) (reg : Reg) :
    unmoved (noteRead s reg) = unmoved s ∧ writable (noteRead s reg) = writable s := by
  rcases noteRead_cases s reg with h | ⟨-, -, h⟩ | ⟨-, -, h⟩ <;> rw [h] <;> exact ⟨rfl, rfl⟩

/-- The word number of a named register (R23). -/
theorem number_of_regAt {offset : BitVec 8} (h : regAt offset ≠ .reserved) :
    offset.toNat / 4 = (regAt offset).offset.toNat / 4 := by
  revert offset
  decide

/-- All that an instruction can do to the memories and the host. -/
theorem memories_of_instrEffect {i : Instr} {s t : State} (h : InstrEffect i s t) :
    unmoved t = unmoved s ∧
    (writable t = writable s ∨
      (isPacket i = true ∧ t.calTable = s.calTable ∧ t.hostR = s.hostR) ∨
      (s.phase = .idle ∧ (∃ offset d, i = .hostWr offset d ∧ regAt offset = .calData) ∧
        t.outMem = s.outMem ∧ t.hostR = s.hostR) ∨
      ((∃ offset d, i = .hostRd offset d) ∧ t.outMem = s.outMem ∧ t.calTable = s.calTable)) := by
  cases h with
  | word v a e hi => exact ⟨rfl, .inr (.inl ⟨hi, rfl, rfl⟩)⟩
  | storeCal offset d hi hr hp hx => exact ⟨rfl, .inr (.inr (.inl ⟨hp, ⟨offset, d, hi, hr⟩, rfl, rfl⟩))⟩
  | read offset d v hi =>
    obtain ⟨hu, hw⟩ := noteRead_frame s (regAt offset)
    obtain ⟨ho, hc, -⟩ : _ ∧ _ ∧ _ := by simpa only [writable, Prod.mk.injEq] using hw
    exact ⟨hu, .inr (.inr (.inr ⟨⟨offset, d, hi⟩, ho, hc⟩))⟩
  | start m hi hp => exact (start_frame m s).imp_right .inl
  | locked hp => exact ⟨rfl, .inl rfl⟩
  | nothing => exact ⟨rfl, .inl rfl⟩
  | illegal hi hp => exact ⟨rfl, .inl rfl⟩
  | acknowledge d => exact ⟨rfl, .inl rfl⟩
  | setIe b => exact ⟨rfl, .inl rfl⟩
  | setT d hp => exact ⟨rfl, .inl rfl⟩
  | setByteLen d hp => exact ⟨rfl, .inl rfl⟩
  | setLoaded b hp => exact ⟨rfl, .inl rfl⟩
  | setCalIdx x hp => exact ⟨rfl, .inl rfl⟩

/-- Settles O46: what an instruction does to the memories is one of the four cases of `memories_of_instrEffect`. -/
theorem memoriesChangeOnlyByTheirWriters : Obligations.MemoriesChangeOnlyByTheirWriters := by
  intro i s t h
  obtain ⟨hu, hw⟩ := memories_of_instrEffect (exec_effect_of_next h)
  simp only [unmoved, writable, Prod.mk.injEq] at hu hw
  obtain ⟨h1, h2, h3, h4, h5⟩ := hu
  refine ⟨h1, h2, h3, h4, h5, ?_⟩
  rcases hw with ⟨ho, hc, hr⟩ | ⟨hi, hc, hr⟩ | ⟨hp, ⟨offset, d, hi, hreg⟩, ho, hr⟩ | ⟨hi, ho, hc⟩
  · exact ⟨absurd ho, absurd hc, absurd hr⟩
  · exact ⟨fun _ => hi, absurd hc, absurd hr⟩
  · have hn : offset.toNat / 4 = 8 := by
      rw [number_of_regAt (by simp [hreg]), hreg]
      rfl
    exact ⟨absurd ho, fun _ => ⟨hp, offset, d, hi, hn⟩, absurd hr⟩
  · exact ⟨absurd ho, absurd hc, fun _ => hi⟩

/-! ## The host's transactions -/

/-- Settles O10: a `bus` statement's step is the meaning of its transaction. -/
theorem hostStepRunsTransaction : Obligations.HostStepRunsTransaction := fun _ _ ht hs => step_of_stmt ht hs

end Sys2Proof.Machine
end

section
/-! Code words and instructions (30_encoding.md): every code word is put together again from what it decodes to, and the
opcode table's rows accept what the decoder reads as theirs. -/

namespace Sys2Proof

/-! ## The two ways round -/

/-- Settles O1, by `decode_encode`, which also holds of a read that is ill formed. -/
theorem decodeOfEncodeIsIdentity : Obligations.DecodeOfEncodeIsIdentity := fun _ _ _ hr => decode_encode hr

theorem encode_decodePacket (m : Mode) (w : Word) : encode (decodePacket m w) = .packet w := by
  have hw := packet_of_fields w
  unfold decodePacket
  cases hv : packetValid w <;> rw [hv] at hw
  · exact congrArg CodeWord.packet hw
  · cases m <;> exact congrArg CodeWord.packet hw

theorem encode_decodeCommand (d : Word) : encode (decodeCommand d) = .command d := by
  have hg := commandIgnored_toNat d
  rw [decodeCommand_of_toNat (g := commandIgnored d) (c := d.toNat % 16) (Nat.mod_lt _ (by decide)) (by omega)]
  split_ifs <;> refine congrArg CodeWord.command (BitVec.eq_of_toNat_eq ?_)
  case pos | pos | pos | pos => rw [command_toNat, hg, BitVec.toNat_ofNat]; omega
  case pos => rw [command47_toNat, hg, BitVec.toNat_ofNat, BitVec.toNat_ofNat]; omega
  case neg => rw [command8F_toNat, hg, BitVec.toNat_ofNat, BitVec.toNat_ofNat]; omega

theorem encode_decodeTransaction (x : Transaction) : encode (decodeTransaction x) = .host x := by
  have hx := transaction_of_fields x
  unfold decodeTransaction
  cases hv : x.getLsbD 40 <;> rw [hv] at hx <;> exact congrArg CodeWord.host hx

theorem encode_decode (m : Mode) (u : CodeWord) : encode (decode m u) = u := by
  cases u with
  | packet w => exact encode_decodePacket m w
  | command d => exact encode_decodeCommand d
  | host x => exact encode_decodeTransaction x

/-- A code word decodes, in some mode, to the instructions that have it as their encoding, and to no other (R93). -/
theorem exists_decode_eq_iff (u : CodeWord) (i : Instr) : (∃ m, decode m u = i) ↔ encode i = u := by
  refine ⟨fun ⟨m, hm⟩ => hm ▸ encode_decode m u, fun he => ?_⟩
  have readable : ∃ m, i.readIn m = true := by
    cases i with
    | pktValidCal r a count => exact ⟨.cal, rfl⟩
    | _ => exact ⟨.scaled, rfl⟩
  obtain ⟨m, hm⟩ := readable
  exact ⟨m, he ▸ decode_encode hm⟩

/-- Settles O2: each space's decoder keeps every bit of its words. -/
theorem encodeOfDecodeIsIdentity : Obligations.EncodeOfDecodeIsIdentity := encode_decode

/-! ## The opcode table -/

/-- The row of an instruction's mnemonic accepts its encoding. -/
theorem rowMatch (i : Instr) : Laws.RowMatch.Statement i := by
  cases i with
  | pktInvalid r a count => exact Laws.RowMatch.pktInvalid r a count
  | pktValidScaled r a count => exact Laws.RowMatch.pktValidScaled r a count
  | pktValidCal r a count => exact Laws.RowMatch.pktValidCal r a count
  | nop g => exact Laws.RowMatch.nop g
  | unpack g => exact Laws.RowMatch.unpack g
  | unpackCal g => exact Laws.RowMatch.unpackCal g
  | reservedCmd3 g => exact Laws.RowMatch.reservedCmd3 g
  | reservedCmd47 low g => exact Laws.RowMatch.reservedCmd47 low g
  | reservedCmd8F low g => exact Laws.RowMatch.reservedCmd8F low g
  | hostRd offset data => exact Laws.RowMatch.hostRd offset data
  | hostWr offset data => exact Laws.RowMatch.hostWr offset data

/-- The row of what a code word decodes to accepts the word. -/
theorem accepts_row_of_decode (m : Mode) (u : CodeWord) :
    ∃ row ∈ opcodeTable, row.mnemonic = (decode m u).mnemonic ∧ row.accepts u = true := by
  have h := rowMatch (decode m u)
  rwa [Laws.RowMatch.Statement, encode_decode] at h

theorem accepts_iff (row : Row) (u : CodeWord) :
    row.accepts u = true ↔ row.space = u.space ∧ u.bits &&& row.mask = row.pattern := by
  simp [Row.accepts]

/-- Each mnemonic is that of one row. -/
theorem row_eq_of_mnemonic : ∀ row ∈ opcodeTable, ∀ row' ∈ opcodeTable,
    row.mnemonic = row'.mnemonic → row = row' := by decide

/-- The two rows that share one bit pattern (R93). -/
def sharedPattern : List String := ["PKT_VALID_SCALED", "PKT_VALID_CAL"]

/-- Only the two PKT_VALID rows have patterns in one space that agree wherever both masks look. -/
theorem shared_of_compatible : ∀ row ∈ opcodeTable, ∀ row' ∈ opcodeTable, row.space = row'.space →
    row.pattern &&& row'.mask = row'.pattern &&& row.mask →
    row.mnemonic = row'.mnemonic ∨ (row.mnemonic ∈ sharedPattern ∧ row'.mnemonic ∈ sharedPattern) := by decide

/-- Only the two PKT_VALID rows accept one code word. -/
theorem shared_of_accepts {row row' : Row} {u : CodeWord} (hrow : row ∈ opcodeTable) (hrow' : row' ∈ opcodeTable)
    (h : row.accepts u = true) (h' : row'.accepts u = true) :
    row.mnemonic = row'.mnemonic ∨ (row.mnemonic ∈ sharedPattern ∧ row'.mnemonic ∈ sharedPattern) := by
  obtain ⟨hs, hp⟩ := (accepts_iff row u).1 h
  obtain ⟨hs', hp'⟩ := (accepts_iff row' u).1 h'
  refine shared_of_compatible row hrow row' hrow' (hs.trans hs'.symm) ?_
  rw [← hp, ← hp', Nat.and_right_comm]

/-- Two valid packets of the two modes have one code word (R93). -/
theorem exists_encode_eq_of_shared {i : Instr} {name : String} (hi : i.mnemonic ∈ sharedPattern)
    (hn : name ∈ sharedPattern) : ∃ i', encode i' = encode i ∧ i'.mnemonic = name := by
  have valid : ∃ r a count, encode i = encode (.pktValidScaled r a count) := by
    cases i with
    | pktValidScaled r a count => exact ⟨r, a, count, rfl⟩
    | pktValidCal r a count => exact ⟨r, a, count, rfl⟩
    | _ => simp [Instr.mnemonic, sharedPattern] at hi
  obtain ⟨r, a, count, he⟩ := valid
  rcases List.mem_pair.1 hn with rfl | rfl
  · exact ⟨.pktValidScaled r a count, he.symm, rfl⟩
  · exact ⟨.pktValidCal r a count, he.symm, rfl⟩

/-- Settles O3: a row that accepts a word is the row of what the word decodes to, or shares its pattern with it. -/
theorem opcodeRowsMatchDecoder : Obligations.OpcodeRowsMatchDecoder := by
  refine fun row u hrow => ⟨fun h => ?accepted, fun ⟨m, hm⟩ => ?decoded⟩
  case accepted =>
    obtain ⟨row', hrow', hn, h'⟩ := accepts_row_of_decode .scaled u
    obtain ⟨i, he, hi⟩ : ∃ i, encode i = u ∧ i.mnemonic = row.mnemonic := by
      rcases shared_of_accepts hrow hrow' h h' with heq | ⟨hs, hs'⟩
      · exact ⟨_, encode_decode .scaled u, (heq.trans hn).symm⟩
      · have hex := exists_encode_eq_of_shared (hn ▸ hs') hs
        rwa [encode_decode] at hex
    obtain ⟨m, hm⟩ := (exists_decode_eq_iff u i).2 he
    exact ⟨m, hm ▸ hi⟩
  case decoded =>
    obtain ⟨row', hrow', hn, h'⟩ := accepts_row_of_decode m u
    exact row_eq_of_mnemonic row hrow row' hrow' (hm.symm.trans hn.symm) ▸ h'

/-! ## Words written out -/

/-- Settles O6, by running the decoder on each word. -/
theorem writtenOutWordsDecode : Obligations.WrittenOutWordsDecode := by
  unfold Obligations.WrittenOutWordsDecode
  decide

/-! ## The fields of a packet -/

theorem decodePacket_invalid {w : Word} (h : w.toNat < 2 ^ 31) (m : Mode) :
    decodePacket m w = .pktInvalid (packetBit30 w) (packetAddr w) (packetCount w) := by
  have hv : packetValid w = false := by
    rw [packetValid_eq, decide_eq_false_iff_not]
    exact Nat.not_le.2 h
  unfold decodePacket
  rw [hv]
  rfl

theorem decodePacket_valid {w : Word} (h : 2 ^ 31 ≤ w.toNat) (m : Mode) :
    decodePacket m w = validPacket m (packetBit30 w) (packetAddr w) (packetCount w) := by
  have hv : packetValid w = true := by rwa [packetValid_eq, decide_eq_true_eq]
  unfold decodePacket
  rw [hv]
  cases m <;> rfl

/-- Settles O4: the fields' values are the laws of their extractions, and bit 31 is the sign of the word. -/
theorem packetFieldsByArithmetic : Obligations.PacketFieldsByArithmetic := by
  refine fun m w => ⟨packetBit30 w, packetAddr w, packetCount w, packetAddr_toNat w, packetCount_toNat w,
    packetBit30_toNat w, fun h => decodePacket_invalid h m, fun h => ?_⟩
  rw [decodePacket_valid h]
  cases m <;> rfl

end Sys2Proof
end

section
/-! What the encodings leave to the meanings (30_encoding.md): every instruction completes, the bits that a command and a
packet ignore have no effect, and the matrix that a command's words leave at its completion. -/

namespace Sys2Proof.Machine

/-- Settles O12: `exec_effect` says that the instruction completes, and what it then does. -/
theorem everyInstructionCompletes : Obligations.EveryInstructionCompletes := fun i s =>
  let ⟨t, ht, _⟩ := exec_effect i s
  ⟨t, ht⟩

/-! ## Bits that are ignored -/

theorem isReservedCommand_decodeCommand {d : Word} (h : 3 ≤ d.toNat % 16) :
    isReservedCommand (decodeCommand d) = true := by
  rw [decodeCommand, commandCases_eq, if_neg (by omega), if_neg (by omega), if_neg (by omega)]
  split_ifs <;> rfl

/-- R98, R210: a command has the effect of its OPC. -/
theorem issueCommand_congr {d d' : Word} (h : d.toNat % 16 = d'.toNat % 16) (s : State) :
    issueCommand d s = issueCommand d' s := by
  rw [issueCommand, issueCommand, commandCases_eq, commandCases_eq, h]
  rfl

theorem exec_hostWr_cmd {offset : BitVec 8} (h : offset.toNat / 4 = 1) (d : Word) (s : State) :
    exec (.hostWr offset d) s = issueCommand d s := by
  have hr : regAt offset = .cmd := regAt_of_number h
  simp only [exec, execHostWr, hr]

/-- Settles O5: the decoder and the write to CMD make the same choice, by the data modulo 16. -/
theorem commandChosenByOpcodeAlone : Obligations.CommandChosenByOpcodeAlone := by
  refine ⟨fun d => ⟨fun h => ⟨commandIgnored d, ?_⟩, fun h => ⟨commandIgnored d, ?_⟩, fun h => ⟨commandIgnored d, ?_⟩,
    isReservedCommand_decodeCommand⟩, fun offset d d' s ho h => ?_⟩
  · simp [decodeCommand, commandCases_eq, h]
  · simp [decodeCommand, commandCases_eq, h]
  · simp [decodeCommand, commandCases_eq, h]
  · rw [exec_hostWr_cmd ho, exec_hostWr_cmd ho, issueCommand_congr h]

/-- R94, R160: a packet has the effect of its class, its address field and its count. -/
theorem exec_decodePacket_congr {w w' : Word} (hv : packetValid w = packetValid w') (ha : packetAddr w = packetAddr w')
    (hc : packetCount w = packetCount w') (m : Mode) (s : State) :
    exec (decodePacket m w) s = exec (decodePacket m w') s := by
  unfold decodePacket
  rw [hv, ha, hc]
  cases packetValid w' <;> cases m <;> rfl

/-- Settles O19: the other fields of the two words are the same. -/
theorem bitThirtyIgnored : Obligations.BitThirtyIgnored := by
  refine fun m w s => exec_decodePacket_congr ?_ ?_ ?_ m s
  · simp [packetValid]
  · simp [packetAddr, BitVec.extractLsb'_xor]
  · simp [packetCount, BitVec.extractLsb'_xor]

/-! ## The completion of a command -/

/-- R216: the sequencer's step once every word is processed. -/
theorem step_complete {s : State} (ht : SequencerTurn s) (hp : s.phase = .busy) (hn : s.n.toNat = wordTotal s) :
    step s = .next (complete (afterTurn s)) := by
  rw [step_of_sequencerTurn ht]
  rcases sequencerStep_cases (afterTurn s) with ⟨hi, -⟩ | ⟨-, hlt, -⟩ | ⟨-, -, h⟩ | ⟨-, hlt, -⟩
  · exact of_idle hi hp
  · exact absurd hn hlt.ne
  · exact h
  · exact absurd hn hlt.ne'

/-- R153, R154: the word of a cycle, a pixel and a slot, its pixel and its output index. -/
theorem BusyInv.word_of_parts {s : State} (h : BusyInv s) {k i j : Nat} (hk : k < s.cycles.toNat) (hi : i < 256)
    (hj : j < s.tReg.toNat) :
    (i + 256 * k) * s.tReg.toNat + j < wordTotal s ∧ wordPixel s ((i + 256 * k) * s.tReg.toNat + j) = i ∧
      wordIndex s ((i + 256 * k) * s.tReg.toNat + j) = i * s.rowLen.toNat + (k * s.tReg.toNat + j) := by
  obtain ⟨hpixel, hcycle, hslot⟩ := parts_of_index (k := k) hj hi
  refine ⟨?_, hpixel, ?_⟩
  · rw [h.geometry.2]
    calc (i + 256 * k) * s.tReg.toNat + j < (i + 256 * k + 1) * s.tReg.toNat := 
        (Nat.add_lt_add_left hj _).trans_eq (Nat.succ_mul ..).symm
      _ ≤ 256 * s.cycles.toNat * s.tReg.toNat := Nat.mul_le_mul_right _ (by omega)
      _ = 256 * s.tReg.toNat * s.cycles.toNat := Nat.mul_right_comm ..
  · rw [wordIndex, outIndexOf, columnOf, hpixel, hcycle, hslot]

/-- The entry of a processed word: its own, or what the host has stored over it (R73, R74, assumption 12). -/
theorem BusyInv.entry_processed {s : State} (h : BusyInv s) (hd : s.inputDirty = false) {k : Nat} (hk : k < s.n.toNat) :
    outEntry s (wordIndex s k) = if wordIndex s k ∈ s.contested then oldEntry s (wordIndex s k)
      else entryOf s (wordPixel s k) (inRead s (4 * k)) := by
  split
  · rename_i hc
    rw [outEntry, oldEntry, (h.contested.2 _ hc).2.2]
  · rename_i hc
    exact h.written hd k hk hc

/-- Settles O59: the step is `complete`, which leaves the counters, the geometry and the entries as the invariant has
them. -/
theorem completionDeliversMatrix : Obligations.CompletionDeliversMatrix := by
  intro s h hturn hp hd hn
  have hb := h.busy hp
  have herr := (h.status.busy_not_done hp).2
  have hresult := callResult_matrix (s := complete (afterTurn s)) rfl herr
  have hcell := matrixCell_eq (complete (afterTurn s))
  refine ⟨_, step_complete hturn hp hn, rfl, rfl, herr, hb.counted.trans hn, ?valid, hb.geometry.1,
    ⟨_, hresult, matrixRows_length _, fun _ => matrixRows_row_length⟩, fun i j hi hj => ?inside,
    fun i j hout => ?beyond, fun k i j hk hi hj => ?entries⟩
  case valid => exact hn ▸ hb.validExact hd
  case inside => rw [hcell, if_pos ⟨rfl, herr, hi, hj⟩]
  case beyond =>
    rw [hcell, if_neg]
    rintro ⟨-, -, hi, hj⟩
    omega
  case entries =>
    obtain ⟨hlt, hpixel, hindex⟩ := hb.word_of_parts hk hi hj
    have hentry := hb.entry_processed hd (hlt.trans_eq hn.symm)
    rwa [hpixel, hindex] at hentry

end Sys2Proof.Machine
end

section
/-! The packet decoder (40_packet_decoder.md): the entry that each packet row writes, what a scaled entry says of its
word, and the length check that precedes the decoding of a stream. -/

namespace Sys2Proof.Machine

/-! ## The entry of a word -/

/-- R126: the sentinel entry as a number. -/
theorem sentinelEntry_toNat (a : BitVec 2) : (sentinelEntry a).toNat = 0x1FFFFFFFFFFFFC18 + a.toNat * 2 ^ 61 := by
  have hvalue : (Config.sentinelFs % 2 ^ 61).toNat = 0x1FFFFFFFFFFFFC18 := by decide
  rw [sentinelEntry, mkEntry_toNat, hvalue, Bool.toNat_false]
  omega

theorem outEntry_retire_self (v : Bool) (a : BitVec 2) (e : Entry) (s : State) :
    outEntry (retire v a e s) (wordIndex s s.n.toNat) = e :=
  (outEntry_retire ..).trans (if_pos rfl)

/-- R124: ADDR_NZ is sticky, and set by a word with a non-zero address field. -/
theorem retire_addrNz_iff (v : Bool) (a : BitVec 2) (e : Entry) (s : State) :
    (retire v a e s).addrNz = true ↔ s.addrNz = true ∨ a ≠ 0 := by
  rw [retire_eq, Bool.or_eq_true, bne_iff_ne]

theorem exec_pktInvalid (r : BitVec 1) (a : BitVec 2) (count : BitVec 28) (s : State) :
    exec (.pktInvalid r a count) s = .next (retire false a (sentinelEntry a) s) := rfl

theorem exec_pktValidScaled (r : BitVec 1) (a : BitVec 2) (count : BitVec 28) (s : State) :
    exec (.pktValidScaled r a count) s = .next (retire true a (scaledEntry a count) s) := rfl

/-- Settles O15: the word is retired with the sentinel entry of its address field. -/
theorem invalidPacketWritesSentinel : Obligations.InvalidPacketWritesSentinel := by
  intro r a count s
  refine ⟨_, exec_pktInvalid r a count s, ?_⟩
  rw [outEntry_retire_self]
  exact ⟨sentinelEntry_toNat a, entryValid_mkEntry .., entryAddr_mkEntry .., entryValue_sentinelEntry a,
    rfl, rfl, rfl, retire_addrNz_iff ..⟩

/-- Settles O16: the word is retired with the scaled entry of its address field and count. -/
theorem scaledPacketWritesProduct : Obligations.ScaledPacketWritesProduct := by
  intro r a count s
  refine ⟨_, exec_pktValidScaled r a count s, ?_⟩
  rw [outEntry_retire_self]
  exact ⟨entryValid_mkEntry .., entryAddr_mkEntry .., entryValue_scaledEntry a count, rfl, rfl, rfl,
    retire_addrNz_iff ..⟩

/-- Settles O20: both words are invalid packets with one address field, and PKT_INVALID reads no other field. -/
theorem invalidEntryIgnoresOtherBits : Obligations.InvalidEntryIgnoresOtherBits := by
  intro m w w' s hw hw' h
  have ha : packetAddr w = packetAddr w' :=
    BitVec.eq_of_toNat_eq (by rw [packetAddr_toNat, packetAddr_toNat, h])
  rw [decodePacket_invalid hw, decodePacket_invalid hw', exec_pktInvalid, exec_pktInvalid, ha]

/-! ## What a scaled entry says of its word -/

theorem decodeScaled_valid {w : Word} (h : 2 ^ 31 ≤ w.toNat) :
    decodeScaled w = scaledEntry (packetAddr w) (packetCount w) :=
  if_pos (by rwa [packetValid_eq, decide_eq_true_eq])

/-- R128: the VALUE of a valid word in scaled mode. -/
theorem entryValue_decodeScaled_valid {w : Word} (h : 2 ^ 31 ≤ w.toNat) :
    entryValue (decodeScaled w) = (w.toNat % 2 ^ 28 : Nat) * 17857 := by
  rw [decodeScaled_valid h, entryValue_scaledEntry, packetCount_toNat]

/-- R129: validity and count of a valid word, put together again. -/
theorem reencode_valid {w : Word} (h : 2 ^ 31 ≤ w.toNat) :
    0x80000000#32 ||| BitVec.ofNat 32 (w.toNat % 2 ^ 28) = w &&& 0x8FFFFFFF#32 := by
  have hmask : 0x8FFFFFFF#32 = 0x80000000#32 ||| 0x0FFFFFFF#32 := by decide
  have hvalid : w &&& 0x80000000#32 = 0x80000000#32 := by
    have hbit : w.toNat / 2 ^ 31 % 2 = 1 := by
      have := w.isLt
      omega
    apply BitVec.eq_of_toNat_eq
    calc (w &&& 0x80000000#32).toNat = w.toNat &&& 2 ^ 31 := BitVec.toNat_and ..
      _ = 1 * 2 ^ 31 := by rw [nat_and_two_pow, hbit]
  have hcount : w &&& 0x0FFFFFFF#32 = BitVec.ofNat 32 (w.toNat % 2 ^ 28) :=
    (and_mask_eq w _ 28 (by decide)).2 (by rw [BitVec.toNat_ofNat]; omega)
  rw [hmask, BitVec.and_or_distrib_left, hvalid, hcount]

/-- Settles O21: the scaled VALUE is COUNT · 17857, and the word's validity and count are re-encoded. -/
theorem scaledEntryDeterminesCount : Obligations.ScaledEntryDeterminesCount := by
  intro w h
  rw [entryValue_decodeScaled_valid h, Int.mul_ediv_cancel _ (by decide), BitVec.ofInt_natCast]
  exact ⟨Int.mul_emod_left .., rfl, reencode_valid h⟩

/-! ## The length check -/

theorem exec_startInstr_idle {s : State} (hp : s.phase = .idle) (m : Mode) (g : BitVec 28) :
    exec (startInstr m g) s = .next (start m s) := by
  have hstart : exec (startInstr m g) s = .next (whileIdle s (start m s)) := by cases m <;> rfl
  rw [hstart, whileIdle_idle _ hp]

/-- R26: the WWB bit of STATUS. -/
theorem statusWord_and_wwb (s : State) : statusWord s &&& 0x200#32 = if s.wwb then 0x200#32 else 0#32 := by
  have hbit : (statusWord s).toNat / 2 ^ 9 % 2 = s.wwb.toNat := by
    have hw := statusWord_toNat s
    have hb := Bool.toNat_lt (s.phase == .busy)
    have hd := Bool.toNat_lt s.done
    have he := Bool.toNat_lt s.err
    have hc := s.errCode.isLt
    have ha := Bool.toNat_lt s.addrNz
    have hwwb := Bool.toNat_lt s.wwb
    omega
  apply BitVec.eq_of_toNat_eq
  calc (statusWord s &&& 0x200#32).toNat = (statusWord s).toNat &&& 2 ^ 9 := BitVec.toNat_and ..
    _ = s.wwb.toNat * 2 ^ 9 := by rw [nat_and_two_pow, hbit]
    _ = _ := by cases s.wwb <;> rfl

/-- R254: STATUS after an error that leaves ADDR_NZ clear. -/
theorem statusWord_fail {s : State} (hp : s.phase = .idle) (ha : s.addrNz = false) (e : Error) :
    statusWord (fail e s) = (statusWord s &&& 0x200#32) ||| (0x006#32 ||| e.code.setWidth 32 <<< 4) := by
  rw [statusWord_and_wwb, statusWord]
  simp only [fail_phase, fail_done, fail_err, fail_errCode, fail_addrNz, fail_wwb, hp, ha]
  cases s.wwb <;> cases e <;> decide

/-- R215, R254: what a failed start leaves, whichever check failed. -/
theorem startFailsWith_fail {s : State} (hp : s.phase = .idle) (e : Error) :
    startFailsWith e.code s (fail e (clearProgress (clearCompletion s))) := by
  have hstatus := statusWord_fail (s := clearProgress (clearCompletion s)) hp rfl e
  rw [statusWord_and_wwb, clearProgress_wwb, clearCompletion_wwb, ← statusWord_and_wwb] at hstatus
  exact ⟨hp, rfl, Bool.and_true _, rfl, rfl, rfl, rfl, rfl, rfl, rfl, hstatus, callResult_error rfl rfl, rfl⟩

/-- R215, R254: the command fails with the error that its checks name. -/
theorem startInstr_fails {m : Mode} {s : State} {e : Error} (hp : s.phase = .idle) (h : startError m s = some e)
    (g : BitVec 28) : ∃ t, exec (startInstr m g) s = .next t ∧ startFailsWith e.code s t := by
  have hstart : start m s = fail e (clearProgress (clearCompletion s)) := by rw [start, h]
  exact ⟨_, (exec_startInstr_idle hp m g).trans (congrArg _ hstart), startFailsWith_fail hp e⟩

/-- R120: the length check is the first. -/
theorem startError_format {s : State} (h : s.byteLen.toNat % 4 ≠ 0) (m : Mode) : startError m s = some .formatError := by
  have hlength : lengthOk s = false := by rwa [← Bool.not_eq_true, lengthOk_iff]
  rw [startError, hlength]
  rfl

/-- Settles O32: the length check is the first, and its error is code 1. -/
theorem formatErrorReported : Obligations.FormatErrorReported := fun m g _ hp hl =>
  startInstr_fails hp (startError_format hl m) g

end Sys2Proof.Machine
end

section
/-! The reshaper (41_cycle_reshaper.md): the address calculation and its inverse, the geometry check that precedes it, the
step of the sequencer that places a word, and what the word leaves unchanged. -/

namespace Sys2Proof.Machine

/-! ## The address calculation -/

/-- Settles O27: the column and the output index are put together from the word's cycle, pixel and slot. -/
theorem sourceOrderPlacesWord : Obligations.SourceOrderPlacesWord := by
  intro t rowLen i k u hu hi
  obtain ⟨hpixel, hcycle, hslot⟩ := parts_of_index (k := k) hu hi
  have hcolumn : columnOf t ((i + 256 * k) * t + u) = k * t + u := by rw [columnOf, hcycle, hslot]
  exact ⟨hpixel, hcolumn, by rw [outIndexOf, hpixel, hcolumn]⟩

/-- R155, the other direction: the word that Flatten finds lies in the cell. -/
theorem parts_flatten {t : Nat} (ht : 1 ≤ t) {i : Nat} (hi : i < 256) (j : Nat) :
    pixelOf t (flatten t i j) = i ∧ columnOf t (flatten t i j) = j := by
  obtain ⟨hpixel, hcolumn, -⟩ := sourceOrderPlacesWord t 0 i (j / t) (j % t) (Nat.mod_lt j ht) hi
  rw [Nat.div_add_mod'] at hcolumn
  exact ⟨hpixel, hcolumn⟩

/-- A cell of the matrix comes from a word below N = 256 · T · C. -/
theorem flatten_lt {t c i j : Nat} (ht : 1 ≤ t) (hi : i < 256) (hj : j < t * c) : flatten t i j < 256 * t * c := by
  have hcycle : j / t < c := Nat.div_lt_of_lt_mul hj
  calc flatten t i j < (i + 256 * (j / t)) * t + t := Nat.add_lt_add_left (Nat.mod_lt j ht) _
    _ = (i + 256 * (j / t) + 1) * t := (Nat.succ_mul ..).symm
    _ ≤ 256 * c * t := Nat.mul_le_mul_right t (by omega)
    _ = 256 * t * c := Nat.mul_right_comm ..

/-- R155, R153: Flatten of an output index's row and column is the word of that index. -/
theorem flatten_outIndexOf {t c n : Nat} (ht : 1 ≤ t) (hn : n < 256 * t * c) :
    flatten t (outIndexOf t (t * c) n / (t * c)) (outIndexOf t (t * c) n % (t * c)) = n := by
  obtain ⟨hrow, hcolumn⟩ := outIndexOf_parts ht hn
  rw [hrow, hcolumn, flatten_parts ht]

/-- R69: every index of the matrix is the output index of the word that Flatten finds for its row and column. -/
theorem outIndexOf_flatten {t c x : Nat} (ht : 1 ≤ t) (hx : x < 256 * t * c) :
    flatten t (x / (t * c)) (x % (t * c)) < 256 * t * c ∧
      outIndexOf t (t * c) (flatten t (x / (t * c)) (x % (t * c))) = x := by
  rw [Nat.mul_assoc] at hx
  have hrow : x / (t * c) < 256 := Nat.div_lt_of_lt_mul (hx.trans_eq (Nat.mul_comm ..))
  have hlen : 0 < t * c := by omega
  obtain ⟨hpixel, hcolumn⟩ := parts_flatten ht hrow (x % (t * c))
  exact ⟨flatten_lt ht hrow (Nat.mod_lt x hlen), by rw [outIndexOf, hpixel, hcolumn, Nat.div_add_mod']⟩

/-- Settles O28: Flatten inverts AddrCalc both ways, and so the output index. -/
theorem addrCalcIsBijection : Obligations.AddrCalcIsBijection := by
  intro t c ht
  refine ⟨fun n hn => ⟨pixelOf_lt t n, columnOf_lt ht hn, flatten_parts ht n⟩,
    fun i j hi hj => ⟨flatten_lt ht hi hj, parts_flatten ht hi j⟩,
    fun n hn => outIndexOf_lt ht hn, fun n m hn hm h => ?injective, fun x hx => ⟨_, outIndexOf_flatten ht hx⟩⟩
  case injective => rw [← flatten_outIndexOf ht hn, h, flatten_outIndexOf ht hm]

/-! ## The geometry check -/

/-- R151: the geometry check comes after the length check and before the table's. -/
theorem startError_geometry {s : State} (hl : s.byteLen.toNat % 4 = 0)
    (hg : s.tReg.toNat = 0 ∨ s.byteLen.toNat / 4 % (s.tReg.toNat * 256) ≠ 0) (m : Mode) :
    startError m s = some .geometryError := by
  have hlength : lengthOk s = true := (lengthOk_iff s).2 hl
  have hgeometry : geometryOk s = false := by
    rw [← Bool.not_eq_true, geometryOk_iff]
    omega
  rw [startError, hlength, hgeometry]
  rfl

/-- Settles O33: the first check passes, and the second fails with code 2. -/
theorem geometryErrorReported : Obligations.GeometryErrorReported := fun m g _ hp hl hg =>
  startInstr_fails hp (startError_geometry hl hg m) g

/-! ## The sequencer's word -/

/-- R160: the sequencer's step while a word is left. -/
theorem step_word {s : State} (ht : SequencerTurn s) (hp : s.phase = .busy) (hn : s.n.toNat < wordTotal s) :
    step s = exec (fetchedPacket (afterTurn s)) (noteStream (afterTurn s)) := by
  have hbusy : (afterTurn s).phase = .busy := hp
  rw [step_of_sequencerTurn ht, sequencerStep, hbusy]
  exact if_pos hn

theorem fetchedPacket_clean {s : State} (h : s.inputDirty = false) :
    fetchedPacket s = decodePacket s.mode (inRead s (4 * s.n.toNat)) :=
  congrArg (decodePacket s.mode) (streamWord_clean h _)

/-- R65, U3. -/
theorem fetchedPacket_dirty {s : State} (h : s.inputDirty = true) :
    fetchedPacket s = decodePacket s.mode (Config.freeWord s.draws s.n.toNat) :=
  congrArg (decodePacket s.mode) (streamWord_dirty h _)

theorem noteStream_clean {s : State} (h : s.inputDirty = false) : noteStream s = s := by
  rw [noteStream, h]
  rfl

theorem noteStream_dirty {s : State} (h : s.inputDirty = true) : noteStream s = draw s := if_pos h

/-- Settles O9: the step runs the fetched packet, whose word is the stream's or a free one; the turn taken changes
neither. -/
theorem sequencerStepRunsPacketAtIndex : Obligations.SequencerStepRunsPacketAtIndex := by
  intro s ht hp hn
  rw [step_word ht hp hn]
  refine ⟨fun hd => ?clean, fun hd => ?dirty⟩
  case clean => exact congrArg₂ exec (fetchedPacket_clean (s := afterTurn s) hd) (noteStream_clean (s := afterTurn s) hd)
  case dirty => exact congrArg₂ exec (fetchedPacket_dirty (s := afterTurn s) hd) (noteStream_dirty (s := afterTurn s) hd)

/-! ## What a word leaves unchanged -/

/-- R160: every packet row retires its word. -/
theorem exec_packet_retires {i : Instr} (hi : isPacket i = true) (s : State) :
    ∃ v a e, exec i s = .next (retire v a e s) := by
  cases i with
  | pktInvalid r a count => exact ⟨_, _, _, exec_pktInvalid r a count s⟩
  | pktValidScaled r a count => exact ⟨_, _, _, exec_pktValidScaled r a count s⟩
  | pktValidCal r a count => exact ⟨_, _, _, rfl⟩
  | _ => cases hi

theorem outEntry_retire_ne (v : Bool) (a : BitVec 2) (e : Entry) {s : State} {y : Nat} (h : y ≠ wordIndex s s.n.toNat) :
    outEntry (retire v a e s) y = outEntry s y :=
  (outEntry_retire ..).trans (if_neg h)

/-- R68: a byte is read from its entry. -/
theorem outByte_congr {s t : State} {k : Nat} (h : outEntry t (k / 8) = outEntry s (k / 8)) : outByte t k = outByte s k := by
  rw [outByte, outByte, h]

/-- Settles O18: the next state is `retire`, which writes the one entry, and a byte outside it lies in another. -/
theorem packetFrame : Obligations.PacketFrame := by
  intro i s t hi h
  obtain ⟨v, a, e, he⟩ := exec_packet_retires hi s
  cases he.symm.trans h
  have hentry : ∀ y, y ≠ wordIndex s s.n.toNat → outEntry (retire v a e s) y = outEntry s y :=
    fun _ => outEntry_retire_ne v a e
  exact ⟨rfl, hentry, fun k hk => outByte_congr (hentry _ (by omega))⟩

end Sys2Proof.Machine
end

section
/-! Calibration (42_calibration.md): the entry that a valid packet writes in calibrated mode, its range and the coarse part
of its VALUE, what tells it from the sentinel, and the check that a table is there. -/

namespace Sys2Proof.Machine

theorem exec_pktValidCal (r : BitVec 1) (a : BitVec 2) (count : BitVec 28) (s : State) :
    exec (.pktValidCal r a count) s = .next (retire true a (correctedEntry s (wordPixel s s.n.toNat) a count) s) := rfl

/-- Settles O17: the word is retired with the corrected entry of its pixel, address field and count. -/
theorem calibratedPacketWritesSum : Obligations.CalibratedPacketWritesSum := by
  intro r a count s
  refine ⟨_, exec_pktValidCal r a count s, ?_⟩
  rw [outEntry_retire_self]
  exact ⟨entryValid_mkEntry .., entryAddr_mkEntry .., entryValue_correctedEntry .., rfl, rfl, rfl,
    retire_addrNz_iff ..⟩

/-! ## The entry of a word in either mode -/

theorem decodeScaled_invalid {w : Word} (h : packetValid w = false) : decodeScaled w = sentinelEntry (packetAddr w) :=
  if_neg (Bool.eq_false_iff.1 h)

theorem correct_invalid (s : State) (p : Nat) {w : Word} (h : packetValid w = false) :
    correct s p w = sentinelEntry (packetAddr w) :=
  if_neg (Bool.eq_false_iff.1 h)

theorem correct_valid (s : State) (p : Nat) {w : Word} (h : 2 ^ 31 ≤ w.toNat) :
    correct s p w = correctedEntry s p (packetAddr w) (packetCount w) :=
  if_pos (by rwa [packetValid_eq, decide_eq_true_eq])

/-- Settles O23: both entries are the word's entry under a mode, and the sentinel entry if the word is invalid. -/
theorem calibrationKeepsValidity : Obligations.CalibrationKeepsValidity := by
  intro s p w
  obtain ⟨hscaledValid, hscaledAddr⟩ := entryOf_fields { s with mode := .scaled } p w
  obtain ⟨hcalValid, hcalAddr⟩ := entryOf_fields { s with mode := .cal } p w
  exact ⟨hscaledValid, hcalValid, hscaledAddr, hcalAddr, fun h => by rw [correct_invalid s p h, decodeScaled_invalid h]⟩

/-! ## The VALUE of a word in calibrated mode -/

/-- R186, R191: a clock period has 140 taps, and so the coarse part counts 140 · 17857 fs a period. -/
theorem entryValue_correct_valid (s : State) (p : Nat) {w : Word} (h : 2 ^ 31 ≤ w.toNat) :
    entryValue (correct s p w) =
      (w.toNat % 2 ^ 28 / 140 : Nat) * 2499980 + (calEntry s (p * 140 + w.toNat % 2 ^ 28 % 140)).toInt := by
  rw [correct_valid s p h, entryValue_correctedEntry, packetCount_toNat]
  omega

/-- Settles O24: COUNT is 140 times the periods plus the tap. -/
theorem coarseCountsWholePeriods : Obligations.CoarseCountsWholePeriods := by
  intro s p w h
  refine ⟨entryValue_correct_valid s p h, fun hzero => ?_⟩
  have htap : (calEntry s (p * 140 + w.toNat % 2 ^ 28 % 140)).toInt = 0 := by rw [hzero]; rfl
  rw [entryValue_correct_valid s p h, entryValue_decodeScaled_valid h, htap]
  omega

/-- Settles O22: an invalid word's VALUE is -1000, and a valid one's is bounded by its count's 28 bits and the table
entry's 32. -/
theorem entryValueRange : Obligations.EntryValueRange := by
  refine ⟨fun w => ?scaled, fun s p w => ?calibrated⟩ <;> cases hv : packetValid w
  case scaled.false => exact .inl (by rw [decodeScaled_invalid hv, entryValue_sentinelEntry])
  case scaled.true =>
    rw [packetValid_eq, decide_eq_true_eq] at hv
    rw [entryValue_decodeScaled_valid hv]
    exact .inr ⟨w.toNat % 2 ^ 28, by omega, Int.mul_comm .., by omega⟩
  case calibrated.false =>
    rw [correct_invalid s p hv, entryValue_sentinelEntry]
    decide
  case calibrated.true =>
    rw [packetValid_eq, decide_eq_true_eq] at hv
    have hentry := toInt_bounds (calEntry s (p * 140 + w.toNat % 2 ^ 28 % 140))
    rw [entryValue_correct_valid s p hv]
    omega

/-! ## The sentinel's VALUE in a valid entry -/

/-- R95: an entry is put together from its three fields. -/
theorem mkEntry_fields (e : Entry) : mkEntry (entryValid e) (entryAddr e) (entryValue e) = e := by
  apply BitVec.eq_of_toNat_eq
  rw [mkEntry_toNat]
  have := entry_eq_fields e
  omega

/-- R95: V is bit 63 of an entry. -/
theorem mkEntry_true_xor_mkEntry_false (a : BitVec 2) (x : Int) :
    mkEntry true a x ^^^ mkEntry false a x = 0x8000000000000000#64 := by
  rw [mkEntry, mkEntry, BitVec.xor_append, BitVec.xor_append, BitVec.xor_self, BitVec.xor_self]
  decide

theorem entryTime_of_valid {e : Entry} (h : entryValid e = true) : entryTime e = some (entryValue e) := if_pos h

theorem ne_sentinelEntry_of_valid {e : Entry} (h : entryValid e = true) (a : BitVec 2) : e ≠ sentinelEntry a := by
  rintro rfl
  rw [sentinelEntry, entryValid_mkEntry] at h
  cases h

/-- R189: a valid entry with the sentinel's VALUE is its address field's sentinel entry but for V. -/
theorem xor_sentinelEntry_of_valid {e : Entry} (hv : entryValid e = true) (hx : entryValue e = -1000) :
    e ^^^ sentinelEntry (entryAddr e) = 0x8000000000000000#64 := by
  have he : mkEntry true (entryAddr e) Config.sentinelFs = e := by
    have hfields := mkEntry_fields e
    rwa [hv, hx] at hfields
  calc e ^^^ sentinelEntry (entryAddr e)
    _ = mkEntry true (entryAddr e) Config.sentinelFs ^^^ sentinelEntry (entryAddr e) := by rw [he]
    _ = 0x8000000000000000#64 := mkEntry_true_xor_mkEntry_false ..

/-- Settles O25: the entry carries the packet's V and A, and VALUE is the sum. -/
theorem correctedMinusOneIsNotSentinel : Obligations.CorrectedMinusOneIsNotSentinel := by
  intro s p w h
  obtain ⟨-, hvalid, -, haddr, -⟩ := calibrationKeepsValidity s p w
  rw [packetValid_eq, decide_eq_true h] at hvalid
  rw [← entryValue_correct_valid s p h]
  refine ⟨hvalid, fun hneg => ⟨hneg, entryTime_of_valid hvalid⟩,
    fun hsum => ⟨hsum, ?time, ne_sentinelEntry_of_valid hvalid, ?bit⟩⟩
  case time => rw [entryTime_of_valid hvalid, hsum]
  case bit => rw [← haddr, xor_sentinelEntry_of_valid hvalid hsum]

/-! ## The check of the table -/

/-- R180: the table is checked last, for UNPACK_CAL alone. -/
theorem startError_calibration {s : State} (hs : StartsIn .scaled s) (hloaded : s.loaded = false) :
    startError .cal s = some .calibrationUnavailable := by
  have hlength : lengthOk s = true := (lengthOk_iff s).2 hs.length
  have hgeometry : geometryOk s = true := (geometryOk_iff s).2 ⟨hs.slots, hs.whole⟩
  rw [startError, hlength, hgeometry, hloaded]
  rfl

/-- R215: what a command that passes its checks does. -/
theorem exec_startInstr_starts {m : Mode} {s : State} (hs : StartsIn m s) (g : BitVec 28) :
    exec (startInstr m g) s = .next (beginWords m (clearProgress (clearCompletion s))) := by
  have hnone : startError m s = none := (startError_none_iff m s).2 ⟨hs.length, hs.slots, hs.whole, hs.loaded⟩
  rw [exec_startInstr_idle hs.idle, start, hnone]

/-- Settles O34: the table's check is the one that fails, with code 3, and UNPACK passes all of its own. -/
theorem missingTableReported : Obligations.MissingTableReported := fun g _ hs hloaded =>
  ⟨startInstr_fails (m := .cal) hs.idle (startError_calibration hs hloaded) g,
    _, exec_startInstr_starts hs g, rfl, rfl⟩

end Sys2Proof.Machine
end

section
/-! The operations (43_operations.md): what each command does at its start, what each host transaction reads or writes, and
the run of a command that the host leaves alone, from its start to the finished matrix. -/

namespace Sys2Proof.Machine

/-! ## Commands -/

/-- Settles O30: the lock is open, and NOP's own part is nothing. -/
theorem nopChangesNothing : Obligations.NopChangesNothing := fun _ s hp => congrArg _ (whileIdle_idle s hp)

/-- R218: the three reserved rows have one meaning. -/
theorem exec_reservedCommand {i : Instr} (hi : isReservedCommand i = true) (s : State) :
    exec i s = .next (whileIdle s (illegal s)) := by
  cases i with
  | reservedCmd3 _ => rfl
  | reservedCmd47 _ _ => rfl
  | reservedCmd8F _ _ => rfl
  | _ => cases hi

/-- Settles O35: the next state is `illegal`, with the code of IllegalCommand. -/
theorem reservedCommandIsIllegal : Obligations.ReservedCommandIsIllegal := by
  intro i s hi hp
  refine ⟨illegal s, ?_, rfl, Bool.and_true _, rfl, rfl, rfl⟩
  rw [exec_reservedCommand hi, whileIdle_idle _ hp]

/-- Settles O36: the command completes, and while BUSY it can do nothing but `setWwb`. -/
theorem commandWhileBusyIgnored : Obligations.CommandWhileBusyIgnored := by
  intro i s hi hp
  obtain ⟨t, ht⟩ := everyInstructionCompletes i s
  rcases exec_command_cases hi ht with ⟨-, rfl⟩ | ⟨hidle, -⟩
  · exact ht
  · exact of_idle hidle hp

/-- R215: the facts about a command in progress hold at its start. -/
theorem StartsIn.busyInv {m : Mode} {s : State} (h : StartsIn m s) :
    BusyInv (beginWords m (clearProgress (clearCompletion s))) :=
  busyInv_beginWords ((startError_none_iff m s).2 ⟨h.length, h.slots, h.whole, h.loaded⟩)

/-- Settles O31: the next state is `beginWords` on the cleared state, which records the geometry. -/
theorem commandStarts : Obligations.CommandStarts := by
  intro m g s hs
  have hb := hs.busyInv
  exact ⟨_, exec_startInstr_starts hs g, rfl, rfl, rfl, rfl, Bool.and_false _, rfl, rfl, rfl, rfl, rfl,
    hb.cycles, hb.rowLen, hb.geometry.1, rfl⟩

/-- Settles O11: the step is `complete`, which leaves the output memory. -/
theorem completionSetsDone : Obligations.CompletionSetsDone := fun _ ht hp hn =>
  ⟨_, step_complete ht hp hn, rfl, rfl, Bool.and_true _, fun _ => rfl, rfl⟩

/-! ## Register writes -/

/-- R23, R40: a write reaches the register that its offset's number names. -/
theorem exec_hostWr_reg (reg : Reg) {offset : BitVec 8} (h : offset.toNat / 4 = reg.offset.toNat / 4) (d : Word)
    (s : State) : exec (.hostWr offset d) s = exec (.hostWr reg.offset d) s :=
  (offsetLowBitsIgnored offset reg.offset d s h).2

/-- R41: the registers that a command in progress locks, besides CMD. -/
theorem exec_hostWr_lockedReg (d : Word) (s : State) :
    exec (.hostWr (Reg.offset .tReg) d) s = .next (whileIdle s (setT d s)) ∧
    exec (.hostWr (Reg.offset .byteLen) d) s = .next (whileIdle s (setByteLen d s)) ∧
    exec (.hostWr (Reg.offset .calCtrl) d) s = .next (whileIdle s (setLoaded (d.getLsbD 0) s)) ∧
    exec (.hostWr (Reg.offset .calIdx) d) s = .next (whileIdle s (setCalIdx (d.extractLsb' 0 16) s)) ∧
    exec (.hostWr (Reg.offset .calData) d) s = .next (whileIdle s (writeCalData d s)) :=
  ⟨rfl, rfl, rfl, rfl, rfl⟩

theorem getLsbD_zero_eq_decide (d : Word) : d.getLsbD 0 = decide (d.toNat % 2 = 1) := by
  rw [getLsbD_eq_decide, Nat.pow_zero, Nat.div_one]

theorem extract_low_eq_ofNat (d : Word) : d.extractLsb' 0 16 = BitVec.ofNat 16 (d.toNat % 65536) := by
  apply BitVec.eq_of_toNat_eq
  rw [extract_low_toNat, BitVec.toNat_ofNat]
  exact (Nat.mod_mod ..).symm

/-- Settles O41: each write is its register's setter, behind the lock for all but IRQ_EN. -/
theorem configurationWriteStores : Obligations.ConfigurationWriteStores := by
  intro offset d s
  obtain ⟨htReg, hbyteLen, hcalCtrl, hcalIdx, -⟩ := exec_hostWr_lockedReg d s
  refine ⟨fun h => ⟨?irqEn, ?irq⟩, fun hp => ⟨fun h => ?tReg, fun h => ?byteLen, fun h => ?calCtrl, fun h => ?calIdx⟩⟩
  case irqEn =>
    rw [← getLsbD_zero_eq_decide]
    exact exec_hostWr_reg .irqEn h d s
  case irq => rw [irq, Bool.and_eq_true, decide_eq_true_iff]
  case tReg => rw [exec_hostWr_reg .tReg h, htReg, whileIdle_idle _ hp, setT]
  case byteLen => rw [exec_hostWr_reg .byteLen h, hbyteLen, whileIdle_idle _ hp, setByteLen]
  case calCtrl =>
    rw [exec_hostWr_reg .calCtrl h, hcalCtrl, whileIdle_idle _ hp, getLsbD_zero_eq_decide, setLoaded]
  case calIdx => rw [exec_hostWr_reg .calIdx h, hcalIdx, whileIdle_idle _ hp, extract_low_eq_ofNat, setCalIdx]

/-- Settles O45: a write to CMD issues the command, which is the decoded instruction. -/
theorem cmdWriteIssuesCommand : Obligations.CmdWriteIssuesCommand := fun _ d s h =>
  (exec_hostWr_cmd h d s).trans (issueCommand_eq d s)

/-- R41: the writes to the five locked registers besides CMD go through the lock. -/
theorem exec_hostWr_locked {offset : BitVec 8} (h : 4 ≤ offset.toNat / 4 ∧ offset.toNat / 4 ≤ 8) (d : Word) (s : State) :
    ∃ t, exec (.hostWr offset d) s = .next (whileIdle s t) := by
  obtain ⟨htReg, hbyteLen, hcalCtrl, hcalIdx, hcalData⟩ := exec_hostWr_lockedReg d s
  obtain h | h | h | h | h : offset.toNat / 4 = 4 ∨ offset.toNat / 4 = 5 ∨ offset.toNat / 4 = 6 ∨
      offset.toNat / 4 = 7 ∨ offset.toNat / 4 = 8 := by omega
  · exact ⟨_, (exec_hostWr_reg .tReg h d s).trans htReg⟩
  · exact ⟨_, (exec_hostWr_reg .byteLen h d s).trans hbyteLen⟩
  · exact ⟨_, (exec_hostWr_reg .calCtrl h d s).trans hcalCtrl⟩
  · exact ⟨_, (exec_hostWr_reg .calIdx h d s).trans hcalIdx⟩
  · exact ⟨_, (exec_hostWr_reg .calData h d s).trans hcalData⟩

/-- Settles O43: CMD is locked with its command, and the other registers by `whileIdle`. -/
theorem lockedWriteSetsWwb : Obligations.LockedWriteSetsWwb := by
  intro offset d s hp h
  rcases h with h | h
  · rw [cmdWriteIssuesCommand offset d s h]
    exact commandWhileBusyIgnored _ s (isCommand_decodeCommand d) hp
  · obtain ⟨t, ht⟩ := exec_hostWr_locked h d s
    rw [ht, whileIdle_busy t hp, setWwb]

/-- Whether a write to a register is ignored in either phase (R221, R39). -/
def isReadOnly : Reg → Bool
  | .id | .wordCnt | .validCnt | .cycles | .rowLen | .param0 | .param1 | .reserved => true
  | .cmd | .status | .irqEn | .tReg | .byteLen | .calCtrl | .calIdx | .calData => false

theorem isReadOnly_regAt {offset : BitVec 8} (h : offset.toNat / 4 = 0 ∨ 9 ≤ offset.toNat / 4) :
    isReadOnly (regAt offset) = true := by
  revert offset
  decide

theorem exec_hostWr_readOnly {offset : BitVec 8} (h : isReadOnly (regAt offset) = true) (d : Word) (s : State) :
    exec (.hostWr offset d) s = .next s := by
  cases hr : regAt offset with
  | id | wordCnt | validCnt | cycles | rowLen | param0 | param1 | reserved => simp only [exec, execHostWr, hr]
  | cmd | status | irqEn | tReg | byteLen | calCtrl | calIdx | calData =>
    rw [hr] at h
    cases h

/-- Settles O44: these offsets name the read-only registers. -/
theorem readOnlyWriteIgnored : Obligations.ReadOnlyWriteIgnored := fun _ d s h =>
  exec_hostWr_readOnly (isReadOnly_regAt h) d s

/-! ## Register reads -/

theorem shownCount_idle {s : State} (h : s.phase = .idle) (exact seen : Word) : shownCount s exact seen = exact := by
  rw [shownCount, h]

/-- R40, R46: but for a progress count while BUSY, the model notes nothing of a read. -/
theorem noteRead_of_exact {s : State} {reg : Reg} (h : s.phase = .idle ∨ (reg ≠ .wordCnt ∧ reg ≠ .validCnt)) :
    noteRead s reg = s := by
  rcases noteRead_cases s reg with hn | ⟨hp, hr, -⟩ | ⟨hp, hr, -⟩
  · exact hn
  · exact h.elim (of_idle · hp) fun hne => absurd hr hne.1
  · exact h.elim (of_idle · hp) fun hne => absurd hr hne.2

theorem number_of_reg {offset : BitVec 8} {reg : Reg} (h : regAt offset = reg) (hreg : reg ≠ .reserved) :
    offset.toNat / 4 = reg.offset.toNat / 4 := by
  subst h
  exact number_of_regAt hreg

/-- R220: such a read puts the register's value into the host's variable. -/
theorem exec_hostRd_exact {offset : BitVec 8} {s : State}
    (h : s.phase = .idle ∨ (offset.toNat / 4 ≠ 9 ∧ offset.toNat / 4 ≠ 10)) (data : Word) :
    exec (.hostRd offset data) s = .next (setHostR (regValue s (regAt offset)) s) := by
  have hword : regAt offset = .wordCnt → offset.toNat / 4 = 9 := fun hr => number_of_reg hr (by decide)
  have hvalid : regAt offset = .validCnt → offset.toNat / 4 = 10 := fun hr => number_of_reg hr (by decide)
  have hnote : noteRead s (regAt offset) = s := noteRead_of_exact (h.imp_right (And.imp (mt hword) (mt hvalid)))
  rw [exec, execHostRd, hnote]

theorem toNat_setWidth_ofBool (b : Bool) : ((BitVec.ofBool b).setWidth 32).toNat = b.toNat := by
  cases b <;> rfl

/-- Settles O37: the value is `regValue` of the register that the offset's number names. -/
theorem readReturnsRegister : Obligations.ReadReturnsRegister := by
  intro offset data s hexact
  have value : ∀ {k : Nat}, offset.toNat / 4 = k → regValue s (regAt offset) = regValue s (regNumber k) :=
    fun h => congrArg (regValue s) (regAt_of_number h)
  have natValue : ∀ {k : Nat}, offset.toNat / 4 = k →
      (regValue s (regAt offset)).toNat = (regValue s (regNumber k)).toNat := fun h => congrArg _ (value h)
  refine ⟨_, exec_hostRd_exact hexact data, rfl, value, value, fun h => (natValue h).trans ?status,
    fun h => (natValue h).trans (toNat_setWidth_ofBool s.ie), value, value,
    fun h => (natValue h).trans (toNat_setWidth_ofBool s.loaded), fun h => (natValue h).trans ?calIdx,
    fun h hx => (value h).trans (if_pos (Nat.lt_succ_of_le hx)),
    fun h hx => (value h).trans (if_neg (Nat.not_lt.2 hx)),
    fun h => (value h).trans (shownCount_idle ?wordCnt _ _), fun h => (value h).trans (shownCount_idle ?validCnt _ _),
    value, value, value, value, fun h => congrArg (regValue s) (regAt_reserved h)⟩
  case status =>
    refine (statusWord_toNat s).trans ?_
    cases s.phase <;> rfl
  case calIdx => exact BitVec.toNat_setWidth_of_le (by decide)
  case wordCnt => exact hexact.resolve_right fun hne => hne.1 h
  case validCnt => exact hexact.resolve_right fun hne => hne.2 h

/-! ## The run of a command -/

/-- R160: the processing of the word at the sequencer's index, read from an input buffer that the host has not changed. -/
def processWord (s : State) : State :=
  retire (packetValid (inRead s (4 * s.n.toNat))) (packetAddr (inRead s (4 * s.n.toNat)))
    (entryOf s (wordPixel s s.n.toNat) (inRead s (4 * s.n.toNat))) s

/-- R160, R304: with no turns given, a step of a command with a word left processes that word. -/
theorem step_processWord {s : State} (ht : s.turns = []) (hp : s.phase = .busy) (hd : s.inputDirty = false)
    (hn : s.n.toNat < wordTotal s) : step s = .next (processWord s) := by
  rw [(sequencerStepRunsPacketAtIndex s (.inr ⟨ht, hp⟩) hp hn).1 hd, afterTurn_of_nil ht, exec_decodePacket, processWord]

/-- What a command that starts at `s` and is left alone has done in `t` after its first `k` words: the entries below N, the
counters, ADDR_NZ and the word index have changed and nothing else. -/
structure Processed (s : State) (k : Nat) (t : State) : Prop where
  frame : ∃ outMem validCnt addrNz wordCnt n,
    t = { s with outMem := outMem, validCnt := validCnt, addrNz := addrNz, wordCnt := wordCnt, n := n }
  busyInv : BusyInv t
  index : t.n.toNat = k
  addrNz : t.addrNz = true ↔ ∃ j, j < k ∧ packetAddr (inRead s (4 * j)) ≠ 0
  beyond : ∀ x, wordTotal s ≤ x → outEntry t x = outEntry s x

/-- Whatever depends on no field that a word writes is as it was. -/
theorem Processed.keeps {α : Type} {s t : State} {k : Nat} (h : Processed s k t) (f : State → α)
    (hf : ∀ outMem validCnt addrNz wordCnt n,
      f { s with outMem := outMem, validCnt := validCnt, addrNz := addrNz, wordCnt := wordCnt, n := n } = f s :=
      by intros; rfl) : f t = f s := by
  obtain ⟨outMem, validCnt, addrNz, wordCnt, n, rfl⟩ := h.frame
  exact hf ..

theorem StartsIn.processed {m : Mode} {s : State} (h : StartsIn m s) :
    Processed (beginWords m (clearProgress (clearCompletion s))) 0 (beginWords m (clearProgress (clearCompletion s))) where
  frame := ⟨_, _, _, _, _, rfl⟩
  busyInv := h.busyInv
  index := rfl
  addrNz := ⟨nofun, fun ⟨_, hj, _⟩ => absurd hj (Nat.not_lt_zero _)⟩
  beyond _ _ := rfl

/-- One word more. -/
theorem Processed.next {s t : State} {k : Nat} (h : Processed s k t) (hk : k < wordTotal s) :
    Processed s (k + 1) (processWord t) := by
  have htotal : wordTotal t = wordTotal s := h.keeps wordTotal
  have hn : t.n.toNat < wordTotal t := by rwa [h.index, htotal]
  refine ⟨?frame, busyInv_retire h.busyInv hn _ _ _ fun _ => ⟨rfl, rfl⟩, ?index, ?addrNz, fun x hx => ?beyond⟩
  case frame =>
    obtain ⟨outMem, validCnt, addrNz, wordCnt, n, rfl⟩ := h.frame
    exact ⟨_, _, _, _, _, rfl⟩
  case index =>
    have hlt := wordTotal_lt t
    calc (t.n + 1).toNat = t.n.toNat + 1 := BitVec.toNat_add_of_lt (by simp; omega)
      _ = k + 1 := by rw [h.index]
  case addrNz =>
    have hword : inRead t (4 * k) = inRead s (4 * k) := h.keeps (inRead · (4 * k))
    rw [processWord, retire_addrNz_iff, h.addrNz, h.index, hword]
    simp only [Nat.lt_succ_iff_lt_or_eq, or_and_right, exists_or, exists_eq_left]
  case beyond =>
    have hne : x ≠ wordIndex t t.n.toNat := ((h.busyInv.source_index hn).2.2.trans_le (htotal.trans_le hx)).ne'
    exact (outEntry_retire_ne _ _ _ hne).trans (h.beyond x hx)

section
variable {s : State} (h : Processed s 0 s) (ht : s.turns = []) (hp : s.phase = .busy) (hd : s.inputDirty = false)
include h ht hp hd

/-- R304: the first `k` steps after the start process the first `k` words. -/
theorem run_processed {k : Nat} (hk : k ≤ wordTotal s) :
    ∃ t, Processed s k t ∧ ∀ j, Host.Core.run core (k + j) s = Host.Core.run core j t := by
  induction k with
  | zero => exact ⟨s, h, fun j => by rw [Nat.zero_add]⟩
  | succ k ih =>
    obtain ⟨t, hproc, hrun⟩ := ih (Nat.le_of_succ_le hk)
    have hn : t.n.toNat < wordTotal t := by rwa [hproc.index, hproc.keeps wordTotal]
    have hstep : step t = .next (processWord t) := step_processWord ((hproc.keeps State.turns).trans ht)
      ((hproc.keeps State.phase).trans hp) ((hproc.keeps State.inputDirty).trans hd) hn
    refine ⟨_, hproc.next hk, fun j => ?_⟩
    rw [Nat.add_assoc, Nat.add_comm 1, hrun]
    exact run_next core hstep j

/-- R216, R304: N + 1 steps after the start the command is complete. -/
theorem run_complete :
    ∃ t, Processed s (wordTotal s) t ∧ Host.Core.run core (wordTotal s + 1) s = .next (complete t) := by
  obtain ⟨t, hproc, hrun⟩ := run_processed h ht hp hd le_rfl
  have hturns : t.turns = [] := (hproc.keeps State.turns).trans ht
  have hbusy : t.phase = .busy := (hproc.keeps State.phase).trans hp
  have hn : t.n.toNat = wordTotal t := by rw [hproc.index, hproc.keeps wordTotal]
  have hstep : step t = .next (complete t) := by
    rw [step_complete (.inr ⟨hturns, hbusy⟩) hbusy hn, afterTurn_of_nil hturns]
  exact ⟨t, hproc, (hrun 1).trans (run_next core hstep 0)⟩

end

/-! ## The matrix that a command leaves -/

/-- R160: the entry of a word processed. -/
theorem Processed.outEntry_wordIndex {s t : State} {k : Nat} (h : Processed s k t) (hd : s.inputDirty = false)
    (hc : s.contested = []) {j : Nat} (hj : j < k) :
    outEntry t (wordIndex s j) = entryOf s (wordPixel s j) (inRead s (4 * j)) := by
  have hclean : t.inputDirty = false := (h.keeps State.inputDirty).trans hd
  have hnone : t.contested = [] := (h.keeps State.contested).trans hc
  have hindex : wordIndex t j = wordIndex s j := h.keeps (wordIndex · j)
  have hentry : entryOf t (wordPixel t j) (inRead t (4 * j)) = entryOf s (wordPixel s j) (inRead s (4 * j)) :=
    h.keeps fun u => entryOf u (wordPixel u j) (inRead u (4 * j))
  rw [← hindex, ← hentry]
  exact h.busyInv.written hclean j (hj.trans_eq h.index.symm) (hnone ▸ List.not_mem_nil)

/-- R34: the valid words among those processed are counted. -/
theorem Processed.validCnt_toNat {s t : State} {k : Nat} (h : Processed s k t) (hd : s.inputDirty = false) :
    t.validCnt.toNat = validBelow s k := by
  have hclean : t.inputDirty = false := (h.keeps State.inputDirty).trans hd
  rw [h.busyInv.validExact hclean, h.index]
  exact h.keeps (validBelow · k)

/-- R153: the column of a word of a command in progress lies in its row. -/
theorem BusyInv.columnOf_lt {s : State} (h : BusyInv s) {k : Nat} (hk : k < wordTotal s) :
    columnOf s.tReg.toNat k < s.rowLen.toNat := by
  obtain ⟨hrow, htotal⟩ := h.geometry
  rw [hrow]
  exact Machine.columnOf_lt h.slots (hk.trans_eq htotal)

/-- R106, R223: once the command is complete, the time of a word's entry stands in its cell of the call's result. -/
theorem BusyInv.matrixCell_complete {s : State} (h : BusyInv s) (he : s.err = false) {k : Nat} (hk : k < wordTotal s) :
    matrixCell (complete s) (pixelOf s.tReg.toNat k) (columnOf s.tReg.toNat k) =
      some (entryTime (outEntry (complete s) (wordIndex s k))) :=
  (matrixCell_eq ..).trans (if_pos ⟨rfl, he, pixelOf_lt .., h.columnOf_lt hk⟩)

/-- Settles O60: the start establishes `Processed` for no word, the steps carry it to all N words, and `complete` leaves
what it then says. -/
theorem commandProducesMatrix : Obligations.CommandProducesMatrix := by
  intro m g s hs ht
  obtain ⟨t, h, hrun⟩ := run_complete hs.processed ht rfl rfl
  have hstarted := hs.busyInv
  have herr : t.err = false := h.keeps State.err
  have htReg : t.tReg = s.tReg := h.keeps State.tReg
  have hrow : t.rowLen.toNat = wordTotal s / 256 := (h.keeps (·.rowLen.toNat)).trans hstarted.rowLen
  have hcycles : t.cycles.toNat = wordTotal s / (s.tReg.toNat * 256) :=
    (h.keeps (·.cycles.toNat)).trans hstarted.cycles
  refine ⟨_, complete t, exec_startInstr_starts hs g, hrun, rfl, rfl, herr, h.keeps State.errCode,
    h.busyInv.counted.trans h.index, h.validCnt_toNat rfl, h.addrNz, hcycles, hrow, fun k hk => ?entry,
    fun k hk => ?cell, h.beyond, h.keeps State.inBuf, h.keeps State.calTable, htReg, h.keeps State.byteLen,
    h.keeps State.loaded, h.keeps State.calIdx, h.keeps State.ie, h.keeps State.wwb⟩
  case entry =>
    have hentry := h.outEntry_wordIndex rfl rfl hk
    rw [wordIndex, hstarted.rowLen] at hentry
    cases m with
    | scaled => exact hentry
    | cal => exact hentry
  case cell =>
    have hcell := h.busyInv.matrixCell_complete herr (hk.trans_eq (h.keeps wordTotal).symm)
    rwa [wordIndex, htReg, hrow] at hcell

end Sys2Proof.Machine
end

section
/-! What sets the flags of STATUS (60_exceptions.md R251, R258): DONE the end of a command, and ERR a failure at its start. -/

namespace Sys2Proof.Machine

/-- From `s` to `t` neither DONE nor ERR is set. -/
structure SetsNoFlag (s t : State) : Prop where
  done : t.done = true → s.done = true
  err : t.err = true → s.err = true

/-- A command issued in `s` has failed at its start, with `t` as the state that it leaves (R251). -/
structure FailsFrom (s t : State) : Prop where
  wasIdle : s.phase = .idle
  idle : t.phase = .idle
  done : t.done = true
  err : t.err = true

/-- R211, R215: a start that does not fail leaves both flags clear. -/
theorem start_flags (m : Mode) {s : State} (hp : s.phase = .idle) :
    SetsNoFlag s (start m s) ∨ FailsFrom s (start m s) := by
  rcases start_cases m s with ⟨e, -, h⟩ | ⟨-, h⟩ <;> rw [h]
  · exact .inr ⟨hp, hp, rfl, rfl⟩
  · exact .inl ⟨nofun, nofun⟩

theorem noteRead_flags (s : State) (reg : Reg) : SetsNoFlag s (noteRead s reg) := by
  rcases noteRead_cases s reg with h | ⟨-, -, h⟩ | ⟨-, -, h⟩ <;> rw [h] <;> exact ⟨id, id⟩

/-- R257: a write to STATUS only clears. -/
theorem acknowledge_flags (d : Word) (s : State) : SetsNoFlag s (acknowledge d s) :=
  ⟨Bool.and_elim_left, Bool.and_elim_left⟩

/-- R251: an instruction sets a flag only as a command that fails. -/
theorem flags_of_instrEffect {i : Instr} {s t : State} (h : InstrEffect i s t) :
    SetsNoFlag s t ∨ (issuesCommand i ∧ FailsFrom s t) := by
  cases h with
  | start m hi hp => exact (start_flags m hp).imp_right (.intro hi)
  | illegal hi hp => exact .inr ⟨hi, hp, hp, rfl, rfl⟩
  | acknowledge d => exact .inl (acknowledge_flags d s)
  | read offset d v hi =>
    obtain ⟨hdone, herr⟩ := noteRead_flags s (regAt offset)
    exact .inl ⟨hdone, herr⟩
  | word | locked | nothing | setIe | setT | setByteLen | setLoaded | setCalIdx | storeCal => exact .inl ⟨id, id⟩

/-- R210, R251: a statement of the host sets a flag only as a write to CMD that fails. -/
theorem flags_of_hostEffect {stmt : HostStmt} {s t : State} (h : HostEffect stmt s t) :
    SetsNoFlag s t ∨ ((∃ x, stmt = .bus x ∧ issuesCommand (decodeTransaction x)) ∧ FailsFrom s t) := by
  cases h with
  | instr x t hi he => exact (flags_of_instrEffect he).imp_right (.imp_left fun hc => ⟨x, hi, hc⟩)
  | nothing | jump | storeInput | storeOutput | contest | loadOutput => exact .inl ⟨id, id⟩
  | reset | powerCycle => exact .inl ⟨nofun, nofun⟩

/-- R216: the sequencer sets a flag only as it completes a command. -/
theorem flags_of_sequencerStep {s t : State} (h : sequencerStep s = .next t) :
    SetsNoFlag s t ∨ (s.phase = .busy ∧ s.n.toNat = wordTotal s ∧ t = complete s) := by
  rcases sequencerStep_effect h with rfl | ⟨-, -, rfl⟩ | hc
  · exact .inl ⟨id, id⟩
  · rw [noteStream_eq]
    exact .inl ⟨id, id⟩
  · exact .inr hc

theorem writesCmd_of_issuesCommand {s : State} {x : Transaction} (hs : s.hostProg[s.hostPc]? = some (.bus x))
    (hc : issuesCommand (decodeTransaction x)) : WritesCmd s := by
  obtain ⟨offset, d, hx, hr⟩ := issuesCommand_decodeTransaction hc
  exact ⟨x, offset, d, hs, hx, number_of_reg hr (by decide)⟩

/-- R251, R258: all that a step can do to the two flags. -/
theorem step_flags {s t : State} (hs : step s = .next t) :
    SetsNoFlag s t ∨
    (SequencerTurn s ∧ s.phase = .busy ∧ s.n.toNat = wordTotal s ∧ t = complete (afterTurn s)) ∨
    (HostTurn s ∧ WritesCmd s ∧ FailsFrom s t) := by
  rcases step_cases hs with ⟨hturn, ht⟩ | ⟨-, -, rfl⟩ | ⟨hturn, stmt, hstmt, -, he⟩
  · rcases flags_of_sequencerStep ht with ⟨hdone, herr⟩ | hc
    · exact .inl ⟨hdone, herr⟩
    · exact .inr (.inl ⟨hturn, hc⟩)
  · exact .inl ⟨id, id⟩
  · rcases flags_of_hostEffect he with ⟨hdone, herr⟩ | ⟨⟨x, rfl, hc⟩, hp, hi, hdone, herr⟩
    · exact .inl ⟨hdone, herr⟩
    · exact .inr (.inr ⟨hturn, writesCmd_of_issuesCommand hstmt hc, hp, hi, hdone, herr⟩)

/-- Settles O47: a step that sets a flag is one of the two ends of a command that `step_flags` leaves, and completion keeps
ERR. -/
theorem doneSetOnlyByCommandEnd : Obligations.DoneSetOnlyByCommandEnd := by
  intro s t hs
  rcases step_flags hs with hkeep | ⟨hturn, hp, hn, rfl⟩ | ⟨hturn, hcmd, hfail⟩
  · exact ⟨fun h0 h1 => absurd (hkeep.done h1) (Bool.eq_false_iff.1 h0),
      fun h0 h1 => absurd (hkeep.err h1) (Bool.eq_false_iff.1 h0)⟩
  · have herr : (complete (afterTurn s)).err = s.err := complete_err _
    exact ⟨fun _ _ => ⟨rfl, .inl ⟨hturn, hp, hn, herr⟩⟩,
      fun h0 h1 => absurd (herr.symm.trans h1) (Bool.eq_false_iff.1 h0)⟩
  · exact ⟨fun _ _ => ⟨hfail.idle, .inr ⟨hturn, hcmd, hfail.wasIdle, hfail.err⟩⟩,
      fun _ _ => ⟨hturn, hcmd, hfail.wasIdle, hfail.idle, hfail.done⟩⟩

end Sys2Proof.Machine
end

section
/-! Reset and waiting (70_reset_and_hazards.md): what the reset input leaves of the block and of the output memory, the
first command after it, and the steps of a machine that has nothing to do. -/

namespace Sys2Proof.Machine

/-! ## The step of the reset input -/

theorem step_reset {s : State} (ht : HostTurn s) (hs : s.hostProg[s.hostPc]? = some .reset) :
    step s = .next (resetBlock (atStatement s)) :=
  step_of_stmt ht hs

theorem outAfterReset_idle {s : State} (h : s.phase = .idle) : outAfterReset s = s.outMem := by
  rw [outAfterReset, h]

theorem outAfterReset_busy {s : State} (h : s.phase = .busy) :
    outAfterReset s = s.outMem.replaceBelow (wordTotal s) fun x =>
      if Config.freeOld s.draws x then s.outOld.get x else some (computedEntry s x) := by
  rw [outAfterReset, h]

/-- R292, U2, U4: a reset leaves in each entry what a host read would have shown of it. -/
theorem outEntry_resetBlock (s : State) (x : Nat) : outEntry (resetBlock s) x = shownEntry s x := by
  rw [outEntry, resetBlock_outMem]
  cases hp : s.phase with
  | idle =>
    rw [outAfterReset_idle hp, shownEntry_outside (.inl hp)]
    rfl
  | busy =>
    rw [outAfterReset_busy hp, get_replaceBelow]
    by_cases hx : x < wordTotal s
    · have hshown : shownEntry s x = if Config.freeOld s.draws x then oldEntry s x else computedEntry s x :=
        if_pos ⟨hp, hx⟩
      rw [if_pos hx, hshown]
      split <;> rfl
    · rw [if_neg hx, shownEntry_outside (.inr (Nat.not_lt.1 hx))]
      rfl

/-- Settles O51: each entry is what a host read would have shown, which is the old or the computed one for a word of the
abandoned command. -/
theorem resetWhileBusyMixesEntries : Obligations.ResetWhileBusyMixesEntries := by
  intro s hi ht hp hs
  have hentry : ∀ x, outEntry (resetBlock (atStatement s)) x = shownEntry s x := outEntry_resetBlock (atStatement s)
  refine ⟨_, step_reset ht hs, rfl, rfl, rfl, rfl, rfl, rfl, rfl, rfl, fun k hk => ?inside, fun x hx => ?outside⟩
  case inside =>
    rw [hentry]
    exact (hi.busy hp).shownEntry_cases hp hk
  case outside => exact (hentry x).trans (shownEntry_outside (.inr hx))

/-- Settles O50: the step is `resetBlock`, and an IDLE machine has no command to abandon. -/
theorem resetInputRestoresBlock : Obligations.ResetInputRestoresBlock := fun s ht hs =>
  ⟨_, step_reset ht hs, rfl, rfl, outAfterReset_idle (s := atStatement s)⟩

/-! ## The first command after it -/

/-- R293: with L = 0 the length check passes, and with T = 0 the geometry check fails. -/
theorem startInstr_fails_unconfigured {t : State} (hp : t.phase = .idle) (htReg : t.tReg = 0) (hbyteLen : t.byteLen = 0)
    (hwwb : t.wwb = false) (m : Mode) (g : BitVec 28) :
    ∃ u, exec (startInstr m g) t = .next u ∧ u.phase = .idle ∧ statusWord u = 0x26 := by
  have hlength : t.byteLen.toNat % 4 = 0 := by rw [hbyteLen]; rfl
  have hslots : t.tReg.toNat = 0 := by rw [htReg]; rfl
  obtain ⟨u, hu, hidle, -, -, -, -, -, -, -, -, -, hstatus, -, -⟩ :=
    geometryErrorReported m g t hp hlength (.inl hslots)
  rw [statusWord_and_wwb, hwwb] at hstatus
  exact ⟨u, hu, hidle, hstatus⟩

/-- Settles O55: right after reset the configuration is 0 and WWB clear, in either of the two states. -/
theorem firstCommandAfterResetFails : Obligations.FirstCommandAfterResetFails := by
  rintro m g t (rfl | ⟨s, ht, hs, hstep⟩)
  · exact ⟨rfl, rfl, rfl, rfl, startInstr_fails_unconfigured rfl rfl rfl rfl m g⟩
  · obtain rfl : resetBlock (atStatement s) = t := by
      rw [step_reset ht hs] at hstep
      injection hstep
    exact ⟨rfl, rfl, rfl, rfl, startInstr_fails_unconfigured rfl rfl rfl rfl m g⟩

/-! ## A machine with nothing to do -/

theorem sequencerStep_idle {s : State} (h : s.phase = .idle) : sequencerStep s = .next s := by
  rw [sequencerStep, h]

theorem hostStep_ended {s : State} (h : s.hostProg.length ≤ s.hostPc) : hostStep s = .next s := by
  rw [hostStep, List.getElem?_eq_none h]

/-- Settles O14: whichever agent has the turn, its step is empty. -/
theorem idleMachineWaits : Obligations.IdleMachineWaits := by
  intro s hp hend
  rcases turn_cases s with ht | ht
  · rw [step_of_sequencerTurn ht]
    exact sequencerStep_idle hp
  · rw [step_of_hostTurn ht]
    exact hostStep_ended hend

end Sys2Proof.Machine
end
